-- ==== Sys2Proof/Config.lean ====
section
/-! DEFINITION. What an implementation of the engine may choose: the buffer capacities (spec R9, D2, U11). The
open parameter `IBUF_CAP` is NOT fixed here: it is the field `ibufCap` of the machine's state, so that every
statement about all states holds for every capacity (log entry 3). The sizes that R8 and R9 fix (16-byte block,
4-byte word, 32 bytes of key, 240 bytes of round keys) stand as numbers in the types. No free value is needed:
the spec gives every result a value (log entry 10). -/

namespace Sys2Proof.Config

/-- `OBUF_CAP = IBUF_CAP + 16` (R9): padding adds at most 16 bytes. -/
def obufCap (ibufCap : Nat) : Nat := ibufCap + 16

/-- The capacities `IBUF_CAP` an instance may have: a multiple of 16, at least 16 (R9), and small enough that the
32-bit `OLEN` can hold `OBUF_CAP` (DEDUCED, log entry 9). -/
def legalCapacity (ibufCap : Nat) : Bool :=
  ibufCap % 16 == 0 && decide (16 ≤ ibufCap) && decide (obufCap ibufCap < 2 ^ 32)

end Sys2Proof.Config
end

