-- ==== Sys2Proof/Word.lean ====
section
/-! DEFINITION. The word types of the engine (spec R10, R11, R12) and the one way a fixed-size byte array is
built from its bytes. -/

namespace Sys2Proof

/-- A byte (R10): 8 bits, bit 0 the least significant. -/
abbrev Byte := BitVec 8

/-- A command word (R70): 16 bits. -/
abbrev CmdWord := BitVec 16

/-- A fixed-size byte array `A[0..n)` (R11). -/
abbrev Bytes (n : Nat) := Vector Byte n

/-- A 16-byte block, State, round key or IV (R8, R12): matrix position (row, col) is byte `row + 4·col`. -/
abbrev Block := Bytes 16

/-- A 4-byte word of the key schedule: a byte array, never an integer (R52 (c)). -/
abbrev KWord := Bytes 4

/-- The byte array whose byte `i` is `f i`. -/
def tabulate {n : Nat} (f : Fin n → Byte) : Bytes n := ⟨⟨List.ofFn f⟩, by simp⟩

/-- The array of `n` zero bytes. -/
def zeros (n : Nat) : Bytes n := tabulate fun _ => 0#8

/-- `A xor B` (R11): bytewise exclusive-or of two arrays of one length. -/
def xorBytes {n : Nat} (a b : Bytes n) : Bytes n := tabulate fun i => a[i] ^^^ b[i]

end Sys2Proof
end

