-- ==== Sys2Proof/Syntax.lean ====
section
/-! DEFINITION. The eleven commands of the engine (spec R75), one constructor per row of the opcode table. -/

namespace Sys2Proof

/-- The chaining mode (R72): the three values of the 2-bit field `mode` that are not reserved. -/
inductive Mode where
  | ecb
  | cbc
  | ctr
  deriving DecidableEq, Repr

/-- The padding scheme (R73): the three values of the 2-bit field `pad` that are not reserved. -/
inductive Scheme where
  /-- value 0: no length byte, zero fill to the boundary (R155) -/
  | none
  /-- value 1: Scheme1, PKCS-style (R152) -/
  | pkcs
  /-- value 2: Scheme2, ANSI-style (R154) -/
  | ansi
  deriving DecidableEq, Repr

/-- A command. -/
inductive Instr where
  /-- `GFMUL2` (R96) -/
  | gfmul2
  /-- `GFMUL3` (R97) -/
  | gfmul3
  /-- `EXPANDKEY` (R118) -/
  | expandkey
  /-- `ENCBLOCK` (R141) -/
  | encblock
  /-- `SUBBYTES` (R142) -/
  | subbytes
  /-- `SHIFTROWS` (R143) -/
  | shiftrows
  /-- `MIXCOLUMNS` (R144) -/
  | mixcolumns
  /-- `ADDROUNDKEY k` (R146): `k` is the index of a round key -/
  | addroundkey (k : Nat)
  /-- `PAD p` (R161) -/
  | pad (p : Scheme)
  /-- `UNPAD p` (R162) -/
  | unpad (p : Scheme)
  /-- `ENCMSG m, p` (R184) -/
  | encmsg (m : Mode) (p : Scheme)
  deriving DecidableEq, Repr

/-- The mnemonic of a command, as the opcode table spells it (R75). -/
def Instr.mnemonic : Instr → String
  | .gfmul2 => "GFMUL2"
  | .gfmul3 => "GFMUL3"
  | .expandkey => "EXPANDKEY"
  | .encblock => "ENCBLOCK"
  | .subbytes => "SUBBYTES"
  | .shiftrows => "SHIFTROWS"
  | .mixcolumns => "MIXCOLUMNS"
  | .addroundkey _ => "ADDROUNDKEY"
  | .pad _ => "PAD"
  | .unpad _ => "UNPAD"
  | .encmsg _ _ => "ENCMSG"

end Sys2Proof
end

