-- ==== Sys2Proof/WellFormed.lean ====
section
/-! DEFINITION. Which commands have a legal command word (spec R74, R77): the checks that the types of
`Instr` do not make by themselves. -/

namespace Sys2Proof

/-- `k` fits the 4-bit field `rk` (R74); `UNPAD` does not take scheme None, whose word R77 case (5) calls
illegal. Every other field of `Instr` can hold only legal values (R72, R73). -/
def Instr.wellFormed : Instr → Bool
  | .gfmul2 | .gfmul3 | .expandkey | .encblock | .subbytes | .shiftrows | .mixcolumns => true
  | .addroundkey k => decide (k < 16)
  | .pad _ => true
  | .unpad p => decide (p ≠ .none)
  | .encmsg _ _ => true

end Sys2Proof
end

