-- ==== Sys2Proof/Decode.lean ====
section
/-! DEFINITION. The decoder of command words, total on every 16-bit word and on every byte pair, rejecting by
name (spec R70 to R78), and after it the encoder (the `word(s)` column of R75) and the assembler text (R79). -/

namespace Sys2Proof

/-- Why a command word is no command (R77 cases (1) to (4), in that order). Case (5), `UNPAD` with scheme
None, is a command of the table whose meaning raises the error (R162; log entry 5). -/
inductive IllegalWord where
  /-- case (1): `op` is none of the eleven opcodes -/
  | unknownOpcode
  /-- case (2): a field that the command's format does not use is nonzero -/
  | unusedField
  /-- case (3): `mode = 3` in `ENCMSG` -/
  | reservedMode
  /-- case (4): `pad = 3` in `PAD`, `UNPAD` or `ENCMSG` -/
  | reservedPad
  deriving DecidableEq, Repr

/-- The eleven opcodes (R75). -/
inductive Opcode where
  | gfmul2 | gfmul3 | expandkey | encblock | subbytes | shiftrows | mixcolumns | addroundkey | pad | unpad | encmsg
  deriving DecidableEq, Repr

/-- The four word formats (R71). -/
inductive Format where
  | n | k | p | m
  deriving DecidableEq, Repr

/-- Bits 7:0, the field `op` (R70). -/
def fieldOp (w : CmdWord) : Nat := (w.extractLsb' 0 8).toNat

/-- Bits 9:8, the field `mode` (R70). -/
def fieldMode (w : CmdWord) : Nat := (w.extractLsb' 8 2).toNat

/-- Bits 11:10, the field `pad` (R70). -/
def fieldPad (w : CmdWord) : Nat := (w.extractLsb' 10 2).toNat

/-- Bits 15:12, the field `rk` (R70). -/
def fieldRk (w : CmdWord) : Nat := (w.extractLsb' 12 4).toNat

/-- The `op` column of R75. -/
def opcodeOf : Nat → Option Opcode
  | 0x01 => some .gfmul2
  | 0x02 => some .gfmul3
  | 0x10 => some .expandkey
  | 0x20 => some .encblock
  | 0x21 => some .subbytes
  | 0x22 => some .shiftrows
  | 0x23 => some .mixcolumns
  | 0x24 => some .addroundkey
  | 0x30 => some .pad
  | 0x31 => some .unpad
  | 0x40 => some .encmsg
  | _ => none

/-- The `format` column of R75. -/
def formatOf : Opcode → Format
  | .gfmul2 | .gfmul3 | .expandkey | .encblock | .subbytes | .shiftrows | .mixcolumns => .n
  | .addroundkey => .k
  | .pad | .unpad => .p
  | .encmsg => .m

/-- Are the fields that a format does not use all zero (R71, column "must be zero")? -/
def unusedZero (f : Format) (w : CmdWord) : Bool :=
  match f with
  | .n => fieldRk w == 0 && fieldPad w == 0 && fieldMode w == 0
  | .k => fieldPad w == 0 && fieldMode w == 0
  | .p => fieldRk w == 0 && fieldMode w == 0
  | .m => fieldRk w == 0

/-- The values of `mode` (R72). -/
def modeOf : Nat → Except IllegalWord Mode
  | 0 => .ok .ecb
  | 1 => .ok .cbc
  | 2 => .ok .ctr
  | _ => .error .reservedMode

/-- The values of `pad` (R73). -/
def schemeOf : Nat → Except IllegalWord Scheme
  | 0 => .ok .none
  | 1 => .ok .pkcs
  | 2 => .ok .ansi
  | _ => .error .reservedPad

/-- The command of an opcode whose unused fields are zero, from its used fields. -/
def commandOf (o : Opcode) (w : CmdWord) : Except IllegalWord Instr :=
  match o with
  | .gfmul2 => .ok .gfmul2
  | .gfmul3 => .ok .gfmul3
  | .expandkey => .ok .expandkey
  | .encblock => .ok .encblock
  | .subbytes => .ok .subbytes
  | .shiftrows => .ok .shiftrows
  | .mixcolumns => .ok .mixcolumns
  | .addroundkey => .ok (.addroundkey (fieldRk w))
  | .pad =>
    match schemeOf (fieldPad w) with
    | .ok p => .ok (.pad p)
    | .error e => .error e
  | .unpad =>
    match schemeOf (fieldPad w) with
    | .ok p => .ok (.unpad p)
    | .error e => .error e
  | .encmsg =>
    match modeOf (fieldMode w), schemeOf (fieldPad w) with
    | .ok m, .ok p => .ok (.encmsg m p)
    | .error e, _ => .error e
    | .ok _, .error e => .error e

/-- The decoder (R76): total, the tests in the order of R77. -/
def decode (w : CmdWord) : Except IllegalWord Instr :=
  match opcodeOf (fieldOp w) with
  | none => .error .unknownOpcode
  | some o => if unusedZero (formatOf o) w then commandOf o w else .error .unusedField

/-- The 16-bit word whose byte at the lower offset is `hi` (R53: `CMD[15:8]` at `0x024`). -/
def wordOfBytes (hi lo : Byte) : CmdWord := hi ++ lo

/-- The two bytes of a command word, the one at the lower offset first (R53). -/
def bytesOfWord (w : CmdWord) : List Byte := [w.extractLsb' 8 8, w.extractLsb' 0 8]

/-- The decoder on the two bytes of the `CMD` port. -/
def decodeBytes (hi lo : Byte) : Except IllegalWord Instr := decode (wordOfBytes hi lo)

/-- The host's reading of a word as the opcode table numbers it: a command is one 16-bit word (R70), so the
word is cut to the `nbits` the table gives the row and laid out as the two bytes of `CMD`. -/
def decodeTableWord (nbits w : Nat) : Option Instr :=
  match bytesOfWord (BitVec.ofNat 16 (w % 2 ^ nbits)) with
  | [hi, lo] =>
    match decodeBytes hi lo with
    | .ok i => some i
    | .error _ => none
  | _ => none

/-- The code of a mode (R72). -/
def modeCode : Mode → CmdWord
  | .ecb => 0
  | .cbc => 1
  | .ctr => 2

/-- The code of a scheme (R73). -/
def schemeCode : Scheme → CmdWord
  | .none => 0
  | .pkcs => 1
  | .ansi => 2

/-- The encoder: the `word(s)` column of R75. -/
def encode : Instr → CmdWord
  | .gfmul2 => 0x0001
  | .gfmul3 => 0x0002
  | .expandkey => 0x0010
  | .encblock => 0x0020
  | .subbytes => 0x0021
  | .shiftrows => 0x0022
  | .mixcolumns => 0x0023
  | .addroundkey k => 0x0024 + 0x1000 * BitVec.ofNat 16 k
  | .pad p => 0x0030 + 0x0400 * schemeCode p
  | .unpad p => 0x0031 + 0x0400 * schemeCode p
  | .encmsg m p => 0x0040 + 0x0100 * modeCode m + 0x0400 * schemeCode p

/-- The `match` column of R75. -/
def tableMatch : Instr → CmdWord
  | .gfmul2 => 0x0001
  | .gfmul3 => 0x0002
  | .expandkey => 0x0010
  | .encblock => 0x0020
  | .subbytes => 0x0021
  | .shiftrows => 0x0022
  | .mixcolumns => 0x0023
  | .addroundkey _ => 0x0024
  | .pad _ => 0x0030
  | .unpad _ => 0x0031
  | .encmsg _ _ => 0x0040

/-- The `mask` column of R75. -/
def tableMask : Instr → CmdWord
  | .gfmul2 | .gfmul3 | .expandkey | .encblock | .subbytes | .shiftrows | .mixcolumns => 0xFFFF
  | .addroundkey _ => 0x0FFF
  | .pad _ | .unpad _ => 0xF3FF
  | .encmsg _ _ => 0xF0FF

/-- The operand name of a mode (R79). -/
def modeText : Mode → String
  | .ecb => "ECB"
  | .cbc => "CBC"
  | .ctr => "CTR"

/-- The operand name of a scheme (R79). -/
def schemeText : Scheme → String
  | .none => "NONE"
  | .pkcs => "PKCS"
  | .ansi => "ANSI"

/-- The assembler text of a command (R79): its mnemonic, then its operands. -/
def assembly (i : Instr) : String :=
  match i with
  | .addroundkey k => i.mnemonic ++ " " ++ toString k
  | .pad p => i.mnemonic ++ " " ++ schemeText p
  | .unpad p => i.mnemonic ++ " " ++ schemeText p
  | .encmsg m p => i.mnemonic ++ " " ++ modeText m ++ ", " ++ schemeText p
  | .gfmul2 | .gfmul3 | .expandkey | .encblock | .subbytes | .shiftrows | .mixcolumns => i.mnemonic

end Sys2Proof
end

