-- ==== Sys2Proof/Machine/State.lean ====
section
/-! DEFINITION. The state of one engine instance (spec R20) as plain data, the reasons a step can stop, and the
machine right after reset (R39, R236). -/

namespace Sys2Proof.Machine

/-- The bytes of one byte-addressed buffer space (R50): cells in strictly rising order of address, none of them
equal to what an unlisted address reads as (`unwritten`). -/
abbrev Memory := List Host.Cell

/-- What a buffer byte that nothing has written reads as. DESIGN CHOICE, unsafe (log entry 4): the spec leaves
the contents of `IBUF` and `OBUF` after reset unspecified (R39, R236). -/
abbrev unwritten : Byte := 0#8

/-- The error kinds (R211). -/
inductive ErrorKind where
  /-- code 1: `KLEN` is not 16, 24 or 32 (R212) -/
  | invalidKeyLength
  /-- code 2: CBC or CTR with `IVV = 0` (R213) -/
  | missingRequiredIv
  /-- code 3: `UNPAD` finds no length byte in range (R214) -/
  | invalidPaddingLength
  /-- code 4: no command raises it (R137) -/
  | blockLengthMismatch
  /-- code 5: an illegal word, a block command without its round key, `ILEN` above `IBUF_CAP` (R215) -/
  | illegalCommand
  deriving DecidableEq, Repr

/-- The labels of trace entries (R197). -/
inductive TraceLabel where
  | ivXor | subBytes | shiftRows | mixColumns | addRoundKey | counterXor
  deriving DecidableEq, Repr

/-- A trace entry (R196): the operation, the value it produced, the value it consumed, and the key or IV used
if any. -/
structure TraceEntry where
  label : TraceLabel
  state : Block
  prev : Block
  key : Option Block
  deriving DecidableEq, Repr

/-- The byte-addressed spaces a host can reach (R50). -/
inductive Space where
  | reg | ibuf | obuf
  deriving DecidableEq, Repr

/-- What the arrays that R236 leaves unspecified hold after one reset: any bytes. The two buffers are given as
their bytes from offset 0 upward; bytes past the list are `unwritten`. -/
structure ResetDraw where
  key : Bytes 32
  w : Bytes 240
  st : Block
  iv : Block
  ibuf : List Byte
  obuf : List Byte
  deriving DecidableEq, Repr

/-- One action of the world outside the engine (R6, R7, R13, R235). -/
inductive HostAction where
  /-- `MemWrite`: the bytes are given in ascending offset order (a register's most significant byte first, R53) -/
  | write (space : Space) (offset : Nat) (bytes : List Byte)
  /-- `MemRead` of `n` bytes -/
  | read (space : Space) (offset : Nat) (n : Nat)
  /-- the platform asserts reset (R235); the draw is what the unspecified arrays then hold -/
  | reset (draw : ResetDraw)
  deriving DecidableEq, Repr

/-- The state: the architectural state of R20, and below it the three fields that are the model's own. `CMD` has
no field: it "holds no value between steps" (R31). -/
structure State where
  /-- `KEY[0..31]` (R21) -/
  key : Bytes 32
  /-- `KLEN` (R22) -/
  klen : Byte
  /-- `W[0..239]` (R23) -/
  w : Bytes 240
  /-- `NR` (R25) -/
  nr : Byte
  /-- `ST[0..15]` (R26) -/
  st : Block
  /-- `IV[0..15]` (R27) -/
  iv : Block
  /-- `CTRL` (R32): bit 0 `IVV`, bit 1 `TREN`; it is held with bits 7:2 zero -/
  ctrl : Byte
  /-- `IBUF` (R28) -/
  ibuf : Memory
  /-- `ILEN` (R28) -/
  ilen : BitVec 32
  /-- `OBUF` (R29) -/
  obuf : Memory
  /-- `OLEN` (R29) -/
  olen : BitVec 32
  /-- `ERR` (R30) -/
  err : Byte
  /-- `TRACE` (R36), oldest entry first -/
  trace : List TraceEntry
  /-- the model's own: the parameter `IBUF_CAP` of this instance (R9, U11; log entry 3); nothing changes it -/
  ibufCap : Nat
  /-- the model's own: what the world outside does next, oldest first (R60; log entry 1) -/
  host : List HostAction
  /-- the model's own: the bytes the latest host read returned, ascending offset order (log entry 1) -/
  rdata : List Byte
  deriving DecidableEq, Repr

/-- Reasons to stop with a fault: none. Every command ends in a next state, its errors included (R216, R219:
"There are no fatal/process-level errors"), so no definition of the model raises a fault. -/
inductive Fault where
  deriving DecidableEq, Repr

/-- Reasons to give an action no meaning. -/
inductive Refusal where
  /-- raised by `exec` for an instruction without a meaning; no arm does. Safe: the run stops. -/
  | notModelled (mnemonic : String)
  /-- raised by a host access of no bytes (log entry 7). Safe: the run stops. -/
  | emptyAccess
  /-- raised by a host access to a reserved or unmapped offset of `REG` (R57, U6). Safe: the run stops. -/
  | unmappedOffset
  /-- raised by a host access at or beyond the end of `IBUF` or `OBUF` (R57, U6). Safe: the run stops. -/
  | beyondBuffer
  /-- raised by a partial or misaligned host access to `CMD`, `ILEN` or `OLEN` (R55, U6). Safe: the run stops. -/
  | partialAccess
  /-- raised by a host access wider than a byte that is not within one byte array (R54, R55; log entry 7). Safe:
  the run stops. -/
  | mixedAccess
  deriving DecidableEq, Repr

/-- The capacity of the input buffer of the instance that `State.reset` describes. DESIGN CHOICE (log entry 3):
the least capacity that runs every vector of the spec (R9: "the test vectors assume at least 64"). -/
abbrev resetCapacity : Nat := 64

/-- The machine right after reset (R39, R236), of an instance of capacity `resetCapacity`, with nothing coming
from the host. `KEY`, `W`, `ST`, `IV` zero and the buffers empty are DESIGN CHOICE, unsafe (log entry 4); a reset
with any other contents of them is `State.resetWith`. -/
def State.reset : State :=
  { key := zeros _
    klen := 0#8
    w := zeros _
    nr := 0#8
    st := zeros _
    iv := zeros _
    ctrl := 0#8
    ibuf := []
    ilen := 0#32
    obuf := []
    olen := 0#32
    err := 0#8
    trace := []
    ibufCap := resetCapacity
    host := []
    rdata := [] }

end Sys2Proof.Machine
end

