-- ==== Sys2Proof/Machine/Flags.lean ====
section
/-! DEFINITION. The flags: the bits of `CTRL` (spec R32), the codes of `ERR` (R30, R211) and of the trace labels
(R197). -/

namespace Sys2Proof.Machine

/-- The bits of `CTRL` that exist (R32); bits 7 to 2 read 0 and ignore writes. -/
abbrev ctrlMask : Byte := 0x03#8

/-- What `CTRL` holds after the host writes `v` (R32, R57). -/
def ctrlWritten (v : Byte) : Byte := v &&& ctrlMask

/-- What a host read of `CTRL` gives (R32, R57). -/
def State.ctrlRead (s : State) : Byte := s.ctrl &&& ctrlMask

/-- `CTRL.IVV`, bit 0 (R32): the host supplies an IV. -/
def State.ivv (s : State) : Bool := s.ctrl.getLsbD 0

/-- `CTRL.TREN`, bit 1 (R32): a trace sink is attached. -/
def State.tren (s : State) : Bool := s.ctrl.getLsbD 1

/-- The code of an error in `ERR` (R211). -/
def errorCode : ErrorKind → Byte
  | .invalidKeyLength => 1#8
  | .missingRequiredIv => 2#8
  | .invalidPaddingLength => 3#8
  | .blockLengthMismatch => 4#8
  | .illegalCommand => 5#8

/-- The code of success in `ERR` (R211). -/
abbrev noError : Byte := 0#8

/-- The code of a trace label (R197). -/
def labelCode : TraceLabel → Nat
  | .ivXor => 1
  | .subBytes => 2
  | .shiftRows => 3
  | .mixColumns => 4
  | .addRoundKey => 5
  | .counterXor => 6

end Sys2Proof.Machine
end

