-- ==== Sys2Proof/Machine/Ops.lean ====
section
/-! DEFINITION. The named operations every meaning is made of: reading and writing the buffer spaces, writing
the registers, ending a command with success or with an error (spec R216, the engine's whole "trap entry"; there
is no return from it, R219), emitting trace entries (R198), and reset (R236). -/

namespace Sys2Proof.Machine

/-! ### A buffer space -/

/-- The byte at an address (R50). -/
def Memory.read : Memory → Nat → Byte
  | [], _ => unwritten
  | (a, b) :: m, x => if x = a then b else Memory.read m x

/-- A memory without the cell of one address. -/
def Memory.eraseCell (m : Memory) (x : Nat) : Memory := m.filter fun c => c.1 != x

/-- Put a cell before the first cell of a higher address. -/
def Memory.insertCell : Memory → Nat → Byte → Memory
  | [], x, v => [(x, v)]
  | (a, b) :: m, x, v => if x < a then (x, v) :: (a, b) :: m else (a, b) :: Memory.insertCell m x v

/-- The memory after a write of one byte, in canonical form. -/
def Memory.write (m : Memory) (x : Nat) (v : Byte) : Memory :=
  if v = unwritten then m.eraseCell x else (m.eraseCell x).insertCell x v

/-- The `n` bytes from an address upward. -/
def Memory.readRange (m : Memory) (x n : Nat) : List Byte := (List.range n).map fun i => m.read (x + i)

/-- Write bytes from an address upward, in ascending order (R54). -/
def Memory.writeRange : Memory → Nat → List Byte → Memory
  | m, _, [] => m
  | m, x, b :: bs => Memory.writeRange (m.write x b) (x + 1) bs

/-- The cells rise strictly from address `lo` on, and none is `unwritten`. -/
def Memory.risesFrom : Memory → Nat → Bool
  | [], _ => true
  | (a, b) :: m, lo => decide (lo ≤ a) && b != unwritten && Memory.risesFrom m (a + 1)

/-- The canonical form. -/
def Memory.wf (m : Memory) : Bool := m.risesFrom 0

/-- Every listed address lies below a bound. -/
def Memory.below (m : Memory) (cap : Nat) : Bool := m.all fun c => decide (c.1 < cap)

/-! ### Byte arrays -/

/-- The array after `bs` is written from index `j` upward. -/
def writeBytes {n : Nat} (v : Bytes n) (j : Nat) (bs : List Byte) : Bytes n :=
  tabulate fun i => if j ≤ i.val then bs.getD (i.val - j) v[i] else v[i]

/-- The `n` bytes of an array from index `j` upward. -/
def readBytes {k : Nat} (v : Bytes k) (j n : Nat) : List Byte := (v.toList.drop j).take n

/-! ### Registers -/

/-- Write `KEY`. Only a host write does (R21). -/
def State.setKey (s : State) (v : Bytes 32) : State := { s with key := v }

/-- Write `KLEN`. Only a host write does (R22). -/
def State.setKlen (s : State) (v : Byte) : State := { s with klen := v }

/-- Write `W` and `NR` together, as the key schedule does (R118). -/
def State.setSchedule (s : State) (w : Bytes 240) (nr : Byte) : State := { s with w := w, nr := nr }

/-- Write `ST` (R26). -/
def State.setSt (s : State) (v : Block) : State := { s with st := v }

/-- Write `IV`. Only a host write does (R27). -/
def State.setIv (s : State) (v : Block) : State := { s with iv := v }

/-- Write `CTRL`. Only a host write does (R32). -/
def State.setCtrl (s : State) (v : Byte) : State := { s with ctrl := ctrlWritten v }

/-- Write bytes of `IBUF` from an offset upward. Only a host write does (R28). -/
def State.setIbuf (s : State) (x : Nat) (bs : List Byte) : State := { s with ibuf := s.ibuf.writeRange x bs }

/-- Write `ILEN`. Only a host write does (R28). -/
def State.setIlen (s : State) (v : BitVec 32) : State := { s with ilen := v }

/-- Produce a message: `OBUF[0..n) <- bs`, then `OLEN <- n`; the bytes of `OBUF` from `n` up stay (R29, R59). -/
def State.setOutput (s : State) (bs : List Byte) : State :=
  { s with obuf := s.obuf.writeRange 0 bs, olen := BitVec.ofNat 32 bs.length }

/-- Leave the bytes of a host read to the host. -/
def State.setRdata (s : State) (bs : List Byte) : State := { s with rdata := bs }

/-- What the world outside still does. -/
def State.setHost (s : State) (as : List HostAction) : State := { s with host := as }

/-! ### The end of a command -/

/-- `raise E` (R216): `ERR <- code(E)`, the command ends, nothing else is written and nothing is emitted. -/
def State.raise (s : State) (e : ErrorKind) : State := { s with err := errorCode e }

/-- A successful command writes `ERR <- 0` (R30). -/
def State.succeed (s : State) : State := { s with err := noError }

/-! ### The trace port -/

/-- `emit(label, new, old, key)` (R198). -/
def State.emit (s : State) (e : TraceEntry) : State :=
  if s.tren then { s with trace := s.trace ++ [e] } else s

/-- Emit entries in order (R201). -/
def State.emitAll (s : State) : List TraceEntry → State
  | [] => s
  | e :: es => (s.emit e).emitAll es

/-! ### Reset -/

/-- Reset (R39, R236): the unspecified arrays hold what the draw says; the capacity of the instance and what is
outside the engine stay. -/
def State.resetWith (s : State) (d : ResetDraw) : State :=
  { key := d.key
    klen := 0#8
    w := d.w
    nr := 0#8
    st := d.st
    iv := d.iv
    ctrl := 0#8
    ibuf := Memory.writeRange [] 0 (d.ibuf.take s.ibufCap)
    ilen := 0#32
    obuf := Memory.writeRange [] 0 (d.obuf.take (Config.obufCap s.ibufCap))
    olen := 0#32
    err := 0#8
    trace := []
    ibufCap := s.ibufCap
    host := s.host
    rdata := s.rdata }

end Sys2Proof.Machine
end

