-- ==== Sys2Proof/Machine/Operands.lean ====
section
/-! DEFINITION. The operands of the commands, all implicit but the round-key index, the mode and the scheme
(spec R74, R38), and the byte order of multi-byte values (R52, R53). -/

namespace Sys2Proof.Machine

/-- The key in use, `KEY[0..KLEN)` (R21). -/
def State.keyInUse (s : State) : List Byte := s.key.toList.take s.klen.toNat

/-- `KLEN` is one of the legal key lengths 16, 24, 32 (R22). -/
def State.keyLengthLegal (s : State) : Bool := s.klen == 16#8 || s.klen == 24#8 || s.klen == 32#8

/-- The input message, `IBUF[0..ILEN)` (R28). -/
def State.message (s : State) : List Byte := s.ibuf.readRange 0 s.ilen.toNat

/-- The output message, `OBUF[0..OLEN)` (R29). -/
def State.output (s : State) : List Byte := s.obuf.readRange 0 s.olen.toNat

/-- Byte `i` of `W`; there is none at 240 and above, which no state that a run reaches asks for (log entry 8). -/
def State.wByte (s : State) (i : Nat) : Byte := (s.w[i]?).getD 0#8

/-- Round key `RK[k]`, the 16 bytes `W[16k..16k+16)` (R23). -/
def State.roundKey (s : State) (k : Nat) : Block := tabulate fun j => s.wByte (16 * k + j.val)

/-- Word `w[i]`, the four bytes `W[4i..4i+4)` (R23). -/
def State.scheduleWord (s : State) (i : Nat) : KWord := tabulate fun j => s.wByte (4 * i + j.val)

/-- The array whose bytes are the first `n` of a list (a byte past the list's end, which no use has, is zero). -/
def bytesOfList (n : Nat) (l : List Byte) : Bytes n := tabulate fun i => l.getD i.val 0#8

/-- A 16-byte block from its bytes, byte `n` of the list to byte `n` of the block (R52 (b)). -/
def blockOfList (l : List Byte) : Block := bytesOfList 16 l

/-- The bytes of a list of blocks, in order (R52 (f)). -/
def bytesOfBlocks (bs : List Block) : List Byte := bs.flatMap fun b => b.toList

/-- The value of bytes read as a big-endian unsigned integer, the first byte most significant (R52 (e), R53). -/
def natOfBytes (l : List Byte) : Nat := l.foldl (fun acc b => 256 * acc + b.toNat) 0

/-- The `n` bytes of an integer modulo `256 ^ n`, big-endian (R53, R172). -/
def bytesOfNat (n v : Nat) : List Byte := (List.range n).map fun i => BitVec.ofNat 8 (v / 256 ^ (n - 1 - i))

end Sys2Proof.Machine
end

