-- ==== Sys2Proof/Machine/Padding.lean ====
section
/-! DEFINITION. The padding codec and the commands `PAD`, `UNPAD` (spec file 44_padding_codec.md). -/

namespace Sys2Proof.Machine

/-- `n = 16 - (len mod 16)`, the pad length of the two length-marking schemes (R151). -/
def padLength (len : Nat) : Nat := 16 - len % 16

/-- `z = (16 - (len mod 16)) mod 16`, the zero fill of scheme None (R155). -/
def zeroFill (len : Nat) : Nat := (16 - len % 16) % 16

/-- The bytes a scheme appends to a message of a length (R152, R154, R155). -/
def padBytes (p : Scheme) (len : Nat) : List Byte :=
  match p with
  | .none => List.replicate (zeroFill len) 0#8
  | .pkcs => List.replicate (padLength len) (BitVec.ofNat 8 (padLength len))
  | .ansi => List.replicate (padLength len - 1) 0#8 ++ [BitVec.ofNat 8 (padLength len)]

/-- `Pad(B, scheme)` (R150 to R155); it never fails. -/
def padMessage (p : Scheme) (b : List Byte) : List Byte := b ++ padBytes p b.length

/-- `Unpad(B, s)` for the two length-marking schemes, which decode alike (R156): the last byte is the number of
bytes to cut, in range when it is 1 to 16 and no more than the length (R157); the filler is not verified and the
length need not be a multiple of 16 (R158). `none` is the error `InvalidPaddingLength`. -/
def unpadMessage (b : List Byte) : Option (List Byte) :=
  match b.getLast? with
  | none => none
  | some last =>
    let n := last.toNat
    if n < 1 ∨ 16 < n ∨ b.length < n then none else some (b.take (b.length - n))

/-- `PAD p` (R161): no trace entry, no error. -/
def execPad (p : Scheme) (s : State) : Host.Outcome State Fault Refusal :=
  .next (s.setOutput (padMessage p s.message)).succeed

/-- `UNPAD p` (R162): scheme None is `IllegalCommand` (R159); no trace entry. -/
def execUnpad (p : Scheme) (s : State) : Host.Outcome State Fault Refusal :=
  if p = .none then .next (s.raise .illegalCommand)
  else
    match unpadMessage s.message with
    | none => .next (s.raise .invalidPaddingLength)
    | some b => .next (s.setOutput b).succeed

end Sys2Proof.Machine
end

