-- ==== Sys2Proof/Machine/Field.lean ====
section
/-! DEFINITION. Field arithmetic in GF(2^8) and the commands `GFMUL2`, `GFMUL3` (spec file
40_field_arithmetic.md). -/

namespace Sys2Proof.Machine

/-- `Mul2(b)`, the field product `0x02 · b` (R91). -/
def mul2 (b : Byte) : Byte := if b.getLsbD 7 then (b <<< 1) ^^^ 0x1b#8 else b <<< 1

/-- `Mul3(b)`, the field product `0x03 · b` (R92). -/
def mul3 (b : Byte) : Byte := mul2 b ^^^ b

/-- A byte multiplied by `x` as many times as said: `Mul2` applied `i` times (R102). -/
def mulX : Nat → Byte → Byte
  | 0, b => b
  | i + 1, b => mul2 (mulX i b)

/-- The general field product by shift and add (R102): the XOR, over every bit `i` set in `b`, of `Mul2` applied
`i` times to `a`. No command computes it (R95); it serves the construction of the substitution table. -/
def fieldMul (a b : Byte) : Byte :=
  (List.range 8).foldl (fun acc i => if b.getLsbD i then acc ^^^ mulX i a else acc) 0#8

/-- A byte function on every lane of the State, all sixteen alike and independently (R96, R97, R126). -/
def mapLanes (f : Byte → Byte) (s : Block) : Block := tabulate fun i => f s[i]

/-- `GFMUL2` (R96): no trace entry, no error. -/
def execGfmul2 (s : State) : Host.Outcome State Fault Refusal :=
  .next (s.setSt (mapLanes mul2 s.st)).succeed

/-- `GFMUL3` (R97): no trace entry, no error. -/
def execGfmul3 (s : State) : Host.Outcome State Fault Refusal :=
  .next (s.setSt (mapLanes mul3 s.st)).succeed

end Sys2Proof.Machine
end

