-- ==== Sys2Proof/Machine/KeySchedule.lean ====
section
/-! DEFINITION. The key schedule and the command `EXPANDKEY` (spec file 42_key_schedule.md). -/

namespace Sys2Proof.Machine

/-- `Nk`, the key length in words (R111). -/
def wordsOfKey (keyLength : Nat) : Nat := keyLength / 4

/-- `Nr = Nk + 6`, the number of rounds (R111, R15). -/
def roundsOf (keyLength : Nat) : Nat := wordsOfKey keyLength + 6

/-- `totalWords = 4·(Nr + 1)` (R111). -/
def totalWords (keyLength : Nat) : Nat := 4 * (roundsOf keyLength + 1)

/-- Word `i` of the raw key: key bytes `4i` to `4i+3` in that order (R112, R52 (c)). -/
def rawKeyWord (key : List Byte) (i : Nat) : KWord := tabulate fun j => key.getD (4 * i + j.val) 0#8

/-- `temp` of R112, from `w[i-1]`. -/
def scheduleTemp (nk i : Nat) (prev : KWord) : KWord :=
  if i % nk = 0 then xorBytes (subWord (rotWord prev)) (rconWord (i / nk))
  else if 6 < nk ∧ i % nk = 4 then subWord prev
  else prev

/-- `w[i]` from `w[i-1]` and `w[i-Nk]` (R112). -/
def nextWord (nk i : Nat) (prev back : KWord) : KWord := xorBytes back (scheduleTemp nk i prev)

/-- The loop of R112 over `i`, in ascending order, `todo` turns from index `i` on. The words made so far stand
newest first: `w[i-1]` is the first, `w[i-Nk]` stands at position `Nk - 1`. -/
def expandWords (nk : Nat) : (todo i : Nat) → (made : List KWord) → List KWord
  | 0, _, made => made
  | todo + 1, i, made =>
    expandWords nk todo (i + 1)
      (nextWord nk i (made.getD 0 (zeros _)) (made.getD (nk - 1) (zeros _)) :: made)

/-- The words `w[0..totalWords)` of a key (R112). -/
def keyWords (key : List Byte) : List KWord :=
  let nk := wordsOfKey key.length
  (expandWords nk (totalWords key.length - nk) nk ((List.range nk).map (rawKeyWord key)).reverse).reverse

/-- Round key `k` is words `4k` to `4k+3` (R112, R114). -/
def roundKeyOf (words : List KWord) (k : Nat) : Block :=
  blockOfList (((words.drop (4 * k)).take 4).flatMap fun t => t.toList)

/-- `KeyExpansion(key)` (R112): the round keys `RK[0..Nr]`. -/
def keyExpansion (key : List Byte) : List Block :=
  (List.range (roundsOf key.length + 1)).map (roundKeyOf (keyWords key))

/-- Run the key schedule (R118 after its check): `W[16k..16k+16) <- RK[k]` for `k` in `0..Nr+1`, the bytes of `W`
above stay; `NR <- Nr`. -/
def State.runKeySchedule (s : State) : State :=
  s.setSchedule (writeBytes s.w 0 (bytesOfBlocks (keyExpansion s.keyInUse)))
    (BitVec.ofNat 8 (roundsOf s.klen.toNat))

/-- `EXPANDKEY` (R118): no trace entry. -/
def execExpandkey (s : State) : Host.Outcome State Fault Refusal :=
  if s.keyLengthLegal then .next s.runKeySchedule.succeed
  else .next (s.raise .invalidKeyLength)

end Sys2Proof.Machine
end

