-- ==== Sys2Proof/Machine/RoundTransform.lean ====
section
/-! DEFINITION. The round transform and the commands `SUBBYTES`, `SHIFTROWS`, `MIXCOLUMNS`, `ADDROUNDKEY`,
`ENCBLOCK` (spec file 43_round_transform.md). -/

namespace Sys2Proof.Machine

/-! ### The four operations -/

/-- `SubBytes(S)` (R126). -/
def subBytes (s : Block) : Block := mapLanes sbox s

/-- Where output byte `n` of `ShiftRows` comes from (R127): row `r = n mod 4`, column `c = n div 4`, taken from
column `c + r` modulo 4 of the same row. -/
def shiftRowsSource (n : Nat) : Nat := n % 4 + 4 * ((n / 4 + n % 4) % 4)

/-- `ShiftRows(S)` (R127): all reads are of the old State. -/
def shiftRows (s : Block) : Block :=
  tabulate fun n => s[shiftRowsSource n.val]'(by simp only [shiftRowsSource]; omega)

/-- The output byte of `MixColumns` at row `r`, from the four old bytes of the column (R129, R130). -/
def mixByte (r : Nat) (s0 s1 s2 s3 : Byte) : Byte :=
  match r with
  | 0 => mul2 s0 ^^^ mul3 s1 ^^^ s2 ^^^ s3
  | 1 => s0 ^^^ mul2 s1 ^^^ mul3 s2 ^^^ s3
  | 2 => s0 ^^^ s1 ^^^ mul2 s2 ^^^ mul3 s3
  | _ => mul3 s0 ^^^ s1 ^^^ s2 ^^^ mul2 s3

/-- `MixColumns(S)` (R129): byte `n` is row `n mod 4` of column `n div 4`. -/
def mixColumns (s : Block) : Block :=
  tabulate fun n =>
    mixByte (n.val % 4) (s[4 * (n.val / 4)]'(by omega)) (s[4 * (n.val / 4) + 1]'(by omega))
      (s[4 * (n.val / 4) + 2]'(by omega)) (s[4 * (n.val / 4) + 3]'(by omega))

/-- `AddRoundKey(S, K)` (R131). -/
def addRoundKey (s k : Block) : Block := xorBytes s k

/-! ### Trace entries (R197, R200) -/

/-- The entry of `SubBytes` on a State. -/
def subBytesEntry (s : Block) : TraceEntry := ⟨.subBytes, subBytes s, s, none⟩

/-- The entry of `ShiftRows` on a State. -/
def shiftRowsEntry (s : Block) : TraceEntry := ⟨.shiftRows, shiftRows s, s, none⟩

/-- The entry of `MixColumns` on a State. -/
def mixColumnsEntry (s : Block) : TraceEntry := ⟨.mixColumns, mixColumns s, s, none⟩

/-- The entry of `AddRoundKey` on a State with a round key. -/
def addRoundKeyEntry (s k : Block) : TraceEntry := ⟨.addRoundKey, addRoundKey s k, s, some k⟩

/-! ### Block encryption -/

/-- What an encryption gives: the State, and the entries it emits, oldest first. -/
structure Traced where
  state : Block
  entries : List TraceEntry
  deriving DecidableEq, Repr

/-- One round (R132, R133): SubBytes, ShiftRows, MixColumns unless it is the last, AddRoundKey. -/
def oneRound (last : Bool) (k s : Block) : Traced :=
  let a := subBytes s
  let b := shiftRows a
  if last then
    { state := addRoundKey b k, entries := [subBytesEntry s, shiftRowsEntry a, addRoundKeyEntry b k] }
  else
    let c := mixColumns b
    { state := addRoundKey c k
      entries := [subBytesEntry s, shiftRowsEntry a, mixColumnsEntry b, addRoundKeyEntry c k] }

/-- The loop of R133 over the rounds `r`, in ascending order, `todo` turns from round `r` on; the round that
leaves nothing to do is round `Nr`. -/
def rounds (rk : Nat → Block) : (todo r : Nat) → Block → Traced
  | 0, _, s => { state := s, entries := [] }
  | todo + 1, r, s =>
    let one := oneRound (todo == 0) (rk r) s
    let rest := rounds rk todo (r + 1) one.state
    { state := rest.state, entries := one.entries ++ rest.entries }

/-- `EncryptBlock(S, RK[0..Nr])` (R133). -/
def encryptBlock (rk : Nat → Block) (nr : Nat) (s : Block) : Traced :=
  let all := rounds rk nr 1 (addRoundKey s (rk 0))
  { state := all.state, entries := addRoundKeyEntry s (rk 0) :: all.entries }

/-- `EncryptBlock` under the schedule held in `W` and `NR`. -/
def State.encrypt (s : State) (x : Block) : Traced := encryptBlock s.roundKey s.nr.toNat x

/-! ### Commands -/

/-- Run one traced operation on `ST`: `T = op(ST); emit(...); ST <- T; ERR <- 0` (R142 to R146). -/
def State.roundCommand (s : State) (e : TraceEntry) : State := ((s.emit e).setSt e.state).succeed

/-- `SUBBYTES` (R142). -/
def execSubbytes (s : State) : Host.Outcome State Fault Refusal :=
  .next (s.roundCommand (subBytesEntry s.st))

/-- `SHIFTROWS` (R143). -/
def execShiftrows (s : State) : Host.Outcome State Fault Refusal :=
  .next (s.roundCommand (shiftRowsEntry s.st))

/-- `MIXCOLUMNS` (R144). -/
def execMixcolumns (s : State) : Host.Outcome State Fault Refusal :=
  .next (s.roundCommand (mixColumnsEntry s.st))

/-- `ADDROUNDKEY k` (R146). -/
def execAddroundkey (k : Nat) (s : State) : Host.Outcome State Fault Refusal :=
  if s.nr = 0#8 ∨ s.nr.toNat < k then .next (s.raise .illegalCommand)
  else .next (s.roundCommand (addRoundKeyEntry s.st (s.roundKey k)))

/-- `ENCBLOCK` (R141). -/
def execEncblock (s : State) : Host.Outcome State Fault Refusal :=
  if s.nr = 0#8 then .next (s.raise .illegalCommand)
  else .next ((s.emitAll (s.encrypt s.st).entries).setSt (s.encrypt s.st).state).succeed

end Sys2Proof.Machine
end

