-- ==== Sys2Proof/Machine/ModeLayer.lean ====
section
/-! DEFINITION. The mode layer and the command `ENCMSG` (spec file 45_mode_layer.md). -/

namespace Sys2Proof.Machine

/-- The loop of `CtrAdd` (R172) over the bytes of the counter, least significant first, with the carry. -/
def ctrAddLoop : List Byte → (carry : Nat) → List Byte
  | [], _ => []
  | v :: vs, carry =>
    BitVec.ofNat 8 (v.toNat + carry % 256) :: ctrAddLoop vs (carry / 256 + (v.toNat + carry % 256) / 256)

/-- `CtrAdd(V, i)` (R172): the counter block of block `i`; the carry out of byte 0 is dropped (R173 (b)). -/
def ctrAdd (v : Block) (i : Nat) : Block := blockOfList (ctrAddLoop v.toList.reverse i).reverse

/-- Block `i` of a padded message, `P[16i..16i+16)` (R170). -/
def blockAt (p : List Byte) (i : Nat) : Block := blockOfList (p.drop (16 * i))

/-- The blocks of a padded message, `nb = len(P) / 16` of them (R170). -/
def blocksOf (p : List Byte) : List Block := (List.range (p.length / 16)).map (blockAt p)

/-- What one block of a message gives: the cipher block, the State the round transform ended with (R190), and
the entries, oldest first. -/
structure BlockResult where
  cipher : Block
  state : Block
  entries : List TraceEntry
  deriving DecidableEq, Repr

/-- One turn of the loop of R178: block `i` of the message, with `E` the block encryption (R175, R176, R177). In
CBC the `IV_XOR` entry stands before the round entries, in CTR the `COUNTER_XOR` entry after them. -/
def encryptOne (m : Mode) (E : Block → Traced) (iv chain : Block) (i : Nat) (p : Block) : BlockResult :=
  match m with
  | .ecb =>
    let c := E p
    { cipher := c.state, state := c.state, entries := c.entries }
  | .cbc =>
    let x := xorBytes p chain
    let c := E x
    { cipher := c.state, state := c.state, entries := ⟨.ivXor, x, p, some chain⟩ :: c.entries }
  | .ctr =>
    let ks := E (ctrAdd iv i)
    let c := xorBytes p ks.state
    { cipher := c, state := ks.state, entries := ks.entries ++ [⟨.counterXor, c, p, some ks.state⟩] }

/-- The loop of R178 over the blocks in ascending order, from block `i` on; the chaining value of CBC becomes the
cipher block. -/
def encryptBlocks (m : Mode) (E : Block → Traced) (iv : Block) : (chain : Block) → (i : Nat) → List Block → List BlockResult
  | _, _, [] => []
  | chain, i, p :: ps =>
    let one := encryptOne m E iv chain i p
    one :: encryptBlocks m E iv one.cipher (i + 1) ps

/-- `EncryptMessage` (R178) after its checks and its key schedule, under the schedule held in `W` and `NR`: the
results of the blocks of the padded message. ECB makes no use of the IV (R186). -/
def State.encryptMessage (s : State) (m : Mode) (p : Scheme) : List BlockResult :=
  encryptBlocks m s.encrypt s.iv s.iv 0 (blocksOf (padMessage p s.message))

/-- The ciphertext (R170). -/
def ciphertextOf (rs : List BlockResult) : List Byte := bytesOfBlocks (rs.map fun r => r.cipher)

/-- `ST` after the message (R190): what the last block encryption gave; as it was when there is no block. -/
def lastState (st : Block) (rs : List BlockResult) : Block :=
  match rs.getLast? with
  | none => st
  | some r => r.state

/-- Emit the message's entries, then write `OBUF`, `OLEN` and `ST` (R184). -/
def State.finishMessage (s : State) (rs : List BlockResult) : State :=
  (((s.emitAll (rs.flatMap fun r => r.entries)).setOutput (ciphertextOf rs)).setSt (lastState s.st rs)).succeed

/-- `ENCMSG m, p` (R184): the IV check before the key check (R179, R217), then the key schedule, then the message. -/
def execEncmsg (m : Mode) (p : Scheme) (s : State) : Host.Outcome State Fault Refusal :=
  if m ≠ .ecb ∧ s.ivv = false then .next (s.raise .missingRequiredIv)
  else if s.keyLengthLegal then
    .next (s.runKeySchedule.finishMessage (s.runKeySchedule.encryptMessage m p))
  else .next (s.raise .invalidKeyLength)

end Sys2Proof.Machine
end

