-- ==== Sys2Proof/Machine/Dispatch.lean ====
section
/-! DEFINITION. One meaning per command (spec R75, column "Rule"). -/

namespace Sys2Proof.Machine

def exec (i : Instr) (s : State) : Host.Outcome State Fault Refusal :=
  match i with
  | .gfmul2 => Sys2Proof.Machine.execGfmul2 s
  | .gfmul3 => Sys2Proof.Machine.execGfmul3 s
  | .expandkey => Sys2Proof.Machine.execExpandkey s
  | .encblock => Sys2Proof.Machine.execEncblock s
  | .subbytes => Sys2Proof.Machine.execSubbytes s
  | .shiftrows => Sys2Proof.Machine.execShiftrows s
  | .mixcolumns => Sys2Proof.Machine.execMixcolumns s
  | .addroundkey k => Sys2Proof.Machine.execAddroundkey k s
  | .pad p => Sys2Proof.Machine.execPad p s
  | .unpad p => Sys2Proof.Machine.execUnpad p s
  | .encmsg m p => Sys2Proof.Machine.execEncmsg m p s

end Sys2Proof.Machine
end

