-- ==== Sys2Proof/Machine/HostPort.lean ====
section
/-! DEFINITION. The host port: what a host read, a host write and a reset do (spec R50 to R58, R235), and a write
of a command word to `CMD` (R31). -/

namespace Sys2Proof.Machine

/-- What a host access to the `REG` space reaches (R51), with the index of the first byte in a byte array. -/
inductive RegTarget where
  | key (j : Nat)
  | klen
  | ctrl
  | nr
  | err
  | cmd
  | iv (j : Nat)
  | st (j : Nat)
  | ilen
  | olen
  | w (j : Nat)
  deriving DecidableEq, Repr

/-- Does an access of `n` bytes touch a reserved or unmapped offset: `0x026`-`0x02F`, `0x058`-`0x0FF`, above
`0x1EF` (R51, R57)? -/
def touchesUnmapped (off n : Nat) : Bool :=
  decide (off < 0x030 ∧ 0x026 < off + n) || decide (off < 0x100 ∧ 0x058 < off + n) || decide (0x1F0 < off + n)

/-- Does an access of `n` bytes touch `CMD`, `ILEN` or `OLEN` (R51)? -/
def touchesWide (off n : Nat) : Bool :=
  decide (off < 0x026 ∧ 0x024 < off + n) || decide (off < 0x058 ∧ 0x050 < off + n)

/-- Why an access that reaches no target has no meaning (R55, R57, U6; log entry 7). -/
def regRefusal (off n : Nat) : Refusal :=
  if touchesUnmapped off n then .unmappedOffset
  else if touchesWide off n then .partialAccess
  else .mixedAccess

/-- The target of an access of `n` bytes at an offset of `REG` (R51, R54, R55): a byte array at any width within
it, a one-byte register, or `CMD`, `ILEN`, `OLEN` whole. -/
def regTarget (off n : Nat) : Except Refusal RegTarget :=
  if n = 0 then .error .emptyAccess
  else if off + n ≤ 0x020 then .ok (.key off)
  else if off = 0x020 ∧ n = 1 then .ok .klen
  else if off = 0x021 ∧ n = 1 then .ok .ctrl
  else if off = 0x022 ∧ n = 1 then .ok .nr
  else if off = 0x023 ∧ n = 1 then .ok .err
  else if off = 0x024 ∧ n = 2 then .ok .cmd
  else if 0x030 ≤ off ∧ off + n ≤ 0x040 then .ok (.iv (off - 0x030))
  else if 0x040 ≤ off ∧ off + n ≤ 0x050 then .ok (.st (off - 0x040))
  else if off = 0x050 ∧ n = 4 then .ok .ilen
  else if off = 0x054 ∧ n = 4 then .ok .olen
  else if 0x100 ≤ off ∧ off + n ≤ 0x1F0 then .ok (.w (off - 0x100))
  else .error (regRefusal off n)

/-- Run a command word (R31): a legal word runs its command, any other raises `IllegalCommand` with no other
effect (R77). -/
def runWord (hi lo : Byte) (s : State) : Host.Outcome State Fault Refusal :=
  match decodeBytes hi lo with
  | .ok i => exec i s
  | .error _ => .next (s.raise .illegalCommand)

/-- A host write of `ILEN` (R58): a value above `IBUF_CAP` is refused with `ERR <- 5`. -/
def State.writeIlen (s : State) (v : BitVec 32) : State :=
  if v.toNat ≤ s.ibufCap then s.setIlen v else s.raise .illegalCommand

/-- A host write to a target of `REG`; `NR`, `ERR`, `OLEN` and `W` are read only and ignore it (R57). -/
def writeTarget (t : RegTarget) (bs : List Byte) (s : State) : Host.Outcome State Fault Refusal :=
  match t with
  | .key j => .next (s.setKey (writeBytes s.key j bs))
  | .klen => .next (s.setKlen (bs.getD 0 0#8))
  | .ctrl => .next (s.setCtrl (bs.getD 0 0#8))
  | .nr => .next s
  | .err => .next s
  | .cmd => runWord (bs.getD 0 0#8) (bs.getD 1 0#8) s
  | .iv j => .next (s.setIv (writeBytes s.iv j bs))
  | .st j => .next (s.setSt (writeBytes s.st j bs))
  | .ilen => .next (s.writeIlen (BitVec.ofNat 32 (natOfBytes bs)))
  | .olen => .next s
  | .w _ => .next s

/-- What a host read of `n` bytes of a target of `REG` gives; `CMD` reads 0 (R57). -/
def readTarget (t : RegTarget) (n : Nat) (s : State) : List Byte :=
  match t with
  | .key j => readBytes s.key j n
  | .klen => [s.klen]
  | .ctrl => [s.ctrlRead]
  | .nr => [s.nr]
  | .err => [s.err]
  | .cmd => [0#8, 0#8]
  | .iv j => readBytes s.iv j n
  | .st j => readBytes s.st j n
  | .ilen => bytesOfNat 4 s.ilen.toNat
  | .olen => bytesOfNat 4 s.olen.toNat
  | .w j => readBytes s.w j n

/-- The bytes a host can reach in a buffer space (R50). -/
def State.capacity (s : State) : Space → Nat
  | .reg => 0x1F0
  | .ibuf => s.ibufCap
  | .obuf => Config.obufCap s.ibufCap

/-- Why an access of `n` bytes to a buffer space has no meaning, if it has none (R57, U6). -/
def bufferRefusal (cap off n : Nat) : Option Refusal :=
  if n = 0 then some .emptyAccess
  else if cap < off + n then some .beyondBuffer
  else none

/-- A host write (`MemWrite`, R13). `OBUF` is read only and ignores it (R57). -/
def hostWrite (sp : Space) (off : Nat) (bs : List Byte) (s : State) : Host.Outcome State Fault Refusal :=
  match sp with
  | .reg =>
    match regTarget off bs.length with
    | .ok t => writeTarget t bs s
    | .error r => .refused r
  | .ibuf =>
    match bufferRefusal (s.capacity .ibuf) off bs.length with
    | none => .next (s.setIbuf off bs)
    | some r => .refused r
  | .obuf =>
    match bufferRefusal (s.capacity .obuf) off bs.length with
    | none => .next s
    | some r => .refused r

/-- A host read (`MemRead`, R13): no side effect in the engine (R56); the bytes go to the host. -/
def hostRead (sp : Space) (off n : Nat) (s : State) : Host.Outcome State Fault Refusal :=
  match sp with
  | .reg =>
    match regTarget off n with
    | .ok t => .next (s.setRdata (readTarget t n s))
    | .error r => .refused r
  | .ibuf =>
    match bufferRefusal (s.capacity .ibuf) off n with
    | none => .next (s.setRdata (s.ibuf.readRange off n))
    | some r => .refused r
  | .obuf =>
    match bufferRefusal (s.capacity .obuf) off n with
    | none => .next (s.setRdata (s.obuf.readRange off n))
    | some r => .refused r

/-- One action of the world outside. -/
def perform (a : HostAction) (s : State) : Host.Outcome State Fault Refusal :=
  match a with
  | .write sp off bs => hostWrite sp off bs s
  | .read sp off n => hostRead sp off n s
  | .reset d => .next (s.resetWith d)

/-- Take the oldest action that is still to come (R60: one total order); with none the engine is idle and keeps
all state (R231). -/
def serve (s : State) : Host.Outcome State Fault Refusal :=
  match s.host with
  | [] => .next s
  | a :: rest => perform a (s.setHost rest)

/-- The host access that runs a command word: one 16-bit write at offset `0x024` (R31, R55). -/
def commandWrite (w : CmdWord) : HostAction := .write .reg 0x024 (bytesOfWord w)

end Sys2Proof.Machine
end

