-- ==== Sys2Proof/Machine/Step.lean ====
section
/-! DEFINITION. One step of the machine: the next host access, and with a write to `CMD` the whole command it
names (spec R6, R31, R60; log entry 1). -/

namespace Sys2Proof.Machine

/-- One step. -/
def step (s : State) : Host.Outcome State Fault Refusal := serve s

/-- The state whose very next step runs a command word: the host's next access is the write of that word to
`CMD` (log entry 2). -/
def State.withFetchWord (s : State) (nbits w : Nat) : State :=
  s.setHost (commandWrite (BitVec.ofNat 16 (w % 2 ^ nbits)) :: s.host)

end Sys2Proof.Machine
end

