-- ==== Sys2Proof/Safety.lean ====
section
/-! DEFINITION. The terms the claims are stated in: the invariant of the machine, what an instruction leaves
unchanged, runs of several commands or host actions, and the spec's own independent descriptions that claims
compare the model with. No definition of the machine uses this file. -/

namespace Sys2Proof.Machine

/-! ### The invariant -/

/-- What holds of every state a run reaches: the capacity is legal (R9); the buffers are in canonical form and
within their spaces (R50); `ILEN <= IBUF_CAP` (R28) and `OLEN <= OBUF_CAP` (R29); `NR` is 0, 10, 12 or 14 (R25);
bits 7:2 of `CTRL` are 0 (R32); `ERR` is 0, 1, 2, 3 or 5, never 4 and never above 5 (R211, R137). -/
abbrev State.Inv (s : State) : Prop :=
  Config.legalCapacity s.ibufCap = true
  ∧ s.ibuf.wf = true ∧ s.ibuf.below s.ibufCap = true
  ∧ s.obuf.wf = true ∧ s.obuf.below (Config.obufCap s.ibufCap) = true
  ∧ s.ilen.toNat ≤ s.ibufCap ∧ s.olen.toNat ≤ Config.obufCap s.ibufCap
  ∧ (s.nr = 0#8 ∨ s.nr = 10#8 ∨ s.nr = 12#8 ∨ s.nr = 14#8)
  ∧ s.ctrl &&& 0xFC#8 = 0#8
  ∧ (s.err = 0#8 ∨ s.err = 1#8 ∨ s.err = 2#8 ∨ s.err = 3#8 ∨ s.err = 5#8)

/-! ### Frames: what stays -/

/-- `KEY` and `KLEN` stay. -/
abbrev KeyKept (s t : State) : Prop := t.key = s.key ∧ t.klen = s.klen

/-- `W` and `NR` stay. -/
abbrev ScheduleKept (s t : State) : Prop := t.w = s.w ∧ t.nr = s.nr

/-- `IV` and `CTRL` stay. -/
abbrev ControlKept (s t : State) : Prop := t.iv = s.iv ∧ t.ctrl = s.ctrl

/-- Every byte of `IBUF` reads as before, and `ILEN` stays. -/
abbrev InputKept (s t : State) : Prop := (∀ a, t.ibuf.read a = s.ibuf.read a) ∧ t.ilen = s.ilen

/-- Every byte of `OBUF` reads as before, and `OLEN` stays. -/
abbrev OutputKept (s t : State) : Prop := (∀ a, t.obuf.read a = s.obuf.read a) ∧ t.olen = s.olen

/-- The fields that are the model's own stay. -/
abbrev OutsideKept (s t : State) : Prop := t.ibufCap = s.ibufCap ∧ t.host = s.host ∧ t.rdata = s.rdata

/-- What no command writes (R37): the key, the IV, the control register, the input, and what is outside. -/
abbrev InputsKept (s t : State) : Prop := KeyKept s t ∧ ControlKept s t ∧ InputKept s t ∧ OutsideKept s t

/-- Exactly the bytes `bs` were stored, at `OBUF[0..n)` with `n` their number: each reads back, every byte of
`OBUF` from `n` up reads as before, and `OLEN` is `n`. -/
abbrev OutputIs (s t : State) (bs : List Byte) : Prop :=
  (∀ a, a < bs.length → t.obuf.read a = bs.getD a 0#8)
  ∧ (∀ a, bs.length ≤ a → t.obuf.read a = s.obuf.read a)
  ∧ t.olen = BitVec.ofNat 32 bs.length

/-- The entries were appended to `TRACE` when `CTRL.TREN = 1`, nothing when it is 0 (R198). -/
abbrev Emitted (s t : State) (es : List TraceEntry) : Prop :=
  t.trace = s.trace ++ (if s.tren then es else [])

/-! ### Runs -/

/-- Commands one after another, each on the state the one before leaves. -/
def runCommands : List Instr → State → Host.Outcome State Fault Refusal
  | [], s => .next s
  | i :: is, s =>
    match exec i s with
    | .next t => runCommands is t
    | .fault f => .fault f
    | .refused r => .refused r

/-- Actions of the world outside one after another. -/
def performAll : List HostAction → State → Host.Outcome State Fault Refusal
  | [], s => .next s
  | a :: as, s =>
    match perform a s with
    | .next t => performAll as t
    | .fault f => .fault f
    | .refused r => .refused r

/-- One write per byte, in ascending offset order (R54). -/
def byteWrites (sp : Space) (off : Nat) : List Byte → List HostAction
  | [] => []
  | b :: bs => .write sp off [b] :: byteWrites sp (off + 1) bs

/-- The commands of rounds `r`, `r + 1`, ... that are not the last, `n` of them (R147). -/
def manualRounds : (n r : Nat) → List Instr
  | 0, _ => []
  | n + 1, r => [.subbytes, .shiftrows, .mixcolumns, .addroundkey r] ++ manualRounds n (r + 1)

/-- The command sequence of R147 for a schedule of `nr` rounds. -/
def manualEncryption (nr : Nat) : List Instr :=
  [.addroundkey 0] ++ manualRounds (nr - 1) 1 ++ [.subbytes, .shiftrows, .addroundkey nr]

/-! ### The spec's words that claims compare the model with -/

/-- The word is illegal by R77: one of its five cases holds. -/
abbrev IllegalByR77 (w : CmdWord) : Prop :=
  let op := w.extractLsb' 0 8
  let mode := w.extractLsb' 8 2
  let pad := w.extractLsb' 10 2
  let rk := w.extractLsb' 12 4
  op ∉ [0x01#8, 0x02#8, 0x10#8, 0x20#8, 0x21#8, 0x22#8, 0x23#8, 0x24#8, 0x30#8, 0x31#8, 0x40#8]
  ∨ (op ∈ [0x01#8, 0x02#8, 0x10#8, 0x20#8, 0x21#8, 0x22#8, 0x23#8] ∧ w.extractLsb' 8 8 ≠ 0#8)
  ∨ (op = 0x24#8 ∧ w.extractLsb' 8 4 ≠ 0#4)
  ∨ (op ∈ [0x30#8, 0x31#8] ∧ (rk ≠ 0#4 ∨ mode ≠ 0#2))
  ∨ (op = 0x40#8 ∧ rk ≠ 0#4)
  ∨ (op = 0x40#8 ∧ mode = 3#2)
  ∨ (op ∈ [0x30#8, 0x31#8, 0x40#8] ∧ pad = 3#2)
  ∨ (op = 0x31#8 ∧ pad = 0#2)

/-- The product of two polynomials over GF(2), held as numbers, the second of degree at most 7 (R90). -/
def polyMul (a b : Nat) : Nat :=
  (List.range 8).foldl (fun acc i => if b.testBit i then acc ^^^ (a <<< i) else acc) 0

/-- The remainder of a polynomial of degree at most 14 modulo `x^8 + x^4 + x^3 + x + 1` (R90: `0x11b`). -/
def polyMod (v : Nat) : Nat :=
  [14, 13, 12, 11, 10, 9, 8].foldl (fun v k => if v.testBit k then v ^^^ (0x11b <<< (k - 8)) else v) v

/-- The error codes a command can end with (R218), success included. -/
def possibleErrors : Instr → List Byte
  | .gfmul2 | .gfmul3 | .subbytes | .shiftrows | .mixcolumns => [0#8]
  | .expandkey => [0#8, 1#8]
  | .encblock => [0#8, 5#8]
  | .addroundkey _ => [0#8, 5#8]
  | .pad _ => [0#8]
  | .unpad .none => [5#8]
  | .unpad _ => [0#8, 3#8]
  | .encmsg .ecb _ => [0#8, 1#8]
  | .encmsg _ _ => [0#8, 1#8, 2#8]

/-- Block `i` of the output buffer, `OBUF[16i..16i+16)` (R170). -/
def outBlock (s : State) (i : Nat) : Block := blockOfList (s.obuf.readRange (16 * i) 16)

/-- Block `i` of the message padded by a scheme (R170). -/
def plainBlock (p : Scheme) (s : State) (i : Nat) : Block := blockAt (padMessage p s.message) i

/-- The number of blocks of the message padded by a scheme (R170). -/
def blockNumber (p : Scheme) (s : State) : Nat := (padMessage p s.message).length / 16

/-- How many trace entries a successful command emits when `TREN = 1` (R203), from the state before and the state
after it: `NR` after it is the number of rounds of the schedule it used. -/
def traceCount (s t : State) : Instr → Nat
  | .gfmul2 | .gfmul3 | .expandkey | .pad _ | .unpad _ => 0
  | .encblock => 4 * t.nr.toNat
  | .subbytes | .shiftrows | .mixcolumns | .addroundkey _ => 1
  | .encmsg .ecb p => 4 * t.nr.toNat * blockNumber p s
  | .encmsg _ p => (4 * t.nr.toNat + 1) * blockNumber p s

/-- The preconditions of `ENCMSG` (R184): an IV for CBC and CTR, a legal key length. -/
abbrev CanEncrypt (m : Mode) (s : State) : Prop := (m = .ecb ∨ s.ivv = true) ∧ s.keyLengthLegal = true

end Sys2Proof.Machine
end

