-- ==== Sys2Proof/Certificates/Slice0/Obligations.lean ====
section
/-! DEFINITION. The statements for the provers: what the numbered rules of the spec say the engine does. -/

open Sys2Proof Sys2Proof.Machine

/-! ### Command words -/

/-- R75 (columns `match`, `mask`, `word(s)`), R76: for every well-formed command and every value of its operands,
the decoder reads its word back as the command, the word satisfies the command's match and mask, and laid out as
the two bytes of `CMD` it is the same word. -/
def Obligations.DecodeOfEncodeIsTheCommand : Prop :=
  ∀ i : Instr, i.wellFormed = true →
    decode (encode i) = .ok i ∧ encode i &&& tableMask i = tableMatch i
    ∧ ∃ hi lo, bytesOfWord (encode i) = [hi, lo] ∧ decodeBytes hi lo = .ok i

/-- R76: every 16-bit word is illegal by R77 and no command's word, or is legal and the word of exactly one
well-formed command, the one the decoder reads. -/
def Obligations.EveryWordIsOneCommandOrIllegal : Prop :=
  ∀ w : CmdWord,
    (IllegalByR77 w ∧ ∀ i : Instr, i.wellFormed = true → encode i ≠ w)
    ∨ (¬ IllegalByR77 w ∧ ∃ i : Instr, i.wellFormed = true ∧ encode i = w ∧ decode w = .ok i
        ∧ ∀ j : Instr, j.wellFormed = true → encode j = w → j = i)

/-- R77: writing an illegal word to `CMD` sets `ERR` to 5 and changes nothing else; the two cases that depend on
state end the same way. -/
def Obligations.IllegalCommandOnlySetsErrFive : Prop :=
  (∀ (s : State) (w : CmdWord) (rest : List HostAction), s.host = commandWrite w :: rest → IllegalByR77 w →
    step s = .next { s with host := rest, err := 5#8 })
  ∧ (∀ s : State, s.nr = 0#8 → exec .encblock s = .next { s with err := 5#8 })
  ∧ (∀ (s : State) (k : Nat), s.nr = 0#8 ∨ s.nr.toNat < k → exec (.addroundkey k) s = .next { s with err := 5#8 })

/-- R79: the example words decode to the commands the spec writes beside them, and these print as it writes them. -/
def Obligations.ExampleWordsDecodeAsTheSpecSays : Prop :=
  ([(0x0440, "ENCMSG ECB, PKCS"), (0x0540, "ENCMSG CBC, PKCS"), (0x0240, "ENCMSG CTR, NONE"),
    (0x0A40, "ENCMSG CTR, ANSI"), (0x0024, "ADDROUNDKEY 0"), (0xA024, "ADDROUNDKEY 10"), (0x0030, "PAD NONE"),
    (0x0430, "PAD PKCS"), (0x0830, "PAD ANSI"), (0x0431, "UNPAD PKCS"), (0x0831, "UNPAD ANSI")] : List (CmdWord × String)).map
      (fun e => (decode e.1).toOption.map assembly == some e.2) = List.replicate 11 true
  ∧ ([0x0440, 0x0540, 0x0240, 0x0A40, 0x0024, 0xA024, 0x0030, 0x0430, 0x0830, 0x0431, 0x0831] : List CmdWord).map decode
      = [.ok (.encmsg .ecb .pkcs), .ok (.encmsg .cbc .pkcs), .ok (.encmsg .ctr .none), .ok (.encmsg .ctr .ansi),
         .ok (.addroundkey 0), .ok (.addroundkey 10), .ok (.pad .none), .ok (.pad .pkcs), .ok (.pad .ansi),
         .ok (.unpad .pkcs), .ok (.unpad .ansi)]

/-! ### One step -/

/-- R31: a host write of a 16-bit value to `CMD` executes that value as a command word to completion, before the
host's next access (the illegal word too: it raises error 5); a read of `CMD` gives 0 and has no effect. R231: with
nothing coming from the host the engine is idle and keeps all state. -/
def Obligations.StepRunsTheCommandWrittenToCmd : Prop :=
  (∀ (s : State) (w : CmdWord) (rest : List HostAction) (i : Instr), s.host = commandWrite w :: rest → decode w = .ok i →
    step s = exec i { s with host := rest })
  ∧ (∀ (s : State) (w : CmdWord) (rest : List HostAction) (e : IllegalWord), s.host = commandWrite w :: rest →
      decode w = .error e → step s = .next { s with host := rest, err := 5#8 })
  ∧ (∀ (s : State) (rest : List HostAction), s.host = .read .reg 0x024 2 :: rest →
      step s = .next { s with host := rest, rdata := [0#8, 0#8] })
  ∧ ∀ s : State, s.host = [] → step s = .next s

/-- The model's own (log entry 2): what `withFetchWord` places is the write of the word to `CMD` that the very next step
serves, and it changes nothing else, so that step runs the command of the word. -/
def Obligations.WithFetchWordRunsTheWordNext : Prop :=
  (∀ (s : State) (w : CmdWord), s.withFetchWord 16 w.toNat = { s with host := commandWrite w :: s.host })
  ∧ ∀ (s : State) (i : Instr), i.wellFormed = true → step (s.withFetchWord 16 (encode i).toNat) = exec i s

/-! ### Reset and the invariant -/

/-- R39: after a reset, whatever the unspecified arrays then hold, the scalar registers are 0 and `TRACE` is empty,
the input and the output are empty, and no command consumes an unwritten byte of `W`: `ENCBLOCK` and `ADDROUNDKEY`
are blocked. -/
def Obligations.ResetLeavesTheScalarsZero : Prop :=
  (∀ (s : State) (d : ResetDraw) (rest : List HostAction), s.host = .reset d :: rest →
    ∃ t, step s = .next t
      ∧ t.klen = 0#8 ∧ t.nr = 0#8 ∧ t.ctrl = 0#8 ∧ t.ivv = false ∧ t.tren = false ∧ t.ilen = 0#32 ∧ t.olen = 0#32
      ∧ t.err = 0#8 ∧ t.trace = []
      ∧ t.message = [] ∧ t.output = []
      ∧ exec .encblock t = .next { t with err := 5#8 }
      ∧ ∀ k, exec (.addroundkey k) t = .next { t with err := 5#8 })
  ∧ State.reset.klen = 0#8 ∧ State.reset.nr = 0#8 ∧ State.reset.ctrl = 0#8 ∧ State.reset.ilen = 0#32
  ∧ State.reset.olen = 0#32 ∧ State.reset.err = 0#8 ∧ State.reset.trace = []

/-- The invariant holds after every reset of an instance of legal capacity, and of `State.reset` (whose capacity 64
is the model's choice, log entry 3). The arrays that R236 leaves unspecified hold what the reset's draw says, any bytes
(the model's form of R236, log entry 6). -/
def Obligations.ResetStatesMeetTheInvariant : Prop :=
  State.reset.Inv
  ∧ ∀ (s : State) (d : ResetDraw), Config.legalCapacity s.ibufCap = true →
      (s.resetWith d).Inv
      ∧ (s.resetWith d).key = d.key ∧ (s.resetWith d).w = d.w ∧ (s.resetWith d).st = d.st ∧ (s.resetWith d).iv = d.iv
      ∧ (∀ a, a < s.ibufCap → (s.resetWith d).ibuf.read a = d.ibuf.getD a 0#8)
      ∧ (∀ a, a < s.ibufCap + 16 → (s.resetWith d).obuf.read a = d.obuf.getD a 0#8)
      ∧ OutsideKept s (s.resetWith d)

/-- Every step keeps the invariant, whatever the host does: the buffers stay canonical and within their capacity,
`ILEN <= IBUF_CAP`, `OLEN <= OBUF_CAP`, `NR` stays 0, 10, 12 or 14, bits 7:2 of `CTRL` stay 0, `ERR` stays one of
the codes that are produced. -/
def Obligations.EveryStepKeepsTheInvariant : Prop :=
  ∀ s t : State, s.Inv → step s = .next t → t.Inv

/-! ### Field arithmetic -/

/-- R91, R92, R93: `Mul2` and `Mul3` are the products by `x` and `x + 1` modulo `x^8 + x^4 + x^3 + x + 1`, computed as
the rules' pseudocode says, and the printed tables are these two functions. -/
def Obligations.MulTwoAndThreeAreFieldProducts : Prop :=
  ∀ b : Byte,
    (mul2 b).toNat = polyMod (polyMul b.toNat 2) ∧ (mul3 b).toNat = polyMod (polyMul b.toNat 3)
    ∧ mul2 b = (if b.getLsbD 7 then (b <<< 1) ^^^ 0x1b#8 else b <<< 1) ∧ mul3 b = mul2 b ^^^ b
    ∧ tableAt mul2Rows b = mul2 b ∧ tableAt mul3Rows b = mul3 b

/-- R94, its seven laws. -/
def Obligations.FieldMultiplicationLaws : Prop :=
  mul2 0x00#8 = 0x00#8 ∧ mul3 0x00#8 = 0x00#8
  ∧ mul2 0x01#8 = 0x02#8 ∧ mul3 0x01#8 = 0x03#8
  ∧ mul2 0x80#8 = 0x1b#8 ∧ mul3 0x80#8 = 0x9b#8
  ∧ mul2 0xff#8 = 0xe5#8 ∧ mul3 0xff#8 = 0x1a#8
  ∧ (∀ a b, mul2 (a ^^^ b) = mul2 a ^^^ mul2 b ∧ mul3 (a ^^^ b) = mul3 a ^^^ mul3 b)
  ∧ Function.Bijective mul2 ∧ Function.Bijective mul3
  ∧ ∀ b, mul2 b ^^^ mul3 b = b

/-- R96, R97: `GFMUL2` and `GFMUL3` complete in every state; every lane of `ST` is multiplied by 2, or by 3, `ERR` is
0, nothing is traced and nothing else changes. -/
def Obligations.GfmulMultipliesEveryLane : Prop :=
  decode 0x0001 = .ok .gfmul2 ∧ decode 0x0002 = .ok .gfmul3
  ∧ (∀ s : State, ∃ t, exec .gfmul2 s = .next t
      ∧ (∀ i : Fin 16, t.st[i] = mul2 s.st[i]) ∧ t.err = 0#8 ∧ t.trace = s.trace
      ∧ InputsKept s t ∧ ScheduleKept s t ∧ OutputKept s t)
  ∧ ∀ s : State, ∃ t, exec .gfmul3 s = .next t
      ∧ (∀ i : Fin 16, t.st[i] = mul3 s.st[i]) ∧ t.err = 0#8 ∧ t.trace = s.trace
      ∧ InputsKept s t ∧ ScheduleKept s t ∧ OutputKept s t

/-! ### Tables and word functions -/

/-- R102, R103: every entry of the printed table is the affine map of the field inverse of its index (0 for 0); `SBox`
is a bijection without fixed or opposite fixed points, and not linear. -/
def Obligations.SboxIsAffineOfTheInverseAndBijective : Prop :=
  (∀ b : Byte, ∃ v : Byte, (b = 0#8 ∧ v = 0#8 ∨ b ≠ 0#8 ∧ fieldMul b v = 1#8)
    ∧ sbox b = v ^^^ v.rotateLeft 1 ^^^ v.rotateLeft 2 ^^^ v.rotateLeft 3 ^^^ v.rotateLeft 4 ^^^ 0x63#8)
  ∧ Function.Bijective sbox ∧ (∀ b, sbox b ≠ b ∧ sbox b ≠ b ^^^ 0xff#8) ∧ ∃ a b, sbox (a ^^^ b) ≠ sbox a ^^^ sbox b

/-- R104, R105, R106: the round constants and their generating rule, `SubWord`, `RotWord`, with the examples. -/
def Obligations.WordFunctionsOfTheKeySchedule : Prop :=
  (List.range 10).map (fun j => rcon (j + 1))
    = [0x01#8, 0x02#8, 0x04#8, 0x08#8, 0x10#8, 0x20#8, 0x40#8, 0x80#8, 0x1b#8, 0x36#8]
  ∧ (∀ j, 1 ≤ j → j < 10 → rcon (j + 1) = mul2 (rcon j))
  ∧ (∀ t : KWord, subWord t = #v[sbox t[0], sbox t[1], sbox t[2], sbox t[3]])
  ∧ (∀ t : KWord, rotWord t = #v[t[1], t[2], t[3], t[0]])
  ∧ (∀ t : KWord, subWord (rotWord t) = rotWord (subWord t))
  ∧ rotWord #v[0x09#8, 0xcf#8, 0x4f#8, 0x3c#8] = #v[0xcf#8, 0x4f#8, 0x3c#8, 0x09#8]
  ∧ subWord #v[0xcf#8, 0x4f#8, 0x3c#8, 0x09#8] = #v[0x8a#8, 0x84#8, 0xeb#8, 0x01#8]

/-! ### The key schedule -/

/-- R112: `KeyExpansion` of a key of 16, 24 or 32 bytes: the words `w[0..totalWords)` it is made of are the raw key
words, then each `w[i]` is `w[i-Nk] xor temp` as the rule says, and round key `k` is words `4k` to `4k+3`. -/
def Obligations.KeyExpansionFollowsTheRecurrence : Prop :=
  ∀ key : List Byte, key.length ∈ [16, 24, 32] →
    let nk := key.length / 4
    let nr := nk + 6
    ∃ w : Nat → KWord,
      (∀ i, i < nk → w i = #v[key.getD (4 * i) 0#8, key.getD (4 * i + 1) 0#8, key.getD (4 * i + 2) 0#8, key.getD (4 * i + 3) 0#8])
      ∧ (∀ i, nk ≤ i → i < 4 * (nr + 1) →
          w i = xorBytes (w (i - nk))
            (if i % nk = 0 then xorBytes (subWord (rotWord (w (i - 1)))) #v[rcon (i / nk), 0#8, 0#8, 0#8]
             else if 6 < nk ∧ i % nk = 4 then subWord (w (i - 1))
             else w (i - 1)))
      ∧ keyExpansion key = (List.range (nr + 1)).map fun k =>
          blockOfList ((w (4 * k)).toList ++ (w (4 * k + 1)).toList ++ (w (4 * k + 2)).toList ++ (w (4 * k + 3)).toList)

/-- R115: `rounds + 1` round keys; `RK[0]` is the first 16 key bytes, and the rest of a longer key starts `RK[1]`. -/
def Obligations.FirstRoundKeysAreTheRawKey : Prop :=
  ∀ key : List Byte, key.length ∈ [16, 24, 32] →
    (keyExpansion key).length = key.length / 4 + 6 + 1
    ∧ ((keyExpansion key).getD 0 (zeros 16)).toList = key.take 16
    ∧ (key.length = 24 → (((keyExpansion key).getD 1 (zeros 16)).toList).take 8 = key.drop 16)
    ∧ (key.length = 32 → ((keyExpansion key).getD 1 (zeros 16)).toList = key.drop 16)

/-- R118: `EXPANDKEY`. With a legal `KLEN` it completes: `RK[0..Nr]` and `NR` are the key's schedule, the bytes of
`W` above stay, `ERR` is 0; with any other `KLEN` it sets `ERR` to 1. Nothing is traced and nothing else changes; running it
twice gives the same state as once. -/
def Obligations.ExpandkeyWritesTheSchedule : Prop :=
  decode 0x0010 = .ok .expandkey
  ∧ (∀ s : State, s.klen.toNat ∈ [16, 24, 32] → ∃ t, exec .expandkey s = .next t
      ∧ (∀ k, k ≤ s.klen.toNat / 4 + 6 →
          t.roundKey k = (keyExpansion (s.key.toList.take s.klen.toNat)).getD k (zeros 16))
      ∧ (∀ j : Fin 240, 16 * (s.klen.toNat / 4 + 6 + 1) ≤ j.val → t.w[j] = s.w[j])
      ∧ t.nr.toNat = s.klen.toNat / 4 + 6 ∧ t.err = 0#8
      ∧ t.st = s.st ∧ t.trace = s.trace ∧ InputsKept s t ∧ OutputKept s t)
  ∧ (∀ s : State, s.klen.toNat ∉ [16, 24, 32] → exec .expandkey s = .next { s with err := 1#8 })
  ∧ ∀ s t : State, exec .expandkey s = .next t → exec .expandkey t = .next t

/-- R116: the schedule of a key does not depend on the `W` and `NR` that were there before. -/
def Obligations.ExpandkeyDoesNotReadTheOldSchedule : Prop :=
  ∀ (s : State) (w : Bytes 240) (n : Byte), s.klen.toNat ∈ [16, 24, 32] →
    ∃ t u, exec .expandkey s = .next t ∧ exec .expandkey { s with w := w, nr := n } = .next u
      ∧ u.nr = t.nr ∧ ∀ k, k ≤ t.nr.toNat → u.roundKey k = t.roundKey k

/-- R21: bytes `KEY[KLEN..32)` are ignored by every command: changing them changes nothing but themselves. -/
def Obligations.KeyBytesBeyondKlenAreIgnored : Prop :=
  ∀ (i : Instr) (s t : State) (key : Bytes 32), key.toList.take s.klen.toNat = s.key.toList.take s.klen.toNat →
    exec i s = .next t → exec i { s with key := key } = .next { t with key := key }

/-! ### The round transform -/

/-- R142: `SUBBYTES` completes in every state. -/
def Obligations.SubbytesSubstitutesEveryLane : Prop :=
  decode 0x0021 = .ok .subbytes
  ∧ ∀ s : State, ∃ t, exec .subbytes s = .next t
      ∧ (∀ i : Fin 16, t.st[i] = sbox s.st[i]) ∧ t.err = 0#8
      ∧ Emitted s t [⟨.subBytes, t.st, s.st, none⟩] ∧ InputsKept s t ∧ ScheduleKept s t ∧ OutputKept s t

/-- R143 (and the index rules R127, R128): `SHIFTROWS` completes in every state. A State of four equal columns is
unchanged, and four applications restore the State. -/
def Obligations.ShiftrowsRotatesTheRows : Prop :=
  decode 0x0022 = .ok .shiftrows
  ∧ (List.range 16).map shiftRowsSource = [0, 5, 10, 15, 4, 9, 14, 3, 8, 13, 2, 7, 12, 1, 6, 11]
  ∧ ∀ s : State, ∃ t, exec .shiftrows s = .next t
      ∧ (∀ r c : Fin 4, t.st[r.val + 4 * c.val]'(by omega) = s.st[r.val + 4 * ((c.val + r.val) % 4)]'(by omega))
      ∧ t.err = 0#8 ∧ Emitted s t [⟨.shiftRows, t.st, s.st, none⟩]
      ∧ InputsKept s t ∧ ScheduleKept s t ∧ OutputKept s t
      ∧ ((∀ i : Fin 16, s.st[i] = s.st[i.val % 4]'(by omega)) → t.st = s.st)
      ∧ ∃ u, runCommands [.shiftrows, .shiftrows, .shiftrows] t = .next u ∧ u.st = s.st

/-- R144 (with the column formula of R129): `MIXCOLUMNS` completes in every state. -/
def Obligations.MixcolumnsMixesEveryColumn : Prop :=
  decode 0x0023 = .ok .mixcolumns
  ∧ ∀ s : State, ∃ t, exec .mixcolumns s = .next t
      ∧ (∀ c : Fin 4,
          let s0 := s.st[4 * c.val]'(by omega); let s1 := s.st[4 * c.val + 1]'(by omega)
          let s2 := s.st[4 * c.val + 2]'(by omega); let s3 := s.st[4 * c.val + 3]'(by omega)
          t.st[4 * c.val]'(by omega) = mul2 s0 ^^^ mul3 s1 ^^^ s2 ^^^ s3
          ∧ t.st[4 * c.val + 1]'(by omega) = s0 ^^^ mul2 s1 ^^^ mul3 s2 ^^^ s3
          ∧ t.st[4 * c.val + 2]'(by omega) = s0 ^^^ s1 ^^^ mul2 s2 ^^^ mul3 s3
          ∧ t.st[4 * c.val + 3]'(by omega) = mul3 s0 ^^^ s1 ^^^ s2 ^^^ mul2 s3)
      ∧ t.err = 0#8 ∧ Emitted s t [⟨.mixColumns, t.st, s.st, none⟩]
      ∧ InputsKept s t ∧ ScheduleKept s t ∧ OutputKept s t

/-- R146: `ADDROUNDKEY k` completes when a schedule exists and has a round key `k`: `ST` is XORed with `RK[k]`;
otherwise it sets `ERR` to 5 and nothing else. The same `ADDROUNDKEY k` again restores `ST`. -/
def Obligations.AddroundkeyXorsTheRoundKey : Prop :=
  (∀ k, k < 16 → decode (0x0024 + 0x1000 * BitVec.ofNat 16 k) = .ok (.addroundkey k))
  ∧ (∀ (s : State) (k : Nat), s.nr ≠ 0#8 → k ≤ s.nr.toNat → ∃ t, exec (.addroundkey k) s = .next t
      ∧ (∀ i : Fin 16, t.st[i] = s.st[i] ^^^ (s.roundKey k)[i]) ∧ t.err = 0#8
      ∧ Emitted s t [⟨.addRoundKey, t.st, s.st, some (s.roundKey k)⟩]
      ∧ InputsKept s t ∧ ScheduleKept s t ∧ OutputKept s t
      ∧ ∃ u, exec (.addroundkey k) t = .next u ∧ u.st = s.st)
  ∧ ∀ (s : State) (k : Nat), s.nr = 0#8 ∨ s.nr.toNat < k → exec (.addroundkey k) s = .next { s with err := 5#8 }

/-- R141: `ENCBLOCK` completes when a schedule exists: `ST` is the block encryption of `ST` under `RK[0..NR]`, whose
entries are emitted; with `NR = 0` it sets `ERR` to 5 and nothing else. -/
def Obligations.EncblockEncryptsTheState : Prop :=
  decode 0x0020 = .ok .encblock
  ∧ (∀ s : State, s.nr ≠ 0#8 → ∃ t, exec .encblock s = .next t
      ∧ t.st = (encryptBlock s.roundKey s.nr.toNat s.st).state ∧ t.err = 0#8
      ∧ Emitted s t (encryptBlock s.roundKey s.nr.toNat s.st).entries
      ∧ InputsKept s t ∧ ScheduleKept s t ∧ OutputKept s t)
  ∧ ∀ s : State, s.nr = 0#8 → exec .encblock s = .next { s with err := 5#8 }

/-- R147: with a schedule in `W`, the command sequence by hand leaves the very state one `ENCBLOCK` leaves: the same
`ST`, the same trace entries in the same order, and everything else the same. -/
def Obligations.ManualRoundsEqualEncblock : Prop :=
  ∀ s : State, s.nr ≠ 0#8 → runCommands (manualEncryption s.nr.toNat) s = exec .encblock s

/-- R134: how many of each operation a block encryption has, and that it uses every round key once, in ascending
order. -/
def Obligations.BlockEncryptionOperationCounts : Prop :=
  ∀ (rk : Nat → Block) (nr : Nat) (x : Block), 1 ≤ nr →
    let es := (encryptBlock rk nr x).entries
    es.length = 4 * nr
    ∧ es.countP (fun e => e.label == .addRoundKey) = nr + 1
    ∧ es.countP (fun e => e.label == .subBytes) = nr
    ∧ es.countP (fun e => e.label == .shiftRows) = nr
    ∧ es.countP (fun e => e.label == .mixColumns) = nr - 1
    ∧ es.filterMap (fun e => e.key) = (List.range (nr + 1)).map rk

/-- R201, R204 (the part on one block): the entries of a block encryption form a chain from the block to its cipher:
the first consumed the block, each later one consumed what the one before it produced, the last produced the
result; and each operation entry holds the result of its own operation. -/
def Obligations.BlockTraceIsAChain : Prop :=
  ∀ (rk : Nat → Block) (nr : Nat) (x : Block),
    let es := (encryptBlock rk nr x).entries
    (∀ e, es.head? = some e → e.prev = x)
    ∧ (∀ e, es.getLast? = some e → e.state = (encryptBlock rk nr x).state)
    ∧ es ≠ []
    ∧ (∀ (i : Nat) (a b : TraceEntry), es[i]? = some a → es[i + 1]? = some b → b.prev = a.state)
    ∧ ∀ e ∈ es,
        (e.label = .addRoundKey ∧ ∃ k, e.key = some k ∧ e.state = addRoundKey e.prev k)
        ∨ (e.label = .subBytes ∧ e.key = none ∧ e.state = subBytes e.prev)
        ∨ (e.label = .shiftRows ∧ e.key = none ∧ e.state = shiftRows e.prev)
        ∨ (e.label = .mixColumns ∧ e.key = none ∧ e.state = mixColumns e.prev)

/-- R135: (1) `MixColumns` is linear over XOR; (2) a column of four equal bytes is left as it is; (3) each of the four
operations is a bijection on States, and so is `EncryptBlock` with fixed round keys, whatever they are and however many
rounds there are. -/
def Obligations.MixColumnsIsLinearAndEncryptBlockIsBijective : Prop :=
  (∀ a b : Block, mixColumns (xorBytes a b) = xorBytes (mixColumns a) (mixColumns b))
  ∧ (∀ (a : Block) (c : Fin 4) (b : Byte), (∀ r : Fin 4, a[4 * c.val + r.val]'(by omega) = b) →
      ∀ r : Fin 4, (mixColumns a)[4 * c.val + r.val]'(by omega) = b)
  ∧ Function.Bijective subBytes ∧ Function.Bijective shiftRows ∧ Function.Bijective mixColumns
  ∧ (∀ k : Block, Function.Bijective fun x => addRoundKey x k)
  ∧ ∀ (rk : Nat → Block) (nr : Nat), Function.Bijective fun x => (encryptBlock rk nr x).state

/-! ### The padding codec -/

/-- R161 with R151, R152, R154, R155: `PAD p` completes in every state, for each scheme. The output is the message
with the scheme's bytes after it, in the bytes of `OBUF` from 0 up and in no other. -/
def Obligations.PadAppendsTheSchemesBytes : Prop :=
  decode 0x0030 = .ok (.pad .none) ∧ decode 0x0430 = .ok (.pad .pkcs) ∧ decode 0x0830 = .ok (.pad .ansi)
  ∧ ∀ (p : Scheme) (s : State),
      let len := s.ilen.toNat
      let n := 16 - len % 16
      let tail : List Byte := match p with
        | .pkcs => List.replicate n (BitVec.ofNat 8 n)
        | .ansi => List.replicate (n - 1) 0#8 ++ [BitVec.ofNat 8 n]
        | .none => List.replicate ((16 - len % 16) % 16) 0#8
      ∃ t, exec (.pad p) s = .next t
        ∧ OutputIs s t ((List.range len).map (fun j => s.ibuf.read j) ++ tail) ∧ t.err = 0#8
        ∧ t.st = s.st ∧ t.trace = s.trace ∧ InputsKept s t ∧ ScheduleKept s t

/-- R153: the length law of `Pad`, and that the input is a prefix of the output. -/
def Obligations.PaddedLengthIsWholeBlocks : Prop :=
  ∀ (p : Scheme) (b : List Byte),
    (padMessage p b).length % 16 = 0 ∧ b <+: padMessage p b ∧ (padMessage p b).length ≤ b.length + 16
    ∧ (p ≠ .none → (padMessage p b).length = b.length + (16 - b.length % 16)
        ∧ b.length + 1 ≤ (padMessage p b).length)
    ∧ (p = .none → (padMessage p b).length = b.length + (16 - b.length % 16) % 16
        ∧ (padMessage p b).length ≤ b.length + 15)

/-- R162 with R157, R158: `UNPAD p`. Scheme None sets `ERR` to 5; an empty message or a last byte out of range sets it
to 3; otherwise it completes, with the message less its last `n` bytes as the output, for both schemes alike and
whatever the other bytes hold. -/
def Obligations.UnpadCutsByTheLastByte : Prop :=
  decode 0x0431 = .ok (.unpad .pkcs) ∧ decode 0x0831 = .ok (.unpad .ansi)
  ∧ (∀ s : State, exec (.unpad .none) s = .next { s with err := 5#8 })
  ∧ (∀ (p : Scheme) (s : State), p ≠ .none → s.ilen = 0#32 → exec (.unpad p) s = .next { s with err := 3#8 })
  ∧ ∀ (p : Scheme) (s : State), p ≠ .none → s.ilen ≠ 0#32 →
      let len := s.ilen.toNat
      let n := (s.ibuf.read (len - 1)).toNat
      ((n < 1 ∨ 16 < n ∨ len < n) → exec (.unpad p) s = .next { s with err := 3#8 })
      ∧ (1 ≤ n → n ≤ 16 → n ≤ len → ∃ t, exec (.unpad p) s = .next t
          ∧ OutputIs s t ((List.range (len - n)).map fun j => s.ibuf.read j) ∧ t.err = 0#8
          ∧ t.st = s.st ∧ t.trace = s.trace ∧ InputsKept s t ∧ ScheduleKept s t)

/-- R160: `Unpad` undoes `Pad` for both length-marking schemes and every message; the converse does not hold, and
scheme None has no round trip. As commands: when `PAD p` has run, `UNPAD p` over its output (the host having copied
`OBUF` to `IBUF`, R245) gives the message back. -/
def Obligations.PadThenUnpadRestoresTheMessage : Prop :=
  (∀ (p : Scheme) (x : List Byte), p ≠ .none → unpadMessage (padMessage p x) = some x)
  ∧ (∀ p : Scheme, p ≠ .none → ∃ b c : List Byte, unpadMessage b = some c ∧ padMessage p c ≠ b)
  ∧ (∃ x y : List Byte, x ≠ y ∧ padMessage .none x = padMessage .none y)
  ∧ ∀ (p : Scheme) (s t u : State), p ≠ .none → s.Inv → exec (.pad p) s = .next t → u.message = t.output →
      ∃ v, exec (.unpad p) u = .next v ∧ v.err = 0#8 ∧ v.output = s.message

/-! ### The mode layer -/

/-- R172, R173: `CtrAdd(V, i)` is the big-endian sum modulo 2^128; block 0 uses the IV, and each counter is the one
before plus one. -/
def Obligations.CtrAddIsAdditionModuloTwoToThe128 : Prop :=
  ∀ (v : Block) (i : Nat),
    (ctrAdd v i).toList = bytesOfNat 16 ((natOfBytes v.toList + i) % 2 ^ 128)
    ∧ natOfBytes (ctrAdd v i).toList = (natOfBytes v.toList + i) % 2 ^ 128
    ∧ ctrAdd v 0 = v ∧ ctrAdd v (i + 1) = ctrAdd (ctrAdd v i) 1

/-- R213, R212, R217, R179: `ENCMSG` in CBC or CTR without an IV sets `ERR` to 2, whatever `KLEN` is; otherwise with an
illegal `KLEN` it sets it to 1; nothing else changes. -/
def Obligations.EncmsgErrorsInOrder : Prop :=
  (∀ (m : Mode) (p : Scheme) (s : State), m ≠ .ecb → s.ivv = false → exec (.encmsg m p) s = .next { s with err := 2#8 })
  ∧ (∀ (p : Scheme) (s : State), s.klen.toNat ∉ [16, 24, 32] → exec (.encmsg .ecb p) s = .next { s with err := 1#8 })
  ∧ ∀ (m : Mode) (p : Scheme) (s : State), s.ivv = true → s.klen.toNat ∉ [16, 24, 32] →
      exec (.encmsg m p) s = .next { s with err := 1#8 }

/-- R184: when its preconditions hold `ENCMSG` completes, for every mode and scheme: a whole number of blocks is stored
in the bytes of `OBUF` from 0 up and in no other, at most `ILEN + 16` bytes (R187), `ERR` is 0, the inputs stay (R189). -/
def Obligations.EncmsgCompletes : Prop :=
  (∀ m p, decode (0x0040 + 0x0100 * modeCode m + 0x0400 * schemeCode p) = .ok (.encmsg m p))
  ∧ ∀ (m : Mode) (p : Scheme) (s : State), CanEncrypt m s →
      ∃ t, exec (.encmsg m p) s = .next t ∧ t.err = 0#8
        ∧ t.olen = BitVec.ofNat 32 (16 * blockNumber p s) ∧ 16 * blockNumber p s ≤ s.ilen.toNat + 16
        ∧ (∀ a, 16 * blockNumber p s ≤ a → t.obuf.read a = s.obuf.read a)
        ∧ InputsKept s t

/-- R175: ECB. Cipher block `i` is the encryption of plain block `i`, under the schedule of the message's key; `ST` is
the last cipher block, or as it was when there is no block (R190). -/
def Obligations.EcbEncryptsEveryBlock : Prop :=
  ∀ (p : Scheme) (s : State), CanEncrypt .ecb s → ∃ t, exec (.encmsg .ecb p) s = .next t ∧
    (∀ i, i < blockNumber p s → outBlock t i = (t.encrypt (plainBlock p s i)).state)
    ∧ t.st = (if blockNumber p s = 0 then s.st else outBlock t (blockNumber p s - 1))

/-- R176: CBC. Cipher block 0 is the encryption of plain block 0 XORed with the IV, each later one of the plain block
XORed with the cipher block before it; `ST` as in ECB. -/
def Obligations.CbcChainsEveryBlock : Prop :=
  ∀ (p : Scheme) (s : State), CanEncrypt .cbc s → ∃ t, exec (.encmsg .cbc p) s = .next t ∧
    (∀ i, i < blockNumber p s →
      outBlock t i = (t.encrypt (xorBytes (plainBlock p s i) (if i = 0 then s.iv else outBlock t (i - 1)))).state)
    ∧ t.st = (if blockNumber p s = 0 then s.st else outBlock t (blockNumber p s - 1))

/-- R177: CTR. Cipher block `i` is plain block `i` XORed with the encryption of the counter `CtrAdd(IV, i)`; `ST` is the
last keystream block, or as it was when there is no block (R190). -/
def Obligations.CtrXorsTheKeystream : Prop :=
  ∀ (p : Scheme) (s : State), CanEncrypt .ctr s → ∃ t, exec (.encmsg .ctr p) s = .next t ∧
    (∀ i, i < blockNumber p s → outBlock t i = xorBytes (plainBlock p s i) (t.encrypt (ctrAdd s.iv i)).state)
    ∧ t.st = (if blockNumber p s = 0 then s.st else (t.encrypt (ctrAdd s.iv (blockNumber p s - 1))).state)

/-- R188: after a successful `ENCMSG`, `W` and `NR` are exactly what `EXPANDKEY` would have left, and what it computes
does not depend on the schedule that was there: only the bytes of `W` above the new schedule do. -/
def Obligations.EncmsgLeavesTheExpandkeySchedule : Prop :=
  (∀ (m : Mode) (p : Scheme) (s t u : State), CanEncrypt m s → exec (.encmsg m p) s = .next t →
    exec .expandkey s = .next u → t.w = u.w ∧ t.nr = u.nr)
  ∧ ∀ (m : Mode) (p : Scheme) (s t : State) (w : Bytes 240) (n : Byte), CanEncrypt m s → exec (.encmsg m p) s = .next t →
      ∃ v, exec (.encmsg m p) { s with w := w, nr := n } = .next { t with w := v }

/-- R185: the empty message. With PKCS or ANSI `OLEN` is 16; with None there is no block, `OLEN` is 0, `ST`, `TRACE` and
every byte of `OBUF` stay, and the command still succeeds and rewrites the schedule, and still validates the IV and the
key. -/
def Obligations.EncmsgOfTheEmptyMessage : Prop :=
  (∀ (m : Mode) (p : Scheme) (s : State), CanEncrypt m s → s.ilen = 0#32 →
    ∃ t, exec (.encmsg m p) s = .next t ∧ t.err = 0#8
      ∧ (p ≠ .none → t.olen = 16#32)
      ∧ (p = .none → t.olen = 0#32 ∧ t.st = s.st ∧ t.trace = s.trace ∧ (∀ a, t.obuf.read a = s.obuf.read a))
      ∧ t.nr.toNat = s.klen.toNat / 4 + 6 ∧ ∃ u, exec .expandkey s = .next u ∧ t.w = u.w)
  ∧ ∀ (m : Mode) (p : Scheme) (s : State), ¬ CanEncrypt m s → s.ilen = 0#32 →
      ∃ e, e ≠ 0#8 ∧ exec (.encmsg m p) s = .next { s with err := e }

/-- R186: in ECB an IV, supplied or not, is ignored and is no error: changing `IV` and `IVV` changes nothing but
themselves. -/
def Obligations.EcbIgnoresTheIv : Prop :=
  ∀ (p : Scheme) (s t : State) (iv : Block) (c : Byte), c.getLsbD 1 = s.ctrl.getLsbD 1 →
    exec (.encmsg .ecb p) s = .next t →
    exec (.encmsg .ecb p) { s with iv := iv, ctrl := c } = .next { t with iv := iv, ctrl := c }

/-- R183: CTR decrypts itself. When `ENCMSG CTR, p` has run, `ENCMSG CTR, NONE` with the same key and IV over its output
gives the padded plaintext; with a length-marking scheme, `UNPAD` over that gives the message. -/
def Obligations.CtrDecryptsByReencryption : Prop :=
  ∀ (p : Scheme) (s t u : State), s.Inv → CanEncrypt .ctr s → exec (.encmsg .ctr p) s = .next t →
    u.key = s.key → u.klen = s.klen → u.iv = s.iv → u.ivv = true → u.message = t.output →
    ∃ v, exec (.encmsg .ctr .none) u = .next v ∧ v.err = 0#8 ∧ v.output = padMessage p s.message
      ∧ ∀ x : State, p ≠ .none → x.message = v.output → ∃ y, exec (.unpad p) x = .next y ∧ y.err = 0#8 ∧ y.output = s.message

/-- R181 (2): CBC chaining. Two messages of one length whose padded blocks differ in block `i` and in no other give
cipher blocks that are equal before block `i` and different at block `i` and at every later one. -/
def Obligations.CbcChangePropagatesForward : Prop :=
  ∀ (p : Scheme) (s s' t t' : State) (i : Nat),
    CanEncrypt .cbc s → s'.key = s.key → s'.klen = s.klen → s'.iv = s.iv → s'.ivv = true →
    blockNumber p s' = blockNumber p s → i < blockNumber p s →
    (∀ j, j < blockNumber p s → (plainBlock p s' j = plainBlock p s j ↔ j ≠ i)) →
    exec (.encmsg .cbc p) s = .next t → exec (.encmsg .cbc p) s' = .next t' →
    (∀ j, j < i → outBlock t' j = outBlock t j)
    ∧ ∀ j, i ≤ j → j < blockNumber p s → outBlock t' j ≠ outBlock t j

/-! ### The trace port -/

/-- R202, R198: non-interference. For every command and every start state, the final values of all state other than
`TRACE` are the same with `TREN = 1` as with `TREN = 0`; and with `TREN = 0` nothing is appended. -/
def Obligations.TracingDoesNotInterfere : Prop :=
  (∀ (i : Instr) (s t : State) (c : Byte), c.getLsbD 0 = s.ctrl.getLsbD 0 → exec i s = .next t →
    ∃ tr, exec i { s with ctrl := c } = .next { t with ctrl := c, trace := tr })
  ∧ ∀ (i : Instr) (s t : State), s.tren = false → exec i s = .next t → t.trace = s.trace

/-- R203: how many entries each command emits when `TREN = 1`, and that a command that ends in an error emits none. -/
def Obligations.TraceCountsPerCommand : Prop :=
  ∀ (i : Instr) (s t : State), s.tren = true → exec i s = .next t →
    t.trace.length = s.trace.length + (if t.err = 0#8 then traceCount s t i else 0)

/-- R199, R200, R201: the entries of a CBC message and of a CTR message, in order: per block, in CBC the `IV_XOR` entry
and then the round entries, in CTR the round entries and then the `COUNTER_XOR` entry; in ECB the round entries. -/
def Obligations.MessageTraceInOrder : Prop :=
  ∀ (m : Mode) (p : Scheme) (s t : State), CanEncrypt m s → exec (.encmsg m p) s = .next t →
    Emitted s t ((List.range (blockNumber p s)).flatMap fun i =>
      let plain := plainBlock p s i
      let chain := if i = 0 then s.iv else outBlock t (i - 1)
      match m with
      | .ecb => (t.encrypt plain).entries
      | .cbc => ⟨.ivXor, xorBytes plain chain, plain, some chain⟩ :: (t.encrypt (xorBytes plain chain)).entries
      | .ctr => (t.encrypt (ctrAdd s.iv i)).entries
          ++ [⟨.counterXor, outBlock t i, plain, some (t.encrypt (ctrAdd s.iv i)).state⟩])

/-- R36: the engine only ever appends to `TRACE`, whatever the host does, but for a reset, which empties it (R39). -/
def Obligations.TraceIsOnlyAppendedTo : Prop :=
  ∀ s t : State, step s = .next t → s.trace <+: t.trace ∨ (∃ d rest, s.host = .reset d :: rest ∧ t.trace = [])

/-! ### Errors, and what no command does -/

/-- R216: a command that ends in an error changes `ERR` and nothing else. -/
def Obligations.FailedCommandChangesOnlyErr : Prop :=
  ∀ (i : Instr) (s t : State), exec i s = .next t → t.err ≠ 0#8 → t = { s with err := t.err }

/-- R218, R252: every command ends in a next state from every state, with success or one of the errors that the table
gives it (and error 5 for `UNPAD` with scheme None, whose word is illegal). -/
def Obligations.EveryCommandEndsWithATableError : Prop :=
  ∀ (i : Instr) (s : State), ∃ t, exec i s = .next t ∧ t.err ∈ possibleErrors i

/-- R189 and R37 for all commands: no command modifies `KEY`, `KLEN`, `IV`, `CTRL`, `IBUF` or `ILEN`. -/
def Obligations.NoCommandModifiesItsInputs : Prop :=
  ∀ (i : Instr) (s t : State), exec i s = .next t → InputsKept s t

/-- R38: the write sets. `W`, `NR` are written by `EXPANDKEY` and `ENCMSG` alone; `OBUF`, `OLEN` by `PAD`, `UNPAD` and
`ENCMSG` alone; `ST` by none of `EXPANDKEY`, `PAD`, `UNPAD`; `TRACE` by none of `GFMUL2`, `GFMUL3`, `EXPANDKEY`, `PAD`,
`UNPAD`. -/
def Obligations.WriteSetsOfTheCommands : Prop :=
  ∀ (i : Instr) (s t : State), exec i s = .next t →
    (i ≠ .expandkey → (∀ m p, i ≠ .encmsg m p) → ScheduleKept s t)
    ∧ ((∀ p, i ≠ .pad p) → (∀ p, i ≠ .unpad p) → (∀ m p, i ≠ .encmsg m p) → OutputKept s t)
    ∧ ((i = .expandkey ∨ (∃ p, i = .pad p) ∨ ∃ p, i = .unpad p) → t.st = s.st)
    ∧ ((i = .gfmul2 ∨ i = .gfmul3 ∨ i = .expandkey ∨ (∃ p, i = .pad p) ∨ ∃ p, i = .unpad p) → t.trace = s.trace)

/-! ### The host's accesses -/

/-- R54: a wider access to a byte array is the ascending sequence of byte accesses, for writes of `KEY`, `IV`, `ST`, `W`,
`IBUF` and `OBUF`; and a wider read gives, byte for byte, what the byte reads give. -/
def Obligations.WideAccessIsTheByteSequence : Prop :=
  (∀ (s : State) (off : Nat) (bs : List Byte), bs ≠ [] →
    (off + bs.length ≤ 0x020 ∨ (0x030 ≤ off ∧ off + bs.length ≤ 0x040) ∨ (0x040 ≤ off ∧ off + bs.length ≤ 0x050)
      ∨ (0x100 ≤ off ∧ off + bs.length ≤ 0x1F0)) →
    perform (.write .reg off bs) s = performAll (byteWrites .reg off bs) s)
  ∧ (∀ (s : State) (off : Nat) (bs : List Byte), bs ≠ [] → off + bs.length ≤ s.ibufCap →
      perform (.write .ibuf off bs) s = performAll (byteWrites .ibuf off bs) s)
  ∧ (∀ (s : State) (off : Nat) (bs : List Byte), bs ≠ [] → off + bs.length ≤ s.ibufCap + 16 →
      perform (.write .obuf off bs) s = performAll (byteWrites .obuf off bs) s)
  ∧ ∀ (s : State) (sp : Space) (off n : Nat), n ≠ 0 →
      (match sp with
        | .reg => off + n ≤ 0x020 ∨ (0x030 ≤ off ∧ off + n ≤ 0x040) ∨ (0x040 ≤ off ∧ off + n ≤ 0x050)
            ∨ (0x100 ≤ off ∧ off + n ≤ 0x1F0)
        | .ibuf => off + n ≤ s.ibufCap
        | .obuf => off + n ≤ s.ibufCap + 16) →
      ∃ bs, bs.length = n ∧ perform (.read sp off n) s = .next { s with rdata := bs }
        ∧ ∀ i, i < n → perform (.read sp (off + i) 1) s = .next { s with rdata := [bs.getD i 0#8] }

/-- R51, R54: what a host reads and writes in the byte arrays, byte by byte: a write of `KEY[j]`, `IV[j]`, `ST[j]` or
`IBUF[a]` sets that byte and no other, and a read gives the byte, of `W[j]` and `OBUF[a]` too. -/
def Obligations.ByteArrayAccess : Prop :=
  (∀ (s : State) (j : Fin 32) (b : Byte), perform (.write .reg j.val [b]) s = .next { s with key := s.key.set j.val b }
    ∧ perform (.read .reg j.val 1) s = .next { s with rdata := [s.key[j]] })
  ∧ (∀ (s : State) (j : Fin 16) (b : Byte), perform (.write .reg (0x030 + j.val) [b]) s = .next { s with iv := s.iv.set j.val b }
      ∧ perform (.read .reg (0x030 + j.val) 1) s = .next { s with rdata := [s.iv[j]] })
  ∧ (∀ (s : State) (j : Fin 16) (b : Byte), perform (.write .reg (0x040 + j.val) [b]) s = .next { s with st := s.st.set j.val b }
      ∧ perform (.read .reg (0x040 + j.val) 1) s = .next { s with rdata := [s.st[j]] })
  ∧ (∀ (s : State) (j : Fin 240), perform (.read .reg (0x100 + j.val) 1) s = .next { s with rdata := [s.w[j]] })
  ∧ (∀ (s : State) (a : Nat) (b : Byte), a < s.ibufCap → ∃ t, perform (.write .ibuf a [b]) s = .next t
      ∧ t = { s with ibuf := t.ibuf } ∧ t.ibuf.read a = b ∧ (∀ x, x ≠ a → t.ibuf.read x = s.ibuf.read x)
      ∧ perform (.read .ibuf a 1) s = .next { s with rdata := [s.ibuf.read a] })
  ∧ ∀ (s : State) (a : Nat), a < s.ibufCap + 16 → perform (.read .obuf a 1) s = .next { s with rdata := [s.obuf.read a] }

/-- R22, R30, R32, R25, R53: the one-byte registers and the lengths. `KLEN` keeps any value; `CTRL` keeps bits 1:0 and
reads 0 in the others; `NR`, `ERR`, `OLEN`, `ILEN` are read, the lengths most significant byte first. -/
def Obligations.RegisterAccess : Prop :=
  (∀ (s : State) (v : Byte), perform (.write .reg 0x020 [v]) s = .next { s with klen := v })
  ∧ (∀ s : State, perform (.read .reg 0x020 1) s = .next { s with rdata := [s.klen] })
  ∧ (∀ (s : State) (v : Byte), ∃ t, perform (.write .reg 0x021 [v]) s = .next t ∧ t = { s with ctrl := t.ctrl }
      ∧ t.ivv = v.getLsbD 0 ∧ t.tren = v.getLsbD 1 ∧ ∀ i, 2 ≤ i → t.ctrl.getLsbD i = false)
  ∧ (∀ s : State, ∃ t c, perform (.read .reg 0x021 1) s = .next t ∧ t = { s with rdata := [c] }
      ∧ c.getLsbD 0 = s.ivv ∧ c.getLsbD 1 = s.tren ∧ ∀ i, 2 ≤ i → c.getLsbD i = false)
  ∧ (∀ s : State, perform (.read .reg 0x022 1) s = .next { s with rdata := [s.nr] })
  ∧ (∀ s : State, perform (.read .reg 0x023 1) s = .next { s with rdata := [s.err] })
  ∧ (∀ s : State, perform (.read .reg 0x050 4) s = .next { s with rdata :=
      [s.ilen.extractLsb' 24 8, s.ilen.extractLsb' 16 8, s.ilen.extractLsb' 8 8, s.ilen.extractLsb' 0 8] })
  ∧ ∀ s : State, perform (.read .reg 0x054 4) s = .next { s with rdata :=
      [s.olen.extractLsb' 24 8, s.olen.extractLsb' 16 8, s.olen.extractLsb' 8 8, s.olen.extractLsb' 0 8] }

/-- R58 (with the byte order of R53): a host write of `ILEN` above `IBUF_CAP` keeps `ILEN` and sets `ERR` to 5, any other
sets `ILEN`; and no other host access writes `ERR`, but for a command word and a reset. -/
def Obligations.IlenAboveTheCapacityIsRefused : Prop :=
  (∀ (s : State) (b3 b2 b1 b0 : Byte),
    let v : BitVec 32 := b3 ++ b2 ++ b1 ++ b0
    (s.ibufCap < v.toNat → perform (.write .reg 0x050 [b3, b2, b1, b0]) s = .next { s with err := 5#8 })
    ∧ (v.toNat ≤ s.ibufCap → perform (.write .reg 0x050 [b3, b2, b1, b0]) s = .next { s with ilen := v }))
  ∧ ∀ (a : HostAction) (s t : State), perform a s = .next t → t.err ≠ s.err →
      (∃ bs, a = .write .reg 0x024 bs) ∨ (∃ bs, a = .write .reg 0x050 bs) ∨ ∃ d, a = .reset d

/-- R57: a host write to a read-only location is ignored, a read of `CMD` gives 0, the reserved bits of `CTRL` read 0
whatever was written, and an access that touches a reserved or unmapped offset of `REG`, or an offset beyond a buffer, is
refused, a read as a write and at every width. -/
def Obligations.ReadOnlyAndUnmappedLocations : Prop :=
  (∀ (s : State) (v : Byte), perform (.write .reg 0x022 [v]) s = .next s ∧ perform (.write .reg 0x023 [v]) s = .next s)
  ∧ (∀ (s : State) (b3 b2 b1 b0 : Byte), perform (.write .reg 0x054 [b3, b2, b1, b0]) s = .next s)
  ∧ (∀ (s : State) (off : Nat) (bs : List Byte), bs ≠ [] → 0x100 ≤ off → off + bs.length ≤ 0x1F0 →
      perform (.write .reg off bs) s = .next s)
  ∧ (∀ (s : State) (a : Nat) (bs : List Byte), bs ≠ [] → a + bs.length ≤ s.ibufCap + 16 →
      perform (.write .obuf a bs) s = .next s)
  ∧ (∀ s : State, perform (.read .reg 0x024 2) s = .next { s with rdata := [0#8, 0#8] })
  ∧ (∀ (s t : State) (v : Byte), perform (.write .reg 0x021 [v]) s = .next t →
      ∃ c, perform (.read .reg 0x021 1) t = .next { t with rdata := [c] } ∧ ∀ i, 2 ≤ i → c.getLsbD i = false)
  ∧ (∀ (s : State) (off i : Nat) (bs : List Byte), i < bs.length →
      (0x026 ≤ off + i ∧ off + i < 0x030) ∨ (0x058 ≤ off + i ∧ off + i < 0x100) ∨ 0x1F0 ≤ off + i →
      perform (.write .reg off bs) s = .refused .unmappedOffset
        ∧ perform (.read .reg off bs.length) s = .refused .unmappedOffset)
  ∧ (∀ (s : State) (a : Nat) (bs : List Byte), bs ≠ [] → s.ibufCap < a + bs.length →
      perform (.write .ibuf a bs) s = .refused .beyondBuffer ∧ perform (.read .ibuf a bs.length) s = .refused .beyondBuffer)
  ∧ ∀ (s : State) (a : Nat) (bs : List Byte), bs ≠ [] → s.ibufCap + 16 < a + bs.length →
      perform (.write .obuf a bs) s = .refused .beyondBuffer ∧ perform (.read .obuf a bs.length) s = .refused .beyondBuffer

/-- R55: an access that touches `CMD`, `ILEN` or `OLEN` and is not the whole register at its own offset has no meaning:
it is refused, a read as a write. -/
def Obligations.PartialAccessIsRefused : Prop :=
  ∀ (s : State) (off : Nat) (bs : List Byte),
    let n := bs.length
    ((off < 0x026 ∧ 0x024 < off + n ∧ ¬ (off = 0x024 ∧ n = 2))
      ∨ (off < 0x054 ∧ 0x050 < off + n ∧ ¬ (off = 0x050 ∧ n = 4))
      ∨ (off < 0x058 ∧ 0x054 < off + n ∧ ¬ (off = 0x054 ∧ n = 4))) →
    (∃ r, perform (.write .reg off bs) s = .refused r) ∧ (∃ r, perform (.read .reg off n) s = .refused r)

/-- R56: reads have no side effect in the engine, and every location but `CMD` is idempotent to write: the same write
again changes nothing (in states that meet the invariant, whose buffers are in canonical form). -/
def Obligations.ReadsAndRepeatedWritesHaveNoSideEffect : Prop :=
  (∀ (s t : State) (sp : Space) (off n : Nat), perform (.read sp off n) s = .next t → t = { s with rdata := t.rdata })
  ∧ (∀ (s t : State) (sp : Space) (off n : Nat), perform (.read sp off n) s = .next t → perform (.read sp off n) t = .next t)
  ∧ ∀ (s t : State) (sp : Space) (off : Nat) (bs : List Byte), s.Inv → ¬ (sp = .reg ∧ off = 0x024) →
      perform (.write sp off bs) s = .next t → perform (.write sp off bs) t = .next t

/-- R243: stale round keys. Writing `KEY` or `KLEN` does not recompute or invalidate `W` and `NR`, and `ENCBLOCK` and
`ADDROUNDKEY` do the same whatever `KEY` and `KLEN` hold. -/
def Obligations.BlockCommandsUseTheOldSchedule : Prop :=
  (∀ (s t : State) (off : Nat) (bs : List Byte), off < 0x021 → perform (.write .reg off bs) s = .next t → ScheduleKept s t)
  ∧ ∀ (i : Instr) (s t : State) (key : Bytes 32) (klen : Byte), (i = .encblock ∨ ∃ k, i = .addroundkey k) →
      exec i s = .next t → exec i { s with key := key, klen := klen } = .next { t with key := key, klen := klen }
end

