-- ==== Sys2Proof/Laws/Bytes.lean ====
section
/-! SUPPORT. Laws of byte arrays, blocks and lists of bytes. -/

namespace Sys2Proof

@[simp] theorem getElem_tabulate {n : Nat} (f : Fin n → Byte) (i : Nat) (h : i < n) :
    (tabulate f)[i] = f ⟨i, h⟩ := by
  simp [tabulate]

@[simp] theorem getElem_fin_tabulate {n : Nat} (f : Fin n → Byte) (i : Fin n) : (tabulate f)[i] = f i := by
  simp

@[simp] theorem toList_tabulate {n : Nat} (f : Fin n → Byte) : (tabulate f).toList = List.ofFn f := by
  simp [tabulate, Vector.toList]

@[simp] theorem tabulate_getElem {n : Nat} (v : Bytes n) : tabulate (fun i => v[i]) = v := by
  ext i h; simp

@[simp] theorem getElem_zeros {n : Nat} (i : Nat) (h : i < n) : (zeros n)[i] = 0#8 := by simp [zeros]

@[simp] theorem getElem_xorBytes {n : Nat} (a b : Bytes n) (i : Nat) (h : i < n) :
    (xorBytes a b)[i] = a[i] ^^^ b[i] := by
  simp [xorBytes]

theorem xorBytes_comm {n : Nat} (a b : Bytes n) : xorBytes a b = xorBytes b a := by
  ext i h; simp [BitVec.xor_comm]

theorem xorBytes_assoc {n : Nat} (a b c : Bytes n) : xorBytes (xorBytes a b) c = xorBytes a (xorBytes b c) := by
  ext i h; simp [BitVec.xor_assoc]

/-- Exclusive-or with the same array twice gives the first back (R131: "its own inverse"). -/
@[simp] theorem xorBytes_cancel {n : Nat} (a b : Bytes n) : xorBytes (xorBytes a b) b = a := by
  ext i h; simp

namespace Machine

theorem getElem_writeBytes {n : Nat} (v : Bytes n) (j : Nat) (bs : List Byte) (i : Nat) (h : i < n) :
    (writeBytes v j bs)[i] = if j ≤ i then bs.getD (i - j) v[i] else v[i] := by
  simp [writeBytes]

/-- A byte that a write reaches. -/
theorem getElem_writeBytes_inside {n : Nat} (v : Bytes n) (j : Nat) (bs : List Byte) (i : Nat) (h : i < n)
    (h1 : j ≤ i) (h2 : i - j < bs.length) : (writeBytes v j bs)[i] = bs[i - j] := by
  simp [getElem_writeBytes, h1, List.getElem?_eq_getElem h2]

/-- A byte that a write does not reach. -/
theorem getElem_writeBytes_outside {n : Nat} (v : Bytes n) (j : Nat) (bs : List Byte) (i : Nat) (h : i < n)
    (h1 : i < j ∨ j + bs.length ≤ i) : (writeBytes v j bs)[i] = v[i] := by
  rw [getElem_writeBytes]
  split
  · rw [List.getD_eq_default]; omega
  · rfl

@[simp] theorem length_readBytes {k : Nat} (v : Bytes k) (j n : Nat) (h : j + n ≤ k) : (readBytes v j n).length = n := by
  simp [readBytes]; omega

@[simp] theorem getElem_bytesOfList (n : Nat) (l : List Byte) (i : Nat) (h : i < n) :
    (bytesOfList n l)[i] = l.getD i 0#8 := by
  simp [bytesOfList]

@[simp] theorem getElem_blockOfList (l : List Byte) (i : Nat) (h : i < 16) : (blockOfList l)[i] = l.getD i 0#8 := by
  simp [blockOfList]

/-- A block read back from its own bytes. -/
@[simp] theorem blockOfList_toList (b : Block) : blockOfList b.toList = b := by
  apply Vector.ext; intro i h; simp [h]

/-- A block read back from its own bytes with others after them. -/
@[simp] theorem blockOfList_toList_append (b : Block) (l : List Byte) : blockOfList (b.toList ++ l) = b := by
  apply Vector.ext; intro i h
  rw [getElem_blockOfList, List.getD_append _ _ _ _ (by simpa using h)]
  simp [h]

/-- The bytes of a block made from sixteen bytes. -/
theorem toList_blockOfList (l : List Byte) (h : l.length = 16) : (blockOfList l).toList = l := by
  apply List.ext_getElem
  · simp [h]
  · intro i h1 h2
    simp [h2]

@[simp] theorem length_bytesOfBlocks (bs : List Block) : (bytesOfBlocks bs).length = 16 * bs.length := by
  induction bs with
  | nil => rfl
  | cons b bs ih => simp [bytesOfBlocks, List.flatMap_cons] at *; omega

@[simp] theorem bytesOfBlocks_nil : bytesOfBlocks [] = [] := rfl

@[simp] theorem bytesOfBlocks_cons (b : Block) (bs : List Block) :
    bytesOfBlocks (b :: bs) = b.toList ++ bytesOfBlocks bs := rfl

/-- The bytes of block `i` onward are the bytes of the blocks from `i` on. -/
theorem drop_bytesOfBlocks (bs : List Block) (i : Nat) : (bytesOfBlocks bs).drop (16 * i) = bytesOfBlocks (bs.drop i) := by
  induction bs generalizing i with
  | nil => simp
  | cons b bs ih =>
    cases i with
    | zero => simp
    | succ i =>
      have h : 16 * (i + 1) = b.toList.length + 16 * i := by simp; omega
      rw [bytesOfBlocks_cons, h, List.drop_append, Nat.add_sub_cancel_left, ih]
      simp

/-- Block `i` of the bytes of blocks. -/
theorem blockAt_bytesOfBlocks (bs : List Block) (i : Nat) (h : i < bs.length) : blockAt (bytesOfBlocks bs) i = bs[i] := by
  rw [blockAt, drop_bytesOfBlocks, List.drop_eq_getElem_cons h, bytesOfBlocks_cons, blockOfList_toList_append]

@[simp] theorem length_blocksOf (p : List Byte) : (blocksOf p).length = p.length / 16 := by simp [blocksOf]

@[simp] theorem getElem_blocksOf (p : List Byte) (i : Nat) (h : i < (blocksOf p).length) :
    (blocksOf p)[i] = blockAt p i := by
  simp [blocksOf]

/-- A list of whole blocks is the bytes of its blocks (R170). -/
theorem bytesOfBlocks_blocksOf (p : List Byte) (h : p.length % 16 = 0) : bytesOfBlocks (blocksOf p) = p := by
  obtain ⟨n, hn⟩ : ∃ n, p.length = 16 * n := ⟨p.length / 16, by omega⟩
  clear h
  induction n generalizing p with
  | zero => simp [List.length_eq_zero_iff.mp hn, blocksOf]
  | succ n ih =>
    have h1 : (p.drop 16).length = 16 * n := by simp [hn]; omega
    have h2 : blocksOf p = blockOfList (p.take 16) :: blocksOf (p.drop 16) := by
      simp only [blocksOf, hn, h1]
      rw [show 16 * (n + 1) / 16 = n + 1 by omega, show 16 * n / 16 = n by omega, List.range_succ_eq_map]
      simp only [List.map_cons, List.map_map, List.cons.injEq]
      constructor
      · apply Vector.ext; intro i hi
        simp [blockAt, hi]
      · apply List.map_congr_left
        intro i _
        simp only [Function.comp, blockAt, List.drop_drop, Nat.succ_eq_add_one]
        rw [Nat.mul_succ, Nat.add_comm]
    rw [h2, bytesOfBlocks_cons, ih _ h1, toList_blockOfList _ (by simp [hn]), List.take_append_drop]

end Machine

end Sys2Proof
end

