-- ==== Sys2Proof/Laws/Memory.lean ====
section
/-! SUPPORT. Laws of a buffer space: what a write does to every byte, and that every operation keeps the canonical
form and the bounds. -/

namespace Sys2Proof.Machine

@[simp] theorem Memory.read_nil (x : Nat) : Memory.read [] x = unwritten := rfl

theorem Memory.read_eraseCell (m : Memory) (x y : Nat) :
    (m.eraseCell x).read y = if y = x then unwritten else m.read y := by
  induction m with
  | nil => simp [Memory.eraseCell]
  | cons c m ih =>
    obtain ⟨a, b⟩ := c
    by_cases h : a = x
    · subst h
      have : Memory.eraseCell ((a, b) :: m) a = Memory.eraseCell m a := by simp [Memory.eraseCell]
      rw [this, ih]
      by_cases h : y = a <;> simp [Memory.read, h]
    · have : Memory.eraseCell ((a, b) :: m) x = (a, b) :: Memory.eraseCell m x := by simp [Memory.eraseCell, h]
      rw [this]
      by_cases h1 : y = a
      · subst h1; simp [Memory.read, h]
      · simp [Memory.read, h1, ih]

theorem Memory.read_insertCell (m : Memory) (x y : Nat) (v : Byte)
    (hx : ∀ c ∈ m, c.1 ≠ x) : (m.insertCell x v).read y = if y = x then v else m.read y := by
  induction m with
  | nil => simp [Memory.insertCell, Memory.read]
  | cons c m ih =>
    obtain ⟨a, b⟩ := c
    have ha : a ≠ x := hx (a, b) (by simp)
    have ih := ih fun c hc => hx c (by simp [hc])
    rw [Memory.insertCell]
    split
    · simp [Memory.read]
    · simp only [Memory.read, ih]
      by_cases h1 : y = a
      · subst h1; simp [ha]
      · simp [h1]

/-- A read after a write of one byte (R54, R56). -/
@[simp] theorem Memory.read_write (m : Memory) (x y : Nat) (v : Byte) :
    (m.write x v).read y = if y = x then v else m.read y := by
  have hx : ∀ c ∈ m.eraseCell x, c.1 ≠ x := by
    intro c hc; simp only [Memory.eraseCell, List.mem_filter, bne_iff_ne] at hc; exact hc.2
  rw [Memory.write]
  split
  · next h => rw [Memory.read_eraseCell, h]
  · rw [Memory.read_insertCell _ _ _ _ hx, Memory.read_eraseCell]
    by_cases h : y = x <;> simp [h]

/-- A read after a write of several bytes: all that `writeRange` does to the bytes. -/
theorem Memory.read_writeRange (m : Memory) (x y : Nat) (bs : List Byte) :
    (m.writeRange x bs).read y = if x ≤ y then bs.getD (y - x) (m.read y) else m.read y := by
  induction bs generalizing m x with
  | nil => simp [Memory.writeRange]
  | cons b bs ih =>
    rw [Memory.writeRange, ih, Memory.read_write]
    by_cases h : y = x
    · subst h; simp
    · by_cases h1 : x ≤ y
      · obtain ⟨k, rfl⟩ : ∃ k, y = x + 1 + k := ⟨y - (x + 1), by omega⟩
        rw [if_pos (by omega), if_neg h, if_pos h1]
        have : x + 1 + k - x = k + 1 := by omega
        simp [this]
      · rw [if_neg (by omega), if_neg h, if_neg h1]

/-- A byte a write of several bytes reaches. -/
theorem Memory.read_writeRange_inside (m : Memory) (x y : Nat) (bs : List Byte) (h1 : x ≤ y) (h2 : y - x < bs.length) :
    (m.writeRange x bs).read y = bs.getD (y - x) 0#8 := by
  rw [Memory.read_writeRange, if_pos h1]
  rw [List.getD_eq_getElem _ _ h2, List.getD_eq_getElem _ _ h2]

/-- A byte a write of several bytes does not reach. -/
theorem Memory.read_writeRange_outside (m : Memory) (x y : Nat) (bs : List Byte) (h : y < x ∨ x + bs.length ≤ y) :
    (m.writeRange x bs).read y = m.read y := by
  rw [Memory.read_writeRange]
  split
  · rw [List.getD_eq_default]; omega
  · rfl

@[simp] theorem Memory.length_readRange (m : Memory) (x n : Nat) : (m.readRange x n).length = n := by
  simp [Memory.readRange]

@[simp] theorem Memory.getElem_readRange (m : Memory) (x n i : Nat) (h : i < (m.readRange x n).length) :
    (m.readRange x n)[i] = m.read (x + i) := by
  simp [Memory.readRange]

/-- Reading back what was just written (R56). -/
@[simp] theorem Memory.readRange_writeRange (m : Memory) (x : Nat) (bs : List Byte) :
    (m.writeRange x bs).readRange x bs.length = bs := by
  apply List.ext_getElem
  · simp
  · intro i h1 h2
    rw [Memory.getElem_readRange, Memory.read_writeRange_inside _ _ _ _ (by omega) (by omega)]
    simp [h2]

/-! ### The canonical form -/

theorem Memory.risesFrom_mono (m : Memory) (lo hi : Nat) (h : lo ≤ hi) (hm : m.risesFrom hi = true) :
    m.risesFrom lo = true := by
  cases m with
  | nil => rfl
  | cons c m =>
    obtain ⟨a, b⟩ := c
    simp only [Memory.risesFrom, Bool.and_eq_true, decide_eq_true_eq] at *
    exact ⟨⟨by omega, hm.1.2⟩, hm.2⟩

theorem Memory.risesFrom_eraseCell (m : Memory) (x lo : Nat) (h : m.risesFrom lo = true) : (m.eraseCell x).risesFrom lo = true := by
  induction m generalizing lo with
  | nil => rfl
  | cons c m ih =>
    obtain ⟨a, b⟩ := c
    simp only [Memory.risesFrom, Bool.and_eq_true, decide_eq_true_eq] at h
    by_cases hx : a = x
    · have : Memory.eraseCell ((a, b) :: m) x = Memory.eraseCell m x := by simp [Memory.eraseCell, hx]
      rw [this]
      exact Memory.risesFrom_mono _ _ (a + 1) (by omega) (ih _ h.2)
    · have : Memory.eraseCell ((a, b) :: m) x = (a, b) :: Memory.eraseCell m x := by simp [Memory.eraseCell, hx]
      rw [this]
      simp [Memory.risesFrom, h.1, ih _ h.2]

theorem Memory.risesFrom_insertCell (m : Memory) (x lo : Nat) (v : Byte) (hv : v ≠ unwritten) (hlo : lo ≤ x)
    (hx : ∀ c ∈ m, c.1 ≠ x) (h : m.risesFrom lo = true) : (m.insertCell x v).risesFrom lo = true := by
  induction m generalizing lo with
  | nil => simp [Memory.insertCell, Memory.risesFrom, hlo, hv]
  | cons c m ih =>
    obtain ⟨a, b⟩ := c
    have ha : a ≠ x := hx (a, b) (by simp)
    simp only [Memory.risesFrom, Bool.and_eq_true, decide_eq_true_eq] at h
    rw [Memory.insertCell]
    split
    · simp only [Memory.risesFrom, Bool.and_eq_true, decide_eq_true_eq]
      exact ⟨⟨hlo, by simpa using hv⟩, ⟨by omega, h.1.2⟩, h.2⟩
    · simp only [Memory.risesFrom, Bool.and_eq_true, decide_eq_true_eq]
      exact ⟨h.1, ih _ (by omega) (fun c hc => hx c (by simp [hc])) h.2⟩

/-- A write of one byte keeps the canonical form. -/
theorem Memory.wf_write (m : Memory) (x : Nat) (v : Byte) (h : m.wf = true) : (m.write x v).wf = true := by
  rw [Memory.write]
  split
  · exact Memory.risesFrom_eraseCell _ _ _ h
  · next hv =>
    refine Memory.risesFrom_insertCell _ _ _ _ hv (Nat.zero_le _) ?_ (Memory.risesFrom_eraseCell _ _ _ h)
    intro c hc; simp only [Memory.eraseCell, List.mem_filter, bne_iff_ne] at hc; exact hc.2

/-- A write of several bytes keeps the canonical form. -/
theorem Memory.wf_writeRange (m : Memory) (x : Nat) (bs : List Byte) (h : m.wf = true) : (m.writeRange x bs).wf = true := by
  induction bs generalizing m x with
  | nil => exact h
  | cons b bs ih => exact ih _ _ (Memory.wf_write _ _ _ h)

/-- Every address below the least one a canonical memory can list reads as unwritten. -/
theorem Memory.read_of_risesFrom (m : Memory) (lo x : Nat) (h : m.risesFrom lo = true) (hx : x < lo) : m.read x = unwritten := by
  induction m generalizing lo with
  | nil => rfl
  | cons c m ih =>
    obtain ⟨a, b⟩ := c
    simp only [Memory.risesFrom, Bool.and_eq_true, decide_eq_true_eq] at h
    rw [Memory.read, if_neg (by omega)]
    exact ih _ h.2 (by omega)

theorem Memory.ext_of_risesFrom (m n : Memory) (lo : Nat) (hm : m.risesFrom lo = true) (hn : n.risesFrom lo = true)
    (h : ∀ x, m.read x = n.read x) : m = n := by
  induction m generalizing n lo with
  | nil =>
    cases n with
    | nil => rfl
    | cons d n =>
      obtain ⟨a, b⟩ := d
      simp only [Memory.risesFrom, Bool.and_eq_true, bne_iff_ne] at hn
      have := h a
      simp only [Memory.read, if_true] at this
      exact absurd this.symm hn.1.2
  | cons c m ih =>
    obtain ⟨a, b⟩ := c
    simp only [Memory.risesFrom, Bool.and_eq_true, decide_eq_true_eq, bne_iff_ne] at hm
    cases n with
    | nil =>
      have := h a
      simp only [Memory.read, if_true] at this
      exact absurd this hm.1.2
    | cons d n =>
      obtain ⟨a', b'⟩ := d
      simp only [Memory.risesFrom, Bool.and_eq_true, decide_eq_true_eq, bne_iff_ne] at hn
      have e1 := h a
      have e2 := h a'
      simp only [Memory.read, if_true] at e1 e2
      have haa : a = a' := by
        by_contra hne
        rcases Nat.lt_or_gt_of_ne hne with hlt | hlt
        · rw [if_neg hne, Memory.read_of_risesFrom n (a' + 1) a hn.2 (by omega)] at e1
          exact hm.1.2 e1
        · rw [if_neg (Ne.symm hne), Memory.read_of_risesFrom m (a + 1) a' hm.2 (by omega)] at e2
          exact hn.1.2 e2.symm
      subst haa
      rw [if_pos rfl] at e1
      subst e1
      rw [ih n (a + 1) hm.2 hn.2]
      intro x
      by_cases hx : x = a
      · subst hx
        rw [Memory.read_of_risesFrom m (x + 1) x hm.2 (by omega), Memory.read_of_risesFrom n (x + 1) x hn.2 (by omega)]
      · have := h x
        simpa only [Memory.read, if_neg hx] using this

/-- Equal memories are equal data: two canonical memories that read alike everywhere are the same list. -/
theorem Memory.ext_of_wf (m n : Memory) (hm : m.wf = true) (hn : n.wf = true) (h : ∀ x, m.read x = n.read x) : m = n :=
  Memory.ext_of_risesFrom m n 0 hm hn h

/-- The memory after reset is canonical. -/
theorem reset_memory_wf : State.reset.ibuf.wf = true ∧ State.reset.obuf.wf = true := ⟨rfl, rfl⟩

/-- The memory after a reset with any contents is canonical. -/
theorem resetWith_memory_wf (s : State) (d : ResetDraw) :
    (s.resetWith d).ibuf.wf = true ∧ (s.resetWith d).obuf.wf = true :=
  ⟨Memory.wf_writeRange _ _ _ rfl, Memory.wf_writeRange _ _ _ rfl⟩

/-! ### The bounds -/

theorem Memory.mem_insertCell (m : Memory) (x : Nat) (v : Byte) (c : Host.Cell) (h : c ∈ m.insertCell x v) : c = (x, v) ∨ c ∈ m := by
  induction m with
  | nil => simpa [Memory.insertCell] using h
  | cons d m ih =>
    obtain ⟨a, b⟩ := d
    rw [Memory.insertCell] at h
    split at h
    · simpa using h
    · rcases List.mem_cons.mp h with h | h
      · exact .inr (by simp [h])
      · rcases ih h with h | h
        · exact .inl h
        · exact .inr (by simp [h])

/-- A write of one byte below a bound keeps every listed address below it. -/
theorem Memory.below_write (m : Memory) (x cap : Nat) (v : Byte) (hx : x < cap) (h : m.below cap = true) :
    (m.write x v).below cap = true := by
  simp only [Memory.below, List.all_eq_true, decide_eq_true_eq] at *
  intro c hc
  rw [Memory.write] at hc
  split at hc
  · exact h c (List.mem_filter.mp hc).1
  · rcases Memory.mem_insertCell _ _ _ _ hc with rfl | hc
    · exact hx
    · exact h c (List.mem_filter.mp hc).1

/-- A write of several bytes below a bound keeps every listed address below it. -/
theorem Memory.below_writeRange (m : Memory) (x cap : Nat) (bs : List Byte) (hx : x + bs.length ≤ cap)
    (h : m.below cap = true) : (m.writeRange x bs).below cap = true := by
  induction bs generalizing m x with
  | nil => exact h
  | cons b bs ih =>
    simp only [List.length_cons] at hx
    exact ih _ _ (by omega) (Memory.below_write _ _ _ _ (by omega) h)

end Sys2Proof.Machine
end

