-- ==== Sys2Proof/Laws/State.lean ====
section
/-! SUPPORT. What every named update of the state does to every field, and to the values the commands read out of
the state; all of it is `simp` lemmas, so that no later proof unfolds a record update. -/

namespace Sys2Proof.Machine

/-! ### `raise` -/

@[simp] theorem State.raise_key (s : State) (e : ErrorKind) : (s.raise e).key = s.key := rfl
@[simp] theorem State.raise_klen (s : State) (e : ErrorKind) : (s.raise e).klen = s.klen := rfl
@[simp] theorem State.raise_w (s : State) (e : ErrorKind) : (s.raise e).w = s.w := rfl
@[simp] theorem State.raise_nr (s : State) (e : ErrorKind) : (s.raise e).nr = s.nr := rfl
@[simp] theorem State.raise_st (s : State) (e : ErrorKind) : (s.raise e).st = s.st := rfl
@[simp] theorem State.raise_iv (s : State) (e : ErrorKind) : (s.raise e).iv = s.iv := rfl
@[simp] theorem State.raise_ctrl (s : State) (e : ErrorKind) : (s.raise e).ctrl = s.ctrl := rfl
@[simp] theorem State.raise_ibuf (s : State) (e : ErrorKind) : (s.raise e).ibuf = s.ibuf := rfl
@[simp] theorem State.raise_ilen (s : State) (e : ErrorKind) : (s.raise e).ilen = s.ilen := rfl
@[simp] theorem State.raise_obuf (s : State) (e : ErrorKind) : (s.raise e).obuf = s.obuf := rfl
@[simp] theorem State.raise_olen (s : State) (e : ErrorKind) : (s.raise e).olen = s.olen := rfl
@[simp] theorem State.raise_err (s : State) (e : ErrorKind) : (s.raise e).err = errorCode e := rfl
@[simp] theorem State.raise_trace (s : State) (e : ErrorKind) : (s.raise e).trace = s.trace := rfl
@[simp] theorem State.raise_ibufCap (s : State) (e : ErrorKind) : (s.raise e).ibufCap = s.ibufCap := rfl
@[simp] theorem State.raise_host (s : State) (e : ErrorKind) : (s.raise e).host = s.host := rfl
@[simp] theorem State.raise_rdata (s : State) (e : ErrorKind) : (s.raise e).rdata = s.rdata := rfl

/-! ### `succeed` -/

@[simp] theorem State.succeed_key (s : State) : (s.succeed).key = s.key := rfl
@[simp] theorem State.succeed_klen (s : State) : (s.succeed).klen = s.klen := rfl
@[simp] theorem State.succeed_w (s : State) : (s.succeed).w = s.w := rfl
@[simp] theorem State.succeed_nr (s : State) : (s.succeed).nr = s.nr := rfl
@[simp] theorem State.succeed_st (s : State) : (s.succeed).st = s.st := rfl
@[simp] theorem State.succeed_iv (s : State) : (s.succeed).iv = s.iv := rfl
@[simp] theorem State.succeed_ctrl (s : State) : (s.succeed).ctrl = s.ctrl := rfl
@[simp] theorem State.succeed_ibuf (s : State) : (s.succeed).ibuf = s.ibuf := rfl
@[simp] theorem State.succeed_ilen (s : State) : (s.succeed).ilen = s.ilen := rfl
@[simp] theorem State.succeed_obuf (s : State) : (s.succeed).obuf = s.obuf := rfl
@[simp] theorem State.succeed_olen (s : State) : (s.succeed).olen = s.olen := rfl
@[simp] theorem State.succeed_err (s : State) : (s.succeed).err = noError := rfl
@[simp] theorem State.succeed_trace (s : State) : (s.succeed).trace = s.trace := rfl
@[simp] theorem State.succeed_ibufCap (s : State) : (s.succeed).ibufCap = s.ibufCap := rfl
@[simp] theorem State.succeed_host (s : State) : (s.succeed).host = s.host := rfl
@[simp] theorem State.succeed_rdata (s : State) : (s.succeed).rdata = s.rdata := rfl

/-! ### `setKey` -/

@[simp] theorem State.setKey_key (s : State) (v : Bytes 32) : (s.setKey v).key = v := rfl
@[simp] theorem State.setKey_klen (s : State) (v : Bytes 32) : (s.setKey v).klen = s.klen := rfl
@[simp] theorem State.setKey_w (s : State) (v : Bytes 32) : (s.setKey v).w = s.w := rfl
@[simp] theorem State.setKey_nr (s : State) (v : Bytes 32) : (s.setKey v).nr = s.nr := rfl
@[simp] theorem State.setKey_st (s : State) (v : Bytes 32) : (s.setKey v).st = s.st := rfl
@[simp] theorem State.setKey_iv (s : State) (v : Bytes 32) : (s.setKey v).iv = s.iv := rfl
@[simp] theorem State.setKey_ctrl (s : State) (v : Bytes 32) : (s.setKey v).ctrl = s.ctrl := rfl
@[simp] theorem State.setKey_ibuf (s : State) (v : Bytes 32) : (s.setKey v).ibuf = s.ibuf := rfl
@[simp] theorem State.setKey_ilen (s : State) (v : Bytes 32) : (s.setKey v).ilen = s.ilen := rfl
@[simp] theorem State.setKey_obuf (s : State) (v : Bytes 32) : (s.setKey v).obuf = s.obuf := rfl
@[simp] theorem State.setKey_olen (s : State) (v : Bytes 32) : (s.setKey v).olen = s.olen := rfl
@[simp] theorem State.setKey_err (s : State) (v : Bytes 32) : (s.setKey v).err = s.err := rfl
@[simp] theorem State.setKey_trace (s : State) (v : Bytes 32) : (s.setKey v).trace = s.trace := rfl
@[simp] theorem State.setKey_ibufCap (s : State) (v : Bytes 32) : (s.setKey v).ibufCap = s.ibufCap := rfl
@[simp] theorem State.setKey_host (s : State) (v : Bytes 32) : (s.setKey v).host = s.host := rfl
@[simp] theorem State.setKey_rdata (s : State) (v : Bytes 32) : (s.setKey v).rdata = s.rdata := rfl

/-! ### `setKlen` -/

@[simp] theorem State.setKlen_key (s : State) (v : Byte) : (s.setKlen v).key = s.key := rfl
@[simp] theorem State.setKlen_klen (s : State) (v : Byte) : (s.setKlen v).klen = v := rfl
@[simp] theorem State.setKlen_w (s : State) (v : Byte) : (s.setKlen v).w = s.w := rfl
@[simp] theorem State.setKlen_nr (s : State) (v : Byte) : (s.setKlen v).nr = s.nr := rfl
@[simp] theorem State.setKlen_st (s : State) (v : Byte) : (s.setKlen v).st = s.st := rfl
@[simp] theorem State.setKlen_iv (s : State) (v : Byte) : (s.setKlen v).iv = s.iv := rfl
@[simp] theorem State.setKlen_ctrl (s : State) (v : Byte) : (s.setKlen v).ctrl = s.ctrl := rfl
@[simp] theorem State.setKlen_ibuf (s : State) (v : Byte) : (s.setKlen v).ibuf = s.ibuf := rfl
@[simp] theorem State.setKlen_ilen (s : State) (v : Byte) : (s.setKlen v).ilen = s.ilen := rfl
@[simp] theorem State.setKlen_obuf (s : State) (v : Byte) : (s.setKlen v).obuf = s.obuf := rfl
@[simp] theorem State.setKlen_olen (s : State) (v : Byte) : (s.setKlen v).olen = s.olen := rfl
@[simp] theorem State.setKlen_err (s : State) (v : Byte) : (s.setKlen v).err = s.err := rfl
@[simp] theorem State.setKlen_trace (s : State) (v : Byte) : (s.setKlen v).trace = s.trace := rfl
@[simp] theorem State.setKlen_ibufCap (s : State) (v : Byte) : (s.setKlen v).ibufCap = s.ibufCap := rfl
@[simp] theorem State.setKlen_host (s : State) (v : Byte) : (s.setKlen v).host = s.host := rfl
@[simp] theorem State.setKlen_rdata (s : State) (v : Byte) : (s.setKlen v).rdata = s.rdata := rfl

/-! ### `setSchedule` -/

@[simp] theorem State.setSchedule_key (s : State) (w : Bytes 240) (n : Byte) : (s.setSchedule w n).key = s.key := rfl
@[simp] theorem State.setSchedule_klen (s : State) (w : Bytes 240) (n : Byte) : (s.setSchedule w n).klen = s.klen := rfl
@[simp] theorem State.setSchedule_w (s : State) (w : Bytes 240) (n : Byte) : (s.setSchedule w n).w = w := rfl
@[simp] theorem State.setSchedule_nr (s : State) (w : Bytes 240) (n : Byte) : (s.setSchedule w n).nr = n := rfl
@[simp] theorem State.setSchedule_st (s : State) (w : Bytes 240) (n : Byte) : (s.setSchedule w n).st = s.st := rfl
@[simp] theorem State.setSchedule_iv (s : State) (w : Bytes 240) (n : Byte) : (s.setSchedule w n).iv = s.iv := rfl
@[simp] theorem State.setSchedule_ctrl (s : State) (w : Bytes 240) (n : Byte) : (s.setSchedule w n).ctrl = s.ctrl := rfl
@[simp] theorem State.setSchedule_ibuf (s : State) (w : Bytes 240) (n : Byte) : (s.setSchedule w n).ibuf = s.ibuf := rfl
@[simp] theorem State.setSchedule_ilen (s : State) (w : Bytes 240) (n : Byte) : (s.setSchedule w n).ilen = s.ilen := rfl
@[simp] theorem State.setSchedule_obuf (s : State) (w : Bytes 240) (n : Byte) : (s.setSchedule w n).obuf = s.obuf := rfl
@[simp] theorem State.setSchedule_olen (s : State) (w : Bytes 240) (n : Byte) : (s.setSchedule w n).olen = s.olen := rfl
@[simp] theorem State.setSchedule_err (s : State) (w : Bytes 240) (n : Byte) : (s.setSchedule w n).err = s.err := rfl
@[simp] theorem State.setSchedule_trace (s : State) (w : Bytes 240) (n : Byte) : (s.setSchedule w n).trace = s.trace := rfl
@[simp] theorem State.setSchedule_ibufCap (s : State) (w : Bytes 240) (n : Byte) : (s.setSchedule w n).ibufCap = s.ibufCap := rfl
@[simp] theorem State.setSchedule_host (s : State) (w : Bytes 240) (n : Byte) : (s.setSchedule w n).host = s.host := rfl
@[simp] theorem State.setSchedule_rdata (s : State) (w : Bytes 240) (n : Byte) : (s.setSchedule w n).rdata = s.rdata := rfl

/-! ### `setSt` -/

@[simp] theorem State.setSt_key (s : State) (v : Block) : (s.setSt v).key = s.key := rfl
@[simp] theorem State.setSt_klen (s : State) (v : Block) : (s.setSt v).klen = s.klen := rfl
@[simp] theorem State.setSt_w (s : State) (v : Block) : (s.setSt v).w = s.w := rfl
@[simp] theorem State.setSt_nr (s : State) (v : Block) : (s.setSt v).nr = s.nr := rfl
@[simp] theorem State.setSt_st (s : State) (v : Block) : (s.setSt v).st = v := rfl
@[simp] theorem State.setSt_iv (s : State) (v : Block) : (s.setSt v).iv = s.iv := rfl
@[simp] theorem State.setSt_ctrl (s : State) (v : Block) : (s.setSt v).ctrl = s.ctrl := rfl
@[simp] theorem State.setSt_ibuf (s : State) (v : Block) : (s.setSt v).ibuf = s.ibuf := rfl
@[simp] theorem State.setSt_ilen (s : State) (v : Block) : (s.setSt v).ilen = s.ilen := rfl
@[simp] theorem State.setSt_obuf (s : State) (v : Block) : (s.setSt v).obuf = s.obuf := rfl
@[simp] theorem State.setSt_olen (s : State) (v : Block) : (s.setSt v).olen = s.olen := rfl
@[simp] theorem State.setSt_err (s : State) (v : Block) : (s.setSt v).err = s.err := rfl
@[simp] theorem State.setSt_trace (s : State) (v : Block) : (s.setSt v).trace = s.trace := rfl
@[simp] theorem State.setSt_ibufCap (s : State) (v : Block) : (s.setSt v).ibufCap = s.ibufCap := rfl
@[simp] theorem State.setSt_host (s : State) (v : Block) : (s.setSt v).host = s.host := rfl
@[simp] theorem State.setSt_rdata (s : State) (v : Block) : (s.setSt v).rdata = s.rdata := rfl

/-! ### `setIv` -/

@[simp] theorem State.setIv_key (s : State) (v : Block) : (s.setIv v).key = s.key := rfl
@[simp] theorem State.setIv_klen (s : State) (v : Block) : (s.setIv v).klen = s.klen := rfl
@[simp] theorem State.setIv_w (s : State) (v : Block) : (s.setIv v).w = s.w := rfl
@[simp] theorem State.setIv_nr (s : State) (v : Block) : (s.setIv v).nr = s.nr := rfl
@[simp] theorem State.setIv_st (s : State) (v : Block) : (s.setIv v).st = s.st := rfl
@[simp] theorem State.setIv_iv (s : State) (v : Block) : (s.setIv v).iv = v := rfl
@[simp] theorem State.setIv_ctrl (s : State) (v : Block) : (s.setIv v).ctrl = s.ctrl := rfl
@[simp] theorem State.setIv_ibuf (s : State) (v : Block) : (s.setIv v).ibuf = s.ibuf := rfl
@[simp] theorem State.setIv_ilen (s : State) (v : Block) : (s.setIv v).ilen = s.ilen := rfl
@[simp] theorem State.setIv_obuf (s : State) (v : Block) : (s.setIv v).obuf = s.obuf := rfl
@[simp] theorem State.setIv_olen (s : State) (v : Block) : (s.setIv v).olen = s.olen := rfl
@[simp] theorem State.setIv_err (s : State) (v : Block) : (s.setIv v).err = s.err := rfl
@[simp] theorem State.setIv_trace (s : State) (v : Block) : (s.setIv v).trace = s.trace := rfl
@[simp] theorem State.setIv_ibufCap (s : State) (v : Block) : (s.setIv v).ibufCap = s.ibufCap := rfl
@[simp] theorem State.setIv_host (s : State) (v : Block) : (s.setIv v).host = s.host := rfl
@[simp] theorem State.setIv_rdata (s : State) (v : Block) : (s.setIv v).rdata = s.rdata := rfl

/-! ### `setCtrl` -/

@[simp] theorem State.setCtrl_key (s : State) (v : Byte) : (s.setCtrl v).key = s.key := rfl
@[simp] theorem State.setCtrl_klen (s : State) (v : Byte) : (s.setCtrl v).klen = s.klen := rfl
@[simp] theorem State.setCtrl_w (s : State) (v : Byte) : (s.setCtrl v).w = s.w := rfl
@[simp] theorem State.setCtrl_nr (s : State) (v : Byte) : (s.setCtrl v).nr = s.nr := rfl
@[simp] theorem State.setCtrl_st (s : State) (v : Byte) : (s.setCtrl v).st = s.st := rfl
@[simp] theorem State.setCtrl_iv (s : State) (v : Byte) : (s.setCtrl v).iv = s.iv := rfl
@[simp] theorem State.setCtrl_ctrl (s : State) (v : Byte) : (s.setCtrl v).ctrl = ctrlWritten v := rfl
@[simp] theorem State.setCtrl_ibuf (s : State) (v : Byte) : (s.setCtrl v).ibuf = s.ibuf := rfl
@[simp] theorem State.setCtrl_ilen (s : State) (v : Byte) : (s.setCtrl v).ilen = s.ilen := rfl
@[simp] theorem State.setCtrl_obuf (s : State) (v : Byte) : (s.setCtrl v).obuf = s.obuf := rfl
@[simp] theorem State.setCtrl_olen (s : State) (v : Byte) : (s.setCtrl v).olen = s.olen := rfl
@[simp] theorem State.setCtrl_err (s : State) (v : Byte) : (s.setCtrl v).err = s.err := rfl
@[simp] theorem State.setCtrl_trace (s : State) (v : Byte) : (s.setCtrl v).trace = s.trace := rfl
@[simp] theorem State.setCtrl_ibufCap (s : State) (v : Byte) : (s.setCtrl v).ibufCap = s.ibufCap := rfl
@[simp] theorem State.setCtrl_host (s : State) (v : Byte) : (s.setCtrl v).host = s.host := rfl
@[simp] theorem State.setCtrl_rdata (s : State) (v : Byte) : (s.setCtrl v).rdata = s.rdata := rfl

/-! ### `setIbuf` -/

@[simp] theorem State.setIbuf_key (s : State) (x : Nat) (bs : List Byte) : (s.setIbuf x bs).key = s.key := rfl
@[simp] theorem State.setIbuf_klen (s : State) (x : Nat) (bs : List Byte) : (s.setIbuf x bs).klen = s.klen := rfl
@[simp] theorem State.setIbuf_w (s : State) (x : Nat) (bs : List Byte) : (s.setIbuf x bs).w = s.w := rfl
@[simp] theorem State.setIbuf_nr (s : State) (x : Nat) (bs : List Byte) : (s.setIbuf x bs).nr = s.nr := rfl
@[simp] theorem State.setIbuf_st (s : State) (x : Nat) (bs : List Byte) : (s.setIbuf x bs).st = s.st := rfl
@[simp] theorem State.setIbuf_iv (s : State) (x : Nat) (bs : List Byte) : (s.setIbuf x bs).iv = s.iv := rfl
@[simp] theorem State.setIbuf_ctrl (s : State) (x : Nat) (bs : List Byte) : (s.setIbuf x bs).ctrl = s.ctrl := rfl
@[simp] theorem State.setIbuf_ibuf (s : State) (x : Nat) (bs : List Byte) : (s.setIbuf x bs).ibuf = s.ibuf.writeRange x bs := rfl
@[simp] theorem State.setIbuf_ilen (s : State) (x : Nat) (bs : List Byte) : (s.setIbuf x bs).ilen = s.ilen := rfl
@[simp] theorem State.setIbuf_obuf (s : State) (x : Nat) (bs : List Byte) : (s.setIbuf x bs).obuf = s.obuf := rfl
@[simp] theorem State.setIbuf_olen (s : State) (x : Nat) (bs : List Byte) : (s.setIbuf x bs).olen = s.olen := rfl
@[simp] theorem State.setIbuf_err (s : State) (x : Nat) (bs : List Byte) : (s.setIbuf x bs).err = s.err := rfl
@[simp] theorem State.setIbuf_trace (s : State) (x : Nat) (bs : List Byte) : (s.setIbuf x bs).trace = s.trace := rfl
@[simp] theorem State.setIbuf_ibufCap (s : State) (x : Nat) (bs : List Byte) : (s.setIbuf x bs).ibufCap = s.ibufCap := rfl
@[simp] theorem State.setIbuf_host (s : State) (x : Nat) (bs : List Byte) : (s.setIbuf x bs).host = s.host := rfl
@[simp] theorem State.setIbuf_rdata (s : State) (x : Nat) (bs : List Byte) : (s.setIbuf x bs).rdata = s.rdata := rfl

/-! ### `setIlen` -/

@[simp] theorem State.setIlen_key (s : State) (v : BitVec 32) : (s.setIlen v).key = s.key := rfl
@[simp] theorem State.setIlen_klen (s : State) (v : BitVec 32) : (s.setIlen v).klen = s.klen := rfl
@[simp] theorem State.setIlen_w (s : State) (v : BitVec 32) : (s.setIlen v).w = s.w := rfl
@[simp] theorem State.setIlen_nr (s : State) (v : BitVec 32) : (s.setIlen v).nr = s.nr := rfl
@[simp] theorem State.setIlen_st (s : State) (v : BitVec 32) : (s.setIlen v).st = s.st := rfl
@[simp] theorem State.setIlen_iv (s : State) (v : BitVec 32) : (s.setIlen v).iv = s.iv := rfl
@[simp] theorem State.setIlen_ctrl (s : State) (v : BitVec 32) : (s.setIlen v).ctrl = s.ctrl := rfl
@[simp] theorem State.setIlen_ibuf (s : State) (v : BitVec 32) : (s.setIlen v).ibuf = s.ibuf := rfl
@[simp] theorem State.setIlen_ilen (s : State) (v : BitVec 32) : (s.setIlen v).ilen = v := rfl
@[simp] theorem State.setIlen_obuf (s : State) (v : BitVec 32) : (s.setIlen v).obuf = s.obuf := rfl
@[simp] theorem State.setIlen_olen (s : State) (v : BitVec 32) : (s.setIlen v).olen = s.olen := rfl
@[simp] theorem State.setIlen_err (s : State) (v : BitVec 32) : (s.setIlen v).err = s.err := rfl
@[simp] theorem State.setIlen_trace (s : State) (v : BitVec 32) : (s.setIlen v).trace = s.trace := rfl
@[simp] theorem State.setIlen_ibufCap (s : State) (v : BitVec 32) : (s.setIlen v).ibufCap = s.ibufCap := rfl
@[simp] theorem State.setIlen_host (s : State) (v : BitVec 32) : (s.setIlen v).host = s.host := rfl
@[simp] theorem State.setIlen_rdata (s : State) (v : BitVec 32) : (s.setIlen v).rdata = s.rdata := rfl

/-! ### `setOutput` -/

@[simp] theorem State.setOutput_key (s : State) (bs : List Byte) : (s.setOutput bs).key = s.key := rfl
@[simp] theorem State.setOutput_klen (s : State) (bs : List Byte) : (s.setOutput bs).klen = s.klen := rfl
@[simp] theorem State.setOutput_w (s : State) (bs : List Byte) : (s.setOutput bs).w = s.w := rfl
@[simp] theorem State.setOutput_nr (s : State) (bs : List Byte) : (s.setOutput bs).nr = s.nr := rfl
@[simp] theorem State.setOutput_st (s : State) (bs : List Byte) : (s.setOutput bs).st = s.st := rfl
@[simp] theorem State.setOutput_iv (s : State) (bs : List Byte) : (s.setOutput bs).iv = s.iv := rfl
@[simp] theorem State.setOutput_ctrl (s : State) (bs : List Byte) : (s.setOutput bs).ctrl = s.ctrl := rfl
@[simp] theorem State.setOutput_ibuf (s : State) (bs : List Byte) : (s.setOutput bs).ibuf = s.ibuf := rfl
@[simp] theorem State.setOutput_ilen (s : State) (bs : List Byte) : (s.setOutput bs).ilen = s.ilen := rfl
@[simp] theorem State.setOutput_obuf (s : State) (bs : List Byte) : (s.setOutput bs).obuf = s.obuf.writeRange 0 bs := rfl
@[simp] theorem State.setOutput_olen (s : State) (bs : List Byte) : (s.setOutput bs).olen = BitVec.ofNat 32 bs.length := rfl
@[simp] theorem State.setOutput_err (s : State) (bs : List Byte) : (s.setOutput bs).err = s.err := rfl
@[simp] theorem State.setOutput_trace (s : State) (bs : List Byte) : (s.setOutput bs).trace = s.trace := rfl
@[simp] theorem State.setOutput_ibufCap (s : State) (bs : List Byte) : (s.setOutput bs).ibufCap = s.ibufCap := rfl
@[simp] theorem State.setOutput_host (s : State) (bs : List Byte) : (s.setOutput bs).host = s.host := rfl
@[simp] theorem State.setOutput_rdata (s : State) (bs : List Byte) : (s.setOutput bs).rdata = s.rdata := rfl

/-! ### `setRdata` -/

@[simp] theorem State.setRdata_key (s : State) (bs : List Byte) : (s.setRdata bs).key = s.key := rfl
@[simp] theorem State.setRdata_klen (s : State) (bs : List Byte) : (s.setRdata bs).klen = s.klen := rfl
@[simp] theorem State.setRdata_w (s : State) (bs : List Byte) : (s.setRdata bs).w = s.w := rfl
@[simp] theorem State.setRdata_nr (s : State) (bs : List Byte) : (s.setRdata bs).nr = s.nr := rfl
@[simp] theorem State.setRdata_st (s : State) (bs : List Byte) : (s.setRdata bs).st = s.st := rfl
@[simp] theorem State.setRdata_iv (s : State) (bs : List Byte) : (s.setRdata bs).iv = s.iv := rfl
@[simp] theorem State.setRdata_ctrl (s : State) (bs : List Byte) : (s.setRdata bs).ctrl = s.ctrl := rfl
@[simp] theorem State.setRdata_ibuf (s : State) (bs : List Byte) : (s.setRdata bs).ibuf = s.ibuf := rfl
@[simp] theorem State.setRdata_ilen (s : State) (bs : List Byte) : (s.setRdata bs).ilen = s.ilen := rfl
@[simp] theorem State.setRdata_obuf (s : State) (bs : List Byte) : (s.setRdata bs).obuf = s.obuf := rfl
@[simp] theorem State.setRdata_olen (s : State) (bs : List Byte) : (s.setRdata bs).olen = s.olen := rfl
@[simp] theorem State.setRdata_err (s : State) (bs : List Byte) : (s.setRdata bs).err = s.err := rfl
@[simp] theorem State.setRdata_trace (s : State) (bs : List Byte) : (s.setRdata bs).trace = s.trace := rfl
@[simp] theorem State.setRdata_ibufCap (s : State) (bs : List Byte) : (s.setRdata bs).ibufCap = s.ibufCap := rfl
@[simp] theorem State.setRdata_host (s : State) (bs : List Byte) : (s.setRdata bs).host = s.host := rfl
@[simp] theorem State.setRdata_rdata (s : State) (bs : List Byte) : (s.setRdata bs).rdata = bs := rfl

/-! ### `setHost` -/

@[simp] theorem State.setHost_key (s : State) (as : List HostAction) : (s.setHost as).key = s.key := rfl
@[simp] theorem State.setHost_klen (s : State) (as : List HostAction) : (s.setHost as).klen = s.klen := rfl
@[simp] theorem State.setHost_w (s : State) (as : List HostAction) : (s.setHost as).w = s.w := rfl
@[simp] theorem State.setHost_nr (s : State) (as : List HostAction) : (s.setHost as).nr = s.nr := rfl
@[simp] theorem State.setHost_st (s : State) (as : List HostAction) : (s.setHost as).st = s.st := rfl
@[simp] theorem State.setHost_iv (s : State) (as : List HostAction) : (s.setHost as).iv = s.iv := rfl
@[simp] theorem State.setHost_ctrl (s : State) (as : List HostAction) : (s.setHost as).ctrl = s.ctrl := rfl
@[simp] theorem State.setHost_ibuf (s : State) (as : List HostAction) : (s.setHost as).ibuf = s.ibuf := rfl
@[simp] theorem State.setHost_ilen (s : State) (as : List HostAction) : (s.setHost as).ilen = s.ilen := rfl
@[simp] theorem State.setHost_obuf (s : State) (as : List HostAction) : (s.setHost as).obuf = s.obuf := rfl
@[simp] theorem State.setHost_olen (s : State) (as : List HostAction) : (s.setHost as).olen = s.olen := rfl
@[simp] theorem State.setHost_err (s : State) (as : List HostAction) : (s.setHost as).err = s.err := rfl
@[simp] theorem State.setHost_trace (s : State) (as : List HostAction) : (s.setHost as).trace = s.trace := rfl
@[simp] theorem State.setHost_ibufCap (s : State) (as : List HostAction) : (s.setHost as).ibufCap = s.ibufCap := rfl
@[simp] theorem State.setHost_host (s : State) (as : List HostAction) : (s.setHost as).host = as := rfl
@[simp] theorem State.setHost_rdata (s : State) (as : List HostAction) : (s.setHost as).rdata = s.rdata := rfl

/-! ### `emit`, `emitAll` -/

@[simp] theorem State.emit_key (s : State) (e : TraceEntry) : (s.emit e).key = s.key := by
  unfold State.emit; split <;> rfl
@[simp] theorem State.emit_klen (s : State) (e : TraceEntry) : (s.emit e).klen = s.klen := by
  unfold State.emit; split <;> rfl
@[simp] theorem State.emit_w (s : State) (e : TraceEntry) : (s.emit e).w = s.w := by
  unfold State.emit; split <;> rfl
@[simp] theorem State.emit_nr (s : State) (e : TraceEntry) : (s.emit e).nr = s.nr := by
  unfold State.emit; split <;> rfl
@[simp] theorem State.emit_st (s : State) (e : TraceEntry) : (s.emit e).st = s.st := by
  unfold State.emit; split <;> rfl
@[simp] theorem State.emit_iv (s : State) (e : TraceEntry) : (s.emit e).iv = s.iv := by
  unfold State.emit; split <;> rfl
@[simp] theorem State.emit_ctrl (s : State) (e : TraceEntry) : (s.emit e).ctrl = s.ctrl := by
  unfold State.emit; split <;> rfl
@[simp] theorem State.emit_ibuf (s : State) (e : TraceEntry) : (s.emit e).ibuf = s.ibuf := by
  unfold State.emit; split <;> rfl
@[simp] theorem State.emit_ilen (s : State) (e : TraceEntry) : (s.emit e).ilen = s.ilen := by
  unfold State.emit; split <;> rfl
@[simp] theorem State.emit_obuf (s : State) (e : TraceEntry) : (s.emit e).obuf = s.obuf := by
  unfold State.emit; split <;> rfl
@[simp] theorem State.emit_olen (s : State) (e : TraceEntry) : (s.emit e).olen = s.olen := by
  unfold State.emit; split <;> rfl
@[simp] theorem State.emit_err (s : State) (e : TraceEntry) : (s.emit e).err = s.err := by
  unfold State.emit; split <;> rfl
@[simp] theorem State.emit_ibufCap (s : State) (e : TraceEntry) : (s.emit e).ibufCap = s.ibufCap := by
  unfold State.emit; split <;> rfl
@[simp] theorem State.emit_host (s : State) (e : TraceEntry) : (s.emit e).host = s.host := by
  unfold State.emit; split <;> rfl
@[simp] theorem State.emit_rdata (s : State) (e : TraceEntry) : (s.emit e).rdata = s.rdata := by
  unfold State.emit; split <;> rfl

/-- All that `emit` does (R198). -/
@[simp] theorem State.emit_trace (s : State) (e : TraceEntry) :
    (s.emit e).trace = s.trace ++ (if s.tren then [e] else []) := by
  unfold State.emit; split <;> simp

@[simp] theorem State.emit_tren (s : State) (e : TraceEntry) : (s.emit e).tren = s.tren := by
  simp [State.tren]

@[simp] theorem State.emitAll_key (s : State) (es : List TraceEntry) : (s.emitAll es).key = s.key := by
  induction es generalizing s with
  | nil => rfl
  | cons e es ih => simp [State.emitAll, ih]
@[simp] theorem State.emitAll_klen (s : State) (es : List TraceEntry) : (s.emitAll es).klen = s.klen := by
  induction es generalizing s with
  | nil => rfl
  | cons e es ih => simp [State.emitAll, ih]
@[simp] theorem State.emitAll_w (s : State) (es : List TraceEntry) : (s.emitAll es).w = s.w := by
  induction es generalizing s with
  | nil => rfl
  | cons e es ih => simp [State.emitAll, ih]
@[simp] theorem State.emitAll_nr (s : State) (es : List TraceEntry) : (s.emitAll es).nr = s.nr := by
  induction es generalizing s with
  | nil => rfl
  | cons e es ih => simp [State.emitAll, ih]
@[simp] theorem State.emitAll_st (s : State) (es : List TraceEntry) : (s.emitAll es).st = s.st := by
  induction es generalizing s with
  | nil => rfl
  | cons e es ih => simp [State.emitAll, ih]
@[simp] theorem State.emitAll_iv (s : State) (es : List TraceEntry) : (s.emitAll es).iv = s.iv := by
  induction es generalizing s with
  | nil => rfl
  | cons e es ih => simp [State.emitAll, ih]
@[simp] theorem State.emitAll_ctrl (s : State) (es : List TraceEntry) : (s.emitAll es).ctrl = s.ctrl := by
  induction es generalizing s with
  | nil => rfl
  | cons e es ih => simp [State.emitAll, ih]
@[simp] theorem State.emitAll_ibuf (s : State) (es : List TraceEntry) : (s.emitAll es).ibuf = s.ibuf := by
  induction es generalizing s with
  | nil => rfl
  | cons e es ih => simp [State.emitAll, ih]
@[simp] theorem State.emitAll_ilen (s : State) (es : List TraceEntry) : (s.emitAll es).ilen = s.ilen := by
  induction es generalizing s with
  | nil => rfl
  | cons e es ih => simp [State.emitAll, ih]
@[simp] theorem State.emitAll_obuf (s : State) (es : List TraceEntry) : (s.emitAll es).obuf = s.obuf := by
  induction es generalizing s with
  | nil => rfl
  | cons e es ih => simp [State.emitAll, ih]
@[simp] theorem State.emitAll_olen (s : State) (es : List TraceEntry) : (s.emitAll es).olen = s.olen := by
  induction es generalizing s with
  | nil => rfl
  | cons e es ih => simp [State.emitAll, ih]
@[simp] theorem State.emitAll_err (s : State) (es : List TraceEntry) : (s.emitAll es).err = s.err := by
  induction es generalizing s with
  | nil => rfl
  | cons e es ih => simp [State.emitAll, ih]
@[simp] theorem State.emitAll_ibufCap (s : State) (es : List TraceEntry) : (s.emitAll es).ibufCap = s.ibufCap := by
  induction es generalizing s with
  | nil => rfl
  | cons e es ih => simp [State.emitAll, ih]
@[simp] theorem State.emitAll_host (s : State) (es : List TraceEntry) : (s.emitAll es).host = s.host := by
  induction es generalizing s with
  | nil => rfl
  | cons e es ih => simp [State.emitAll, ih]
@[simp] theorem State.emitAll_rdata (s : State) (es : List TraceEntry) : (s.emitAll es).rdata = s.rdata := by
  induction es generalizing s with
  | nil => rfl
  | cons e es ih => simp [State.emitAll, ih]

/-- All that `emitAll` does (R198, R201). -/
@[simp] theorem State.emitAll_trace (s : State) (es : List TraceEntry) :
    (s.emitAll es).trace = s.trace ++ (if s.tren then es else []) := by
  induction es generalizing s with
  | nil => simp [State.emitAll]
  | cons e es ih => rw [State.emitAll, ih]; cases h : s.tren <;> simp [h]

/-! ### The values that commands read out of the state -/

@[simp] theorem State.raise_tren (s : State) (e : ErrorKind) : (s.raise e).tren = s.tren := rfl
@[simp] theorem State.raise_ivv (s : State) (e : ErrorKind) : (s.raise e).ivv = s.ivv := rfl
@[simp] theorem State.raise_ctrlRead (s : State) (e : ErrorKind) : (s.raise e).ctrlRead = s.ctrlRead := rfl
@[simp] theorem State.raise_keyInUse (s : State) (e : ErrorKind) : (s.raise e).keyInUse = s.keyInUse := rfl
@[simp] theorem State.raise_keyLengthLegal (s : State) (e : ErrorKind) : (s.raise e).keyLengthLegal = s.keyLengthLegal := rfl
@[simp] theorem State.raise_message (s : State) (e : ErrorKind) : (s.raise e).message = s.message := rfl
@[simp] theorem State.raise_output (s : State) (e : ErrorKind) : (s.raise e).output = s.output := rfl
@[simp] theorem State.raise_roundKey (s : State) (e : ErrorKind) : (s.raise e).roundKey = s.roundKey := rfl
@[simp] theorem State.raise_encrypt (s : State) (e : ErrorKind) : (s.raise e).encrypt = s.encrypt := rfl
@[simp] theorem State.raise_scheduleWord (s : State) (e : ErrorKind) : (s.raise e).scheduleWord = s.scheduleWord := rfl
@[simp] theorem State.succeed_tren (s : State) : (s.succeed).tren = s.tren := rfl
@[simp] theorem State.succeed_ivv (s : State) : (s.succeed).ivv = s.ivv := rfl
@[simp] theorem State.succeed_ctrlRead (s : State) : (s.succeed).ctrlRead = s.ctrlRead := rfl
@[simp] theorem State.succeed_keyInUse (s : State) : (s.succeed).keyInUse = s.keyInUse := rfl
@[simp] theorem State.succeed_keyLengthLegal (s : State) : (s.succeed).keyLengthLegal = s.keyLengthLegal := rfl
@[simp] theorem State.succeed_message (s : State) : (s.succeed).message = s.message := rfl
@[simp] theorem State.succeed_output (s : State) : (s.succeed).output = s.output := rfl
@[simp] theorem State.succeed_roundKey (s : State) : (s.succeed).roundKey = s.roundKey := rfl
@[simp] theorem State.succeed_encrypt (s : State) : (s.succeed).encrypt = s.encrypt := rfl
@[simp] theorem State.succeed_scheduleWord (s : State) : (s.succeed).scheduleWord = s.scheduleWord := rfl
@[simp] theorem State.setKey_tren (s : State) (v : Bytes 32) : (s.setKey v).tren = s.tren := rfl
@[simp] theorem State.setKey_ivv (s : State) (v : Bytes 32) : (s.setKey v).ivv = s.ivv := rfl
@[simp] theorem State.setKey_ctrlRead (s : State) (v : Bytes 32) : (s.setKey v).ctrlRead = s.ctrlRead := rfl
@[simp] theorem State.setKey_keyLengthLegal (s : State) (v : Bytes 32) : (s.setKey v).keyLengthLegal = s.keyLengthLegal := rfl
@[simp] theorem State.setKey_message (s : State) (v : Bytes 32) : (s.setKey v).message = s.message := rfl
@[simp] theorem State.setKey_output (s : State) (v : Bytes 32) : (s.setKey v).output = s.output := rfl
@[simp] theorem State.setKey_roundKey (s : State) (v : Bytes 32) : (s.setKey v).roundKey = s.roundKey := rfl
@[simp] theorem State.setKey_encrypt (s : State) (v : Bytes 32) : (s.setKey v).encrypt = s.encrypt := rfl
@[simp] theorem State.setKey_scheduleWord (s : State) (v : Bytes 32) : (s.setKey v).scheduleWord = s.scheduleWord := rfl
@[simp] theorem State.setKlen_tren (s : State) (v : Byte) : (s.setKlen v).tren = s.tren := rfl
@[simp] theorem State.setKlen_ivv (s : State) (v : Byte) : (s.setKlen v).ivv = s.ivv := rfl
@[simp] theorem State.setKlen_ctrlRead (s : State) (v : Byte) : (s.setKlen v).ctrlRead = s.ctrlRead := rfl
@[simp] theorem State.setKlen_message (s : State) (v : Byte) : (s.setKlen v).message = s.message := rfl
@[simp] theorem State.setKlen_output (s : State) (v : Byte) : (s.setKlen v).output = s.output := rfl
@[simp] theorem State.setKlen_roundKey (s : State) (v : Byte) : (s.setKlen v).roundKey = s.roundKey := rfl
@[simp] theorem State.setKlen_encrypt (s : State) (v : Byte) : (s.setKlen v).encrypt = s.encrypt := rfl
@[simp] theorem State.setKlen_scheduleWord (s : State) (v : Byte) : (s.setKlen v).scheduleWord = s.scheduleWord := rfl
@[simp] theorem State.setSchedule_tren (s : State) (w : Bytes 240) (n : Byte) : (s.setSchedule w n).tren = s.tren := rfl
@[simp] theorem State.setSchedule_ivv (s : State) (w : Bytes 240) (n : Byte) : (s.setSchedule w n).ivv = s.ivv := rfl
@[simp] theorem State.setSchedule_ctrlRead (s : State) (w : Bytes 240) (n : Byte) : (s.setSchedule w n).ctrlRead = s.ctrlRead := rfl
@[simp] theorem State.setSchedule_keyInUse (s : State) (w : Bytes 240) (n : Byte) : (s.setSchedule w n).keyInUse = s.keyInUse := rfl
@[simp] theorem State.setSchedule_keyLengthLegal (s : State) (w : Bytes 240) (n : Byte) : (s.setSchedule w n).keyLengthLegal = s.keyLengthLegal := rfl
@[simp] theorem State.setSchedule_message (s : State) (w : Bytes 240) (n : Byte) : (s.setSchedule w n).message = s.message := rfl
@[simp] theorem State.setSchedule_output (s : State) (w : Bytes 240) (n : Byte) : (s.setSchedule w n).output = s.output := rfl
@[simp] theorem State.setSt_tren (s : State) (v : Block) : (s.setSt v).tren = s.tren := rfl
@[simp] theorem State.setSt_ivv (s : State) (v : Block) : (s.setSt v).ivv = s.ivv := rfl
@[simp] theorem State.setSt_ctrlRead (s : State) (v : Block) : (s.setSt v).ctrlRead = s.ctrlRead := rfl
@[simp] theorem State.setSt_keyInUse (s : State) (v : Block) : (s.setSt v).keyInUse = s.keyInUse := rfl
@[simp] theorem State.setSt_keyLengthLegal (s : State) (v : Block) : (s.setSt v).keyLengthLegal = s.keyLengthLegal := rfl
@[simp] theorem State.setSt_message (s : State) (v : Block) : (s.setSt v).message = s.message := rfl
@[simp] theorem State.setSt_output (s : State) (v : Block) : (s.setSt v).output = s.output := rfl
@[simp] theorem State.setSt_roundKey (s : State) (v : Block) : (s.setSt v).roundKey = s.roundKey := rfl
@[simp] theorem State.setSt_encrypt (s : State) (v : Block) : (s.setSt v).encrypt = s.encrypt := rfl
@[simp] theorem State.setSt_scheduleWord (s : State) (v : Block) : (s.setSt v).scheduleWord = s.scheduleWord := rfl
@[simp] theorem State.setIv_tren (s : State) (v : Block) : (s.setIv v).tren = s.tren := rfl
@[simp] theorem State.setIv_ivv (s : State) (v : Block) : (s.setIv v).ivv = s.ivv := rfl
@[simp] theorem State.setIv_ctrlRead (s : State) (v : Block) : (s.setIv v).ctrlRead = s.ctrlRead := rfl
@[simp] theorem State.setIv_keyInUse (s : State) (v : Block) : (s.setIv v).keyInUse = s.keyInUse := rfl
@[simp] theorem State.setIv_keyLengthLegal (s : State) (v : Block) : (s.setIv v).keyLengthLegal = s.keyLengthLegal := rfl
@[simp] theorem State.setIv_message (s : State) (v : Block) : (s.setIv v).message = s.message := rfl
@[simp] theorem State.setIv_output (s : State) (v : Block) : (s.setIv v).output = s.output := rfl
@[simp] theorem State.setIv_roundKey (s : State) (v : Block) : (s.setIv v).roundKey = s.roundKey := rfl
@[simp] theorem State.setIv_encrypt (s : State) (v : Block) : (s.setIv v).encrypt = s.encrypt := rfl
@[simp] theorem State.setIv_scheduleWord (s : State) (v : Block) : (s.setIv v).scheduleWord = s.scheduleWord := rfl
@[simp] theorem State.setCtrl_keyInUse (s : State) (v : Byte) : (s.setCtrl v).keyInUse = s.keyInUse := rfl
@[simp] theorem State.setCtrl_keyLengthLegal (s : State) (v : Byte) : (s.setCtrl v).keyLengthLegal = s.keyLengthLegal := rfl
@[simp] theorem State.setCtrl_message (s : State) (v : Byte) : (s.setCtrl v).message = s.message := rfl
@[simp] theorem State.setCtrl_output (s : State) (v : Byte) : (s.setCtrl v).output = s.output := rfl
@[simp] theorem State.setCtrl_roundKey (s : State) (v : Byte) : (s.setCtrl v).roundKey = s.roundKey := rfl
@[simp] theorem State.setCtrl_encrypt (s : State) (v : Byte) : (s.setCtrl v).encrypt = s.encrypt := rfl
@[simp] theorem State.setCtrl_scheduleWord (s : State) (v : Byte) : (s.setCtrl v).scheduleWord = s.scheduleWord := rfl
@[simp] theorem State.setIbuf_tren (s : State) (x : Nat) (bs : List Byte) : (s.setIbuf x bs).tren = s.tren := rfl
@[simp] theorem State.setIbuf_ivv (s : State) (x : Nat) (bs : List Byte) : (s.setIbuf x bs).ivv = s.ivv := rfl
@[simp] theorem State.setIbuf_ctrlRead (s : State) (x : Nat) (bs : List Byte) : (s.setIbuf x bs).ctrlRead = s.ctrlRead := rfl
@[simp] theorem State.setIbuf_keyInUse (s : State) (x : Nat) (bs : List Byte) : (s.setIbuf x bs).keyInUse = s.keyInUse := rfl
@[simp] theorem State.setIbuf_keyLengthLegal (s : State) (x : Nat) (bs : List Byte) : (s.setIbuf x bs).keyLengthLegal = s.keyLengthLegal := rfl
@[simp] theorem State.setIbuf_output (s : State) (x : Nat) (bs : List Byte) : (s.setIbuf x bs).output = s.output := rfl
@[simp] theorem State.setIbuf_roundKey (s : State) (x : Nat) (bs : List Byte) : (s.setIbuf x bs).roundKey = s.roundKey := rfl
@[simp] theorem State.setIbuf_encrypt (s : State) (x : Nat) (bs : List Byte) : (s.setIbuf x bs).encrypt = s.encrypt := rfl
@[simp] theorem State.setIbuf_scheduleWord (s : State) (x : Nat) (bs : List Byte) : (s.setIbuf x bs).scheduleWord = s.scheduleWord := rfl
@[simp] theorem State.setIlen_tren (s : State) (v : BitVec 32) : (s.setIlen v).tren = s.tren := rfl
@[simp] theorem State.setIlen_ivv (s : State) (v : BitVec 32) : (s.setIlen v).ivv = s.ivv := rfl
@[simp] theorem State.setIlen_ctrlRead (s : State) (v : BitVec 32) : (s.setIlen v).ctrlRead = s.ctrlRead := rfl
@[simp] theorem State.setIlen_keyInUse (s : State) (v : BitVec 32) : (s.setIlen v).keyInUse = s.keyInUse := rfl
@[simp] theorem State.setIlen_keyLengthLegal (s : State) (v : BitVec 32) : (s.setIlen v).keyLengthLegal = s.keyLengthLegal := rfl
@[simp] theorem State.setIlen_output (s : State) (v : BitVec 32) : (s.setIlen v).output = s.output := rfl
@[simp] theorem State.setIlen_roundKey (s : State) (v : BitVec 32) : (s.setIlen v).roundKey = s.roundKey := rfl
@[simp] theorem State.setIlen_encrypt (s : State) (v : BitVec 32) : (s.setIlen v).encrypt = s.encrypt := rfl
@[simp] theorem State.setIlen_scheduleWord (s : State) (v : BitVec 32) : (s.setIlen v).scheduleWord = s.scheduleWord := rfl
@[simp] theorem State.setOutput_tren (s : State) (bs : List Byte) : (s.setOutput bs).tren = s.tren := rfl
@[simp] theorem State.setOutput_ivv (s : State) (bs : List Byte) : (s.setOutput bs).ivv = s.ivv := rfl
@[simp] theorem State.setOutput_ctrlRead (s : State) (bs : List Byte) : (s.setOutput bs).ctrlRead = s.ctrlRead := rfl
@[simp] theorem State.setOutput_keyInUse (s : State) (bs : List Byte) : (s.setOutput bs).keyInUse = s.keyInUse := rfl
@[simp] theorem State.setOutput_keyLengthLegal (s : State) (bs : List Byte) : (s.setOutput bs).keyLengthLegal = s.keyLengthLegal := rfl
@[simp] theorem State.setOutput_message (s : State) (bs : List Byte) : (s.setOutput bs).message = s.message := rfl
@[simp] theorem State.setOutput_roundKey (s : State) (bs : List Byte) : (s.setOutput bs).roundKey = s.roundKey := rfl
@[simp] theorem State.setOutput_encrypt (s : State) (bs : List Byte) : (s.setOutput bs).encrypt = s.encrypt := rfl
@[simp] theorem State.setOutput_scheduleWord (s : State) (bs : List Byte) : (s.setOutput bs).scheduleWord = s.scheduleWord := rfl
@[simp] theorem State.setRdata_tren (s : State) (bs : List Byte) : (s.setRdata bs).tren = s.tren := rfl
@[simp] theorem State.setRdata_ivv (s : State) (bs : List Byte) : (s.setRdata bs).ivv = s.ivv := rfl
@[simp] theorem State.setRdata_ctrlRead (s : State) (bs : List Byte) : (s.setRdata bs).ctrlRead = s.ctrlRead := rfl
@[simp] theorem State.setRdata_keyInUse (s : State) (bs : List Byte) : (s.setRdata bs).keyInUse = s.keyInUse := rfl
@[simp] theorem State.setRdata_keyLengthLegal (s : State) (bs : List Byte) : (s.setRdata bs).keyLengthLegal = s.keyLengthLegal := rfl
@[simp] theorem State.setRdata_message (s : State) (bs : List Byte) : (s.setRdata bs).message = s.message := rfl
@[simp] theorem State.setRdata_output (s : State) (bs : List Byte) : (s.setRdata bs).output = s.output := rfl
@[simp] theorem State.setRdata_roundKey (s : State) (bs : List Byte) : (s.setRdata bs).roundKey = s.roundKey := rfl
@[simp] theorem State.setRdata_encrypt (s : State) (bs : List Byte) : (s.setRdata bs).encrypt = s.encrypt := rfl
@[simp] theorem State.setRdata_scheduleWord (s : State) (bs : List Byte) : (s.setRdata bs).scheduleWord = s.scheduleWord := rfl
@[simp] theorem State.setHost_tren (s : State) (as : List HostAction) : (s.setHost as).tren = s.tren := rfl
@[simp] theorem State.setHost_ivv (s : State) (as : List HostAction) : (s.setHost as).ivv = s.ivv := rfl
@[simp] theorem State.setHost_ctrlRead (s : State) (as : List HostAction) : (s.setHost as).ctrlRead = s.ctrlRead := rfl
@[simp] theorem State.setHost_keyInUse (s : State) (as : List HostAction) : (s.setHost as).keyInUse = s.keyInUse := rfl
@[simp] theorem State.setHost_keyLengthLegal (s : State) (as : List HostAction) : (s.setHost as).keyLengthLegal = s.keyLengthLegal := rfl
@[simp] theorem State.setHost_message (s : State) (as : List HostAction) : (s.setHost as).message = s.message := rfl
@[simp] theorem State.setHost_output (s : State) (as : List HostAction) : (s.setHost as).output = s.output := rfl
@[simp] theorem State.setHost_roundKey (s : State) (as : List HostAction) : (s.setHost as).roundKey = s.roundKey := rfl
@[simp] theorem State.setHost_encrypt (s : State) (as : List HostAction) : (s.setHost as).encrypt = s.encrypt := rfl
@[simp] theorem State.setHost_scheduleWord (s : State) (as : List HostAction) : (s.setHost as).scheduleWord = s.scheduleWord := rfl

@[simp] theorem State.emit_ivv (s : State) (e : TraceEntry) : (s.emit e).ivv = s.ivv := by
  simp [State.ivv]
@[simp] theorem State.emit_ctrlRead (s : State) (e : TraceEntry) : (s.emit e).ctrlRead = s.ctrlRead := by
  simp [State.ctrlRead]
@[simp] theorem State.emit_keyInUse (s : State) (e : TraceEntry) : (s.emit e).keyInUse = s.keyInUse := by
  simp [State.keyInUse]
@[simp] theorem State.emit_keyLengthLegal (s : State) (e : TraceEntry) : (s.emit e).keyLengthLegal = s.keyLengthLegal := by
  simp [State.keyLengthLegal]
@[simp] theorem State.emit_message (s : State) (e : TraceEntry) : (s.emit e).message = s.message := by
  simp [State.message]
@[simp] theorem State.emit_output (s : State) (e : TraceEntry) : (s.emit e).output = s.output := by
  simp [State.output]
@[simp] theorem State.emit_roundKey (s : State) (e : TraceEntry) : (s.emit e).roundKey = s.roundKey := by
  funext x
  simp [State.roundKey, State.wByte]
@[simp] theorem State.emit_encrypt (s : State) (e : TraceEntry) : (s.emit e).encrypt = s.encrypt := by
  funext x
  simp [State.encrypt]
@[simp] theorem State.emit_scheduleWord (s : State) (e : TraceEntry) : (s.emit e).scheduleWord = s.scheduleWord := by
  funext x
  simp [State.scheduleWord, State.wByte]
@[simp] theorem State.emitAll_tren (s : State) (es : List TraceEntry) : (s.emitAll es).tren = s.tren := by
  simp [State.tren]
@[simp] theorem State.emitAll_ivv (s : State) (es : List TraceEntry) : (s.emitAll es).ivv = s.ivv := by
  simp [State.ivv]
@[simp] theorem State.emitAll_ctrlRead (s : State) (es : List TraceEntry) : (s.emitAll es).ctrlRead = s.ctrlRead := by
  simp [State.ctrlRead]
@[simp] theorem State.emitAll_keyInUse (s : State) (es : List TraceEntry) : (s.emitAll es).keyInUse = s.keyInUse := by
  simp [State.keyInUse]
@[simp] theorem State.emitAll_keyLengthLegal (s : State) (es : List TraceEntry) : (s.emitAll es).keyLengthLegal = s.keyLengthLegal := by
  simp [State.keyLengthLegal]
@[simp] theorem State.emitAll_message (s : State) (es : List TraceEntry) : (s.emitAll es).message = s.message := by
  simp [State.message]
@[simp] theorem State.emitAll_output (s : State) (es : List TraceEntry) : (s.emitAll es).output = s.output := by
  simp [State.output]
@[simp] theorem State.emitAll_roundKey (s : State) (es : List TraceEntry) : (s.emitAll es).roundKey = s.roundKey := by
  funext x
  simp [State.roundKey, State.wByte]
@[simp] theorem State.emitAll_encrypt (s : State) (es : List TraceEntry) : (s.emitAll es).encrypt = s.encrypt := by
  funext x
  simp [State.encrypt]
@[simp] theorem State.emitAll_scheduleWord (s : State) (es : List TraceEntry) : (s.emitAll es).scheduleWord = s.scheduleWord := by
  funext x
  simp [State.scheduleWord, State.wByte]

end Sys2Proof.Machine
end

