-- ==== Sys2Proof/Laws/Commands.lean ====
section
/-! SUPPORT. One lemma per shared operation of the commands, saying once everything it does, and the inversion of
`exec`: how a command can end. Later proofs cite these and unfold no meaning. -/

namespace Sys2Proof.Machine

/-! ### The trace port -/

/-- All that one `emit` does. -/
theorem State.emit_eq (s : State) (e : TraceEntry) :
    s.emit e = { s with trace := s.trace ++ if s.tren then [e] else [] } := by
  unfold State.emit; split <;> simp

/-- All that emitting entries in order does. -/
theorem State.emitAll_eq (s : State) (es : List TraceEntry) :
    s.emitAll es = { s with trace := s.trace ++ if s.tren then es else [] } := by
  induction es generalizing s with
  | nil => simp [State.emitAll]
  | cons e es ih =>
    rw [State.emitAll, ih, State.emit_tren, State.emit_eq]
    cases s.tren <;> simp

/-- All that a command of one round operation does. -/
theorem State.roundCommand_eq (s : State) (e : TraceEntry) :
    s.roundCommand e
      = { s with st := e.state, err := 0#8, trace := s.trace ++ if s.tren then [e] else [] } := by
  simp [State.roundCommand, State.emit_eq, State.setSt, State.succeed]

@[simp] theorem State.roundCommand_st (s : State) (e : TraceEntry) : (s.roundCommand e).st = e.state := by
  simp [State.roundCommand]
@[simp] theorem State.roundCommand_err (s : State) (e : TraceEntry) : (s.roundCommand e).err = 0#8 := rfl
@[simp] theorem State.roundCommand_nr (s : State) (e : TraceEntry) : (s.roundCommand e).nr = s.nr := by
  simp [State.roundCommand]
@[simp] theorem State.roundCommand_roundKey (s : State) (e : TraceEntry) : (s.roundCommand e).roundKey = s.roundKey := by
  simp [State.roundCommand]
@[simp] theorem State.roundCommand_tren (s : State) (e : TraceEntry) : (s.roundCommand e).tren = s.tren := by
  simp [State.roundCommand]

/-! ### The key schedule -/

/-- The legal key lengths as numbers (R22). -/
theorem State.keyLengthLegal_iff (s : State) : s.keyLengthLegal = true ↔ s.klen.toNat ∈ [16, 24, 32] := by
  simp [State.keyLengthLegal, ← BitVec.toNat_inj, or_assoc]

theorem State.keyLengthLegal_eq_false_iff (s : State) : s.keyLengthLegal = false ↔ s.klen.toNat ∉ [16, 24, 32] := by
  rw [← State.keyLengthLegal_iff, Bool.not_eq_true]

theorem State.length_keyInUse (s : State) (h : s.keyLengthLegal = true) : s.keyInUse.length = s.klen.toNat := by
  rw [State.keyLengthLegal_iff] at h
  simp only [State.keyInUse, List.length_take, Vector.length_toList]
  simp only [List.mem_cons, List.not_mem_nil, or_false] at h
  omega

@[simp] theorem length_keyExpansion (key : List Byte) : (keyExpansion key).length = roundsOf key.length + 1 := by
  simp [keyExpansion]

/-- Every turn of the loop of R112 adds one word. -/
@[simp] theorem length_expandWords (nk todo i : Nat) (made : List KWord) :
    (expandWords nk todo i made).length = made.length + todo := by
  induction todo generalizing i made with
  | zero => rfl
  | succ todo ih => rw [expandWords, ih, List.length_cons]; omega

@[simp] theorem length_keyWords (key : List Byte) : (keyWords key).length = totalWords key.length := by
  simp [keyWords, totalWords, roundsOf]; omega

@[simp] theorem State.runKeySchedule_nr (s : State) : s.runKeySchedule.nr = BitVec.ofNat 8 (roundsOf s.klen.toNat) := rfl

/-- `NR` after the key schedule (R118). -/
theorem State.runKeySchedule_nr_toNat (s : State) :
    s.runKeySchedule.nr.toNat = roundsOf s.klen.toNat := by
  simp only [State.runKeySchedule_nr, BitVec.toNat_ofNat, roundsOf, wordsOfKey]
  omega

/-- How many bytes of `W` the schedule of a legal key fills (R111). -/
theorem State.length_scheduleBytes (s : State) (h : s.keyLengthLegal = true) :
    (bytesOfBlocks (keyExpansion s.keyInUse)).length = 16 * (roundsOf s.klen.toNat + 1) := by
  simp [s.length_keyInUse h]

theorem roundsOf_legal (s : State) (h : s.keyLengthLegal = true) : 10 ≤ roundsOf s.klen.toNat ∧ roundsOf s.klen.toNat ≤ 14 := by
  rw [State.keyLengthLegal_iff] at h
  simp only [List.mem_cons, List.not_mem_nil, or_false] at h
  simp only [roundsOf, wordsOfKey]
  omega

/-- Byte `j` of `W` after the key schedule: a byte of the schedule, or above it the byte that was there. -/
theorem State.getElem_runKeySchedule_w (s : State) (j : Nat) (h : j < 240) :
    s.runKeySchedule.w[j] = (bytesOfBlocks (keyExpansion s.keyInUse)).getD j s.w[j] := by
  change (writeBytes s.w 0 _)[j] = _
  simp [getElem_writeBytes]

/-- Sixteen bytes from `16k` on of the bytes of blocks are block `k`. -/
theorem getD_bytesOfBlocks (bs : List Block) (k j : Nat) (d : Byte) (hk : k < bs.length) (hj : j < 16) :
    (bytesOfBlocks bs).getD (16 * k + j) d = bs[k][j] := by
  have h : ((bytesOfBlocks bs).drop (16 * k))[j]? = some bs[k][j] := by
    rw [drop_bytesOfBlocks, List.drop_eq_getElem_cons hk, bytesOfBlocks_cons, List.getElem?_append_left (by simpa using hj)]
    simp [hj]
  rw [List.getElem?_drop] at h
  simp [List.getD_eq_getElem?_getD, h]

/-- Round key `k` after the key schedule of a legal key (R118). -/
theorem State.roundKey_runKeySchedule (s : State) (k : Nat) (h : s.keyLengthLegal = true) (hk : k ≤ roundsOf s.klen.toNat) :
    s.runKeySchedule.roundKey k = (keyExpansion s.keyInUse).getD k (zeros 16) := by
  have hr := roundsOf_legal s h
  have hl : k < (keyExpansion s.keyInUse).length := by rw [length_keyExpansion, s.length_keyInUse h]; omega
  apply Vector.ext
  intro j hj
  have h2 : 16 * k + j < 240 := by omega
  simp only [State.roundKey, getElem_tabulate, State.wByte]
  rw [Vector.getElem?_eq_getElem h2, Option.getD_some, State.getElem_runKeySchedule_w _ _ h2,
    getD_bytesOfBlocks _ _ _ _ hl hj]
  simp [List.getElem?_eq_getElem hl]

/-! ### The round transform -/

/-- The rounds depend on the round keys they use, and on no other. -/
theorem rounds_congr (rk rk' : Nat → Block) (todo r : Nat) (x : Block) (h : ∀ k, r ≤ k → k < r + todo → rk k = rk' k) :
    rounds rk todo r x = rounds rk' todo r x := by
  induction todo generalizing r x with
  | zero => rfl
  | succ todo ih =>
    simp only [rounds]
    rw [h r (Nat.le_refl _) (by omega), ih (r + 1) _ fun k h1 h2 => h k (by omega) (by omega)]

/-- Block encryption depends on round keys 0 to `nr`, and on no other. -/
theorem encryptBlock_congr (rk rk' : Nat → Block) (nr : Nat) (x : Block) (h : ∀ k, k ≤ nr → rk k = rk' k) :
    encryptBlock rk nr x = encryptBlock rk' nr x := by
  simp only [encryptBlock]
  rw [h 0 (Nat.zero_le _), rounds_congr rk rk' nr 1 _ fun k _ h2 => h k (by omega)]

/-- The schedule of a legal key encrypts alike whatever was in `W` and `NR` before it (R188). -/
theorem State.encrypt_runKeySchedule_congr (s u : State) (h : s.keyLengthLegal = true) (hk : u.keyInUse = s.keyInUse)
    (hl : u.klen = s.klen) : u.runKeySchedule.encrypt = s.runKeySchedule.encrypt := by
  have hu : u.keyLengthLegal = true := by simpa [State.keyLengthLegal, hl] using h
  funext x
  simp only [State.encrypt]
  rw [State.runKeySchedule_nr_toNat, State.runKeySchedule_nr_toNat, hl]
  apply encryptBlock_congr
  intro k hk'
  rw [State.roundKey_runKeySchedule _ _ hu (by rw [hl]; exact hk'), State.roundKey_runKeySchedule _ _ h hk', hk]

/-! ### The padding codec -/

/-- How many bytes a scheme appends (R151, R155). -/
theorem length_padBytes (p : Scheme) (n : Nat) :
    (padBytes p n).length = if p = .none then zeroFill n else padLength n := by
  cases p <;> simp [padBytes, padLength]; omega

@[simp] theorem length_padMessage (p : Scheme) (b : List Byte) :
    (padMessage p b).length = b.length + if p = .none then zeroFill b.length else padLength b.length := by
  simp [padMessage, length_padBytes]

@[simp] theorem State.length_message (s : State) : s.message.length = s.ilen.toNat := by simp [State.message]

@[simp] theorem State.length_output (s : State) : s.output.length = s.olen.toNat := by simp [State.output]

/-- The last byte of a message padded by a length-marking scheme is the number of bytes added (R152, R154). -/
theorem getLast?_padMessage (p : Scheme) (b : List Byte) (h : p ≠ .none) :
    (padMessage p b).getLast? = some (BitVec.ofNat 8 (padLength b.length)) := by
  have hp : padLength b.length ≠ 0 := by simp only [padLength]; omega
  cases p with
  | none => exact absurd rfl h
  | pkcs => simp [padMessage, padBytes, List.getLast?_append, List.getLast?_replicate, hp]
  | ansi => simp [padMessage, padBytes]

/-! ### The mode layer -/

@[simp] theorem length_encryptBlocks (m : Mode) (E : Block → Traced) (iv chain : Block) (i : Nat) (ps : List Block) :
    (encryptBlocks m E iv chain i ps).length = ps.length := by
  induction ps generalizing chain i with
  | nil => rfl
  | cons p ps ih => simp [encryptBlocks, ih]

/-- The result of block `j` of a message: that of its plain block with, as the chaining value, the cipher block before
it (R176), or what the message started from. -/
theorem getElem_encryptBlocks (m : Mode) (E : Block → Traced) (iv chain : Block) (i : Nat) (ps : List Block) (j : Nat)
    (h : j < (encryptBlocks m E iv chain i ps).length) :
    (encryptBlocks m E iv chain i ps)[j]
      = encryptOne m E iv
          (if j = 0 then chain else ((encryptBlocks m E iv chain i ps)[j - 1]'(Nat.lt_of_le_of_lt (Nat.sub_le _ _) h)).cipher)
          (i + j)
          (ps[j]'(by simpa using h)) := by
  induction ps generalizing chain i j with
  | nil => simp at h
  | cons p ps ih =>
    cases j with
    | zero => simp [encryptBlocks]
    | succ j =>
      have h' : j < (encryptBlocks m E iv (encryptOne m E iv chain i p).cipher (i + 1) ps).length := by
        simpa [encryptBlocks] using h
      have e := ih _ _ _ h'
      simp only [encryptBlocks, List.getElem_cons_succ]
      rw [e]
      rw [show i + 1 + j = i + (j + 1) by omega]
      cases j with
      | zero => simp
      | succ j => simp

/-- The length of the ciphertext (R170, R187). -/
@[simp] theorem length_ciphertextOf (rs : List BlockResult) : (ciphertextOf rs).length = 16 * rs.length := by
  simp [ciphertextOf]

@[simp] theorem State.length_encryptMessage (s : State) (m : Mode) (p : Scheme) :
    (s.encryptMessage m p).length = (padMessage p s.message).length / 16 := by
  simp only [State.encryptMessage, length_encryptBlocks, length_blocksOf]

/-! ### How a command ends -/

/-- All that a command which does not fail leaves alone, and that it ends with `ERR = 0` and only appends to
`TRACE`. -/
structure State.Succeeds (s t : State) : Prop where
  key : t.key = s.key
  klen : t.klen = s.klen
  iv : t.iv = s.iv
  ctrl : t.ctrl = s.ctrl
  ibuf : t.ibuf = s.ibuf
  ilen : t.ilen = s.ilen
  ibufCap : t.ibufCap = s.ibufCap
  host : t.host = s.host
  rdata : t.rdata = s.rdata
  err : t.err = 0#8
  trace : ∃ es, t.trace = s.trace ++ if s.tren then es else []

/-- What writing a message out does. -/
theorem State.finishMessage_eq (s : State) (rs : List BlockResult) :
    s.finishMessage rs
      = { s with obuf := s.obuf.writeRange 0 (ciphertextOf rs), olen := BitVec.ofNat 32 (16 * rs.length),
                 st := lastState s.st rs, err := 0#8,
                 trace := s.trace ++ if s.tren then rs.flatMap fun r => r.entries else [] } := by
  simp [State.finishMessage, State.emitAll_eq, State.setOutput, State.setSt, State.succeed]

/-- The inversion of `exec`: from every state every command answers a next state, in which it has either raised one
error or succeeded. -/
theorem exec_ends (i : Instr) (s : State) :
    (∃ e, exec i s = .next (s.raise e)) ∨ ∃ t, exec i s = .next t ∧ s.Succeeds t := by
  cases i with
  | gfmul2 => exact .inr ⟨_, rfl, by constructor <;> first | rfl | exact ⟨[], by simp⟩⟩
  | gfmul3 => exact .inr ⟨_, rfl, by constructor <;> first | rfl | exact ⟨[], by simp⟩⟩
  | expandkey =>
    simp only [exec, execExpandkey]
    split
    · exact .inr ⟨_, rfl, by constructor <;> first | rfl | exact ⟨[], by simp [State.runKeySchedule]⟩⟩
    · exact .inl ⟨_, rfl⟩
  | encblock =>
    simp only [exec, execEncblock]
    split
    · exact .inl ⟨_, rfl⟩
    · exact .inr ⟨_, rfl, by rw [State.emitAll_eq]; constructor <;> first | rfl | exact ⟨_, rfl⟩⟩
  | subbytes => exact .inr ⟨_, rfl, by rw [State.roundCommand_eq]; constructor <;> first | rfl | exact ⟨_, rfl⟩⟩
  | shiftrows => exact .inr ⟨_, rfl, by rw [State.roundCommand_eq]; constructor <;> first | rfl | exact ⟨_, rfl⟩⟩
  | mixcolumns => exact .inr ⟨_, rfl, by rw [State.roundCommand_eq]; constructor <;> first | rfl | exact ⟨_, rfl⟩⟩
  | addroundkey k =>
    simp only [exec, execAddroundkey]
    split
    · exact .inl ⟨_, rfl⟩
    · exact .inr ⟨_, rfl, by rw [State.roundCommand_eq]; constructor <;> first | rfl | exact ⟨_, rfl⟩⟩
  | pad p => exact .inr ⟨_, rfl, by constructor <;> first | rfl | exact ⟨[], by simp⟩⟩
  | unpad p =>
    simp only [exec, execUnpad]
    split
    · exact .inl ⟨_, rfl⟩
    · split
      · exact .inl ⟨_, rfl⟩
      · exact .inr ⟨_, rfl, by constructor <;> first | rfl | exact ⟨[], by simp⟩⟩
  | encmsg m p =>
    simp only [exec, execEncmsg]
    split
    · exact .inl ⟨_, rfl⟩
    · split
      · exact .inr ⟨_, rfl, by rw [State.finishMessage_eq]; constructor <;> first | rfl | exact ⟨_, rfl⟩⟩
      · exact .inl ⟨_, rfl⟩

/-- The same, from a next state. -/
theorem exec_cases {i : Instr} {s t : State} (h : exec i s = .next t) : (∃ e, t = s.raise e) ∨ s.Succeeds t := by
  rcases exec_ends i s with ⟨e, he⟩ | ⟨u, hu, hs⟩
  · exact .inl ⟨e, by rw [he] at h; exact (Host.Outcome.next.inj h).symm⟩
  · rw [hu] at h; cases h; exact .inr hs

/-- `ENCMSG` with its preconditions. -/
theorem exec_encmsg (m : Mode) (p : Scheme) (s : State) (h : CanEncrypt m s) :
    exec (.encmsg m p) s = .next (s.runKeySchedule.finishMessage (s.runKeySchedule.encryptMessage m p)) := by
  simp only [exec, execEncmsg]
  rw [if_neg, if_pos h.2]
  rcases h.1 with h1 | h1 <;> simp [h1]

/-- `ST` after a message: what the last block encryption gave, or what it was (R190). -/
theorem lastState_eq (st : Block) (rs : List BlockResult) :
    lastState st rs = if h : rs.length = 0 then st else (rs[rs.length - 1]'(by omega)).state := by
  unfold lastState
  split
  · next h => simp [List.getLast?_eq_none_iff.mp h]
  · next r h =>
    rw [List.getLast?_eq_getElem?] at h
    obtain ⟨h1, h2⟩ := List.getElem?_eq_some_iff.mp h
    rw [dif_neg (by omega), h2]

/-- Block `i` of the output after blocks are stored from 0 up. -/
theorem outBlock_writeRange {m : Memory} {t : State} {bs : List Block} (h : t.obuf = m.writeRange 0 (bytesOfBlocks bs))
    (i : Nat) (hi : i < bs.length) : outBlock t i = bs[i] := by
  unfold outBlock
  apply Vector.ext; intro j hj
  rw [getElem_blockOfList, List.getD_eq_getElem _ _ (by simpa using hj), Memory.getElem_readRange, h,
    Memory.read_writeRange_inside _ _ _ _ (Nat.zero_le _) (by simp; omega), Nat.sub_zero, getD_bytesOfBlocks _ _ _ _ hi hj]

/-- The results of a message block by block: the block at `i` is stored as the cipher block, and it is the result of
one turn of R178 with the cipher block before it as the chaining value. -/
theorem encryptMessage_blocks (m : Mode) (p : Scheme) (s t : State)
    (ht : t = s.runKeySchedule.finishMessage (s.runKeySchedule.encryptMessage m p)) :
    t.encrypt = s.runKeySchedule.encrypt
    ∧ (s.runKeySchedule.encryptMessage m p).length = blockNumber p s
    ∧ ∀ i (hi : i < (s.runKeySchedule.encryptMessage m p).length),
        outBlock t i = ((s.runKeySchedule.encryptMessage m p)[i]).cipher
        ∧ (s.runKeySchedule.encryptMessage m p)[i]
            = encryptOne m t.encrypt s.iv (if i = 0 then s.iv else outBlock t (i - 1)) i (plainBlock p s i) := by
  have hE : t.encrypt = s.runKeySchedule.encrypt := by rw [ht, State.finishMessage_eq]; rfl
  refine ⟨hE, by rw [State.length_encryptMessage]; rfl, fun i hi => ?_⟩
  have ho : ∀ i (hi : i < (s.runKeySchedule.encryptMessage m p).length),
      outBlock t i = ((s.runKeySchedule.encryptMessage m p)[i]).cipher := by
    intro i hi
    rw [outBlock_writeRange (m := s.obuf) (bs := (s.runKeySchedule.encryptMessage m p).map (·.cipher))
      (by rw [ht, State.finishMessage_eq]; rfl) i (by simpa using hi)]
    simp
  refine ⟨ho i hi, ?_⟩
  have e : (s.runKeySchedule.encryptMessage m p)[i] = _ :=
    getElem_encryptBlocks m s.runKeySchedule.encrypt s.iv s.iv 0 (blocksOf (padMessage p s.message)) i hi
  rw [e, hE, Nat.zero_add, getElem_blocksOf, plainBlock]
  congr 1
  split
  · rfl
  · rw [ho (i - 1) (by omega)]; rfl

end Sys2Proof.Machine
end

