-- ==== Sys2Proof/Laws/HostPort.lean ====
section
/-! SUPPORT. Laws of the host port: what each access can do, said once, and the step that serves a command word. -/

namespace Sys2Proof.Machine

/-- A command word from its own two bytes (R53). -/
@[simp] theorem wordOfBytes_extract (w : CmdWord) : wordOfBytes (w.extractLsb' 8 8) (w.extractLsb' 0 8) = w := by
  apply BitVec.eq_of_getLsbD_eq
  intro i hi
  simp only [wordOfBytes, BitVec.getLsbD_append, BitVec.getLsbD_extractLsb']
  by_cases h : i < 8
  · simp [h]
  · have h1 : i - 8 < 8 := by omega
    have h2 : 8 + (i - 8) = i := by omega
    simp [h, h1, h2]

@[simp] theorem decodeBytes_extract (w : CmdWord) : decodeBytes (w.extractLsb' 8 8) (w.extractLsb' 0 8) = decode w := by
  rw [decodeBytes, wordOfBytes_extract]

/-- The step that serves the oldest action. -/
theorem step_cons (s : State) (a : HostAction) (rest : List HostAction) (h : s.host = a :: rest) :
    step s = perform a (s.setHost rest) := by
  simp only [step, serve, h]

/-- The write of a command word runs it (R31). -/
theorem perform_commandWrite (w : CmdWord) (s : State) :
    perform (commandWrite w) s = runWord (w.extractLsb' 8 8) (w.extractLsb' 0 8) s := rfl

/-- When a buffer access has a meaning. -/
theorem bufferRefusal_eq_none_iff (cap off n : Nat) : bufferRefusal cap off n = none ↔ n ≠ 0 ∧ off + n ≤ cap := by
  unfold bufferRefusal
  split
  · simp_all
  · split
    · simp; omega
    · simp; omega

/-- The inversion of `regTarget`: every target, with exactly the accesses that reach it (R51, R54, R55). -/
theorem regTarget_cases {off n : Nat} {t : RegTarget} (h : regTarget off n = .ok t) :
    0 < n ∧
    ((t = .key off ∧ off + n ≤ 0x020) ∨ (t = .klen ∧ off = 0x020 ∧ n = 1) ∨ (t = .ctrl ∧ off = 0x021 ∧ n = 1)
      ∨ (t = .nr ∧ off = 0x022 ∧ n = 1) ∨ (t = .err ∧ off = 0x023 ∧ n = 1) ∨ (t = .cmd ∧ off = 0x024 ∧ n = 2)
      ∨ (t = .iv (off - 0x030) ∧ 0x030 ≤ off ∧ off + n ≤ 0x040)
      ∨ (t = .st (off - 0x040) ∧ 0x040 ≤ off ∧ off + n ≤ 0x050)
      ∨ (t = .ilen ∧ off = 0x050 ∧ n = 4) ∨ (t = .olen ∧ off = 0x054 ∧ n = 4)
      ∨ (t = .w (off - 0x100) ∧ 0x100 ≤ off ∧ off + n ≤ 0x1F0)) := by
  unfold regTarget at h
  by_cases h0 : n = 0
  · rw [if_pos h0] at h; cases h
  rw [if_neg h0] at h
  refine ⟨Nat.pos_of_ne_zero h0, ?_⟩
  by_cases c : off + n ≤ 0x020
  · rw [if_pos c] at h; cases h; exact .inl ⟨rfl, c⟩
  rw [if_neg c] at h
  by_cases c : off = 0x020 ∧ n = 1
  · rw [if_pos c] at h; cases h; exact .inr (.inl ⟨rfl, c⟩)
  rw [if_neg c] at h
  by_cases c : off = 0x021 ∧ n = 1
  · rw [if_pos c] at h; cases h; exact .inr (.inr (.inl ⟨rfl, c⟩))
  rw [if_neg c] at h
  by_cases c : off = 0x022 ∧ n = 1
  · rw [if_pos c] at h; cases h; exact .inr (.inr (.inr (.inl ⟨rfl, c⟩)))
  rw [if_neg c] at h
  by_cases c : off = 0x023 ∧ n = 1
  · rw [if_pos c] at h; cases h; exact .inr (.inr (.inr (.inr (.inl ⟨rfl, c⟩))))
  rw [if_neg c] at h
  by_cases c : off = 0x024 ∧ n = 2
  · rw [if_pos c] at h; cases h; exact .inr (.inr (.inr (.inr (.inr (.inl ⟨rfl, c⟩)))))
  rw [if_neg c] at h
  by_cases c : 0x030 ≤ off ∧ off + n ≤ 0x040
  · rw [if_pos c] at h; cases h; exact .inr (.inr (.inr (.inr (.inr (.inr (.inl ⟨rfl, c⟩))))))
  rw [if_neg c] at h
  by_cases c : 0x040 ≤ off ∧ off + n ≤ 0x050
  · rw [if_pos c] at h; cases h; exact .inr (.inr (.inr (.inr (.inr (.inr (.inr (.inl ⟨rfl, c⟩)))))))
  rw [if_neg c] at h
  by_cases c : off = 0x050 ∧ n = 4
  · rw [if_pos c] at h; cases h; exact .inr (.inr (.inr (.inr (.inr (.inr (.inr (.inr (.inl ⟨rfl, c⟩))))))))
  rw [if_neg c] at h
  by_cases c : off = 0x054 ∧ n = 4
  · rw [if_pos c] at h; cases h; exact .inr (.inr (.inr (.inr (.inr (.inr (.inr (.inr (.inr (.inl ⟨rfl, c⟩)))))))))
  rw [if_neg c] at h
  by_cases c : 0x100 ≤ off ∧ off + n ≤ 0x1F0
  · rw [if_pos c] at h; cases h; exact .inr (.inr (.inr (.inr (.inr (.inr (.inr (.inr (.inr (.inr (⟨rfl, c⟩))))))))))
  rw [if_neg c] at h
  cases h

/-- The inversion of a host write: it is ignored, it runs a command word, or it sets the one register or the bytes of
`IBUF` that it names, or, for a length above the capacity, raises `IllegalCommand` (R57, R31, R58). -/
theorem hostWrite_cases {sp : Space} {off : Nat} {bs : List Byte} {s t : State} (h : hostWrite sp off bs s = .next t) :
    t = s
    ∨ (sp = .reg ∧ off = 0x024 ∧ bs.length = 2 ∧ runWord (bs.getD 0 0#8) (bs.getD 1 0#8) s = .next t)
    ∨ (sp = .reg ∧ off + bs.length ≤ 0x020 ∧ t = s.setKey (writeBytes s.key off bs))
    ∨ (sp = .reg ∧ off = 0x020 ∧ t = s.setKlen (bs.getD 0 0#8))
    ∨ (sp = .reg ∧ off = 0x021 ∧ t = s.setCtrl (bs.getD 0 0#8))
    ∨ (sp = .reg ∧ 0x030 ≤ off ∧ off + bs.length ≤ 0x040 ∧ t = s.setIv (writeBytes s.iv (off - 0x030) bs))
    ∨ (sp = .reg ∧ 0x040 ≤ off ∧ off + bs.length ≤ 0x050 ∧ t = s.setSt (writeBytes s.st (off - 0x040) bs))
    ∨ (sp = .reg ∧ off = 0x050 ∧ t = s.writeIlen (BitVec.ofNat 32 (natOfBytes bs)))
    ∨ (sp = .ibuf ∧ off + bs.length ≤ s.ibufCap ∧ t = s.setIbuf off bs) := by
  cases sp <;> simp only [hostWrite] at h
  · split at h
    · next tg htg =>
      obtain ⟨-, hc⟩ := regTarget_cases htg
      rcases hc with ⟨rfl, h1⟩ | ⟨rfl, h1⟩ | ⟨rfl, h1⟩ | ⟨rfl, h1⟩ | ⟨rfl, h1⟩ | ⟨rfl, h1⟩ | ⟨rfl, h1⟩ | ⟨rfl, h1⟩
        | ⟨rfl, h1⟩ | ⟨rfl, h1⟩ | ⟨rfl, h1⟩ <;> simp only [writeTarget] at h
      case inr.inr.inr.inr.inr.inl => exact .inr (.inl ⟨rfl, h1.1, h1.2, h⟩)
      all_goals (cases h; simp_all)
    · cases h
  · split at h
    · next hb =>
      cases h
      have := (bufferRefusal_eq_none_iff _ _ _).mp hb
      simp_all [State.capacity]
    · cases h
  · split at h
    · cases h; exact .inl rfl
    · cases h

/-- The inversion of a host read: it changes nothing but the bytes left to the host (R56). -/
theorem hostRead_cases {sp : Space} {off n : Nat} {s t : State} (h : hostRead sp off n s = .next t) :
    ∃ bs, t = s.setRdata bs := by
  cases sp <;> simp only [hostRead] at h <;> split at h <;> cases h <;> exact ⟨_, rfl⟩

end Sys2Proof.Machine
end

