-- ==== Sys2Proof/Laws/PerInstr.lean ====
section
/-! SUPPORT. What holds of every instruction as syntax, one lemma per constructor: the word of a well-formed command
carries in its byte `op` an opcode the table lists, its unused fields are zero, and the opcode's format is the one of
its mnemonic's row (R71, R75). -/

namespace Sys2Proof.Laws.OpcodeRow

/-- The opcode of a command (R75, column `op`). -/
def opcodeOfInstr : Instr → Opcode
  | .gfmul2 => .gfmul2
  | .gfmul3 => .gfmul3
  | .expandkey => .expandkey
  | .encblock => .encblock
  | .subbytes => .subbytes
  | .shiftrows => .shiftrows
  | .mixcolumns => .mixcolumns
  | .addroundkey _ => .addroundkey
  | .pad _ => .pad
  | .unpad _ => .unpad
  | .encmsg _ _ => .encmsg

/-- The word of a well-formed command has its own opcode, and zeros in the fields its format does not use. -/
def Statement (i : Instr) : Prop :=
  i.wellFormed = true →
    opcodeOf (fieldOp (encode i)) = some (opcodeOfInstr i) ∧ unusedZero (formatOf (opcodeOfInstr i)) (encode i) = true

theorem gfmul2 : Statement .gfmul2 := fun _ => by decide
theorem gfmul3 : Statement .gfmul3 := fun _ => by decide
theorem expandkey : Statement .expandkey := fun _ => by decide
theorem encblock : Statement .encblock := fun _ => by decide
theorem subbytes : Statement .subbytes := fun _ => by decide
theorem shiftrows : Statement .shiftrows := fun _ => by decide
theorem mixcolumns : Statement .mixcolumns := fun _ => by decide

theorem addroundkey (k : Nat) : Statement (.addroundkey k) := by
  intro h
  have hk : k < 16 := by simpa [Instr.wellFormed] using h
  have all : ∀ k : Fin 16, opcodeOf (fieldOp (encode (.addroundkey k))) = some (opcodeOfInstr (.addroundkey k))
      ∧ unusedZero (formatOf (opcodeOfInstr (.addroundkey k))) (encode (.addroundkey k)) = true := by decide
  exact all ⟨k, hk⟩

theorem pad (p : Scheme) : Statement (.pad p) := fun _ => by cases p <;> decide
theorem unpad (p : Scheme) : Statement (.unpad p) := fun _ => by cases p <;> decide
theorem encmsg (m : Mode) (p : Scheme) : Statement (.encmsg m p) := fun _ => by cases m <;> cases p <;> decide

end Sys2Proof.Laws.OpcodeRow
end

