-- ==== Sys2Proof/Tests/Slice0.lean ====
section
/-! SUPPORT. Tests: ill-formed terms refused, one word per constructor decoded from its bits, worked examples of
the spec (each names its source), and for every statement of the certificate with hypotheses a concrete input that
meets them all. Every expected value is the spec's. -/

namespace Sys2Proof.Tests

-- one test after the other: each kernel evaluation takes a thread of its own, and many at once take much memory
set_option Elab.async false

open Sys2Proof Sys2Proof.Machine

/-! ### Helpers -/

/-- The `n` bytes of a number, the most significant first: a hex string of the spec read from index 0. -/
def hexBytes (n v : Nat) : List Byte := (List.range n).map fun i => BitVec.ofNat 8 (v / 256 ^ (n - 1 - i))

/-- The block a hex string of the spec writes. -/
def hexBlock (v : Nat) : Block := tabulate fun i => BitVec.ofNat 8 (v / 256 ^ (15 - i.val))

/-- A key register that holds a key of `n` bytes, zero above it. -/
def hexKey (n v : Nat) : Bytes 32 := tabulate fun i => (hexBytes n v).getD i.val 0#8

/-- After reset, with a key of `n` bytes written. -/
def keyed (n v : Nat) : State := { State.reset with key := hexKey n v, klen := BitVec.ofNat 8 n }

/-- With a State written. -/
def withSt (v : Nat) (s : State) : State := { s with st := hexBlock v }

/-- With a message of `n` bytes written. -/
def withMessage (n v : Nat) (s : State) : State :=
  { s with ibuf := Memory.writeRange [] 0 (hexBytes n v), ilen := BitVec.ofNat 32 n }

/-- With an IV written and `IVV` set. -/
def withIv (v : Nat) (s : State) : State := { s with iv := hexBlock v, ctrl := 0x01#8 }

/-- With `NR` set (and the bytes of `W` as they are). -/
def withNr (n : Byte) (s : State) : State := { s with nr := n }

/-- With tracing on. -/
def traced (s : State) : State := { s with ctrl := 0x02#8 }

/-- With the next action of the host. -/
def before (a : HostAction) (s : State) : State := { s with host := [a] }

/-- What a command leaves, read through `f`. -/
def after {α : Type} (i : Instr) (s : State) (f : State → α) : Option α :=
  match exec i s with
  | .next t => some (f t)
  | _ => none

/-- What a step leaves, read through `f`. -/
def afterStep {α : Type} (s : State) (f : State → α) : Option α :=
  match step s with
  | .next t => some (f t)
  | _ => none

/-! ### WellFormed refuses the ill-formed terms -/

theorem test_wellFormed_refuses_round_key_16 : Instr.wellFormed (.addroundkey 16) = false := by decide
theorem test_wellFormed_takes_round_key_15 : Instr.wellFormed (.addroundkey 15) = true := by decide
theorem test_wellFormed_refuses_unpad_none : Instr.wellFormed (.unpad .none) = false := by decide

/-! ### Decoding: words written out bit by bit (R70: rk, pad, mode, op) -/

theorem test_decode_gfmul2 : decode 0b0000_00_00_00000001 = .ok .gfmul2 := by decide
theorem test_decode_gfmul3 : decode 0b0000_00_00_00000010 = .ok .gfmul3 := by decide
theorem test_decode_expandkey : decode 0b0000_00_00_00010000 = .ok .expandkey := by decide
theorem test_decode_encblock : decode 0b0000_00_00_00100000 = .ok .encblock := by decide
theorem test_decode_subbytes : decode 0b0000_00_00_00100001 = .ok .subbytes := by decide
theorem test_decode_shiftrows : decode 0b0000_00_00_00100010 = .ok .shiftrows := by decide
theorem test_decode_mixcolumns : decode 0b0000_00_00_00100011 = .ok .mixcolumns := by decide
theorem test_decode_addroundkey : decode 0b1010_00_00_00100100 = .ok (.addroundkey 10) := by decide
theorem test_decode_pad : decode 0b0000_10_00_00110000 = .ok (.pad .ansi) := by decide
theorem test_decode_unpad : decode 0b0000_01_00_00110001 = .ok (.unpad .pkcs) := by decide
theorem test_decode_encmsg : decode 0b0000_01_10_01000000 = .ok (.encmsg .ctr .pkcs) := by decide

/-- R53: the byte at the lower offset of `CMD` is `CMD[15:8]`. -/
theorem test_decode_bytes : decodeBytes 0x05#8 0x40#8 = .ok (.encmsg .cbc .pkcs) := by decide
theorem test_decodeTableWord : decodeTableWord 16 0xA024 = some (.addroundkey 10) := by decide

/-- R77 cases (1) to (4), by name; the words of V18. -/
theorem test_decode_refuses_unknown_opcode :
    [0x0000, 0x0003, 0x0011, 0x0025, 0x0032, 0x0041, 0x00FF, 0xFFFF].map decode
      = List.replicate 8 (.error .unknownOpcode) := by decide
theorem test_decode_refuses_unused_field :
    [0x1440, 0x0120, 0x0124, 0x0824, 0x1030, 0x0131].map decode = List.replicate 6 (.error .unusedField) := by decide
theorem test_decode_refuses_reserved_mode : decode 0x0740 = .error .reservedMode := by decide
theorem test_decode_refuses_reserved_pad :
    [0x0C40, 0x0C30, 0x0C31].map decode = List.replicate 3 (.error .reservedPad) := by decide

/-! ### Commands: the spec's examples -/

/-- R96's example. -/
theorem test_gfmul2 :
    after .gfmul2 (withSt 0x00010240_8081ff1b_366cd8ab_4d9a2f5e .reset) (·.st)
      = some (hexBlock 0x00020480_1b19e536_6cd8ab4d_9a2f5ebc) := by decide +kernel

/-- R97's example. -/
theorem test_gfmul3 :
    after .gfmul3 (withSt 0x00010240_8081ff1b_366cd8ab_4d9a2f5e .reset) (·.st)
      = some (hexBlock 0x000306c0_9b981a2d_5ab473e6_d7b571e2) := by decide +kernel

/-- V6 (R118's example): the last round key and `NR` of a 16-byte key. -/
theorem test_expandkey_16 :
    after .expandkey (keyed 16 0x2b7e1516_28aed2a6_abf71588_09cf4f3c) (fun t => (t.roundKey 10, t.nr, t.err))
      = some (hexBlock 0xd014f9a8_c9ee2589_e13f0cc8_b6630ca6, 10#8, 0#8) := by decide +kernel

/-- V8: round keys 3 (the branch `i mod Nk = 4`) and 14 of a 32-byte key. -/
theorem test_expandkey_32 :
    after .expandkey (keyed 32 0x603deb10_15ca71be_2b73aef0_857d7781_1f352c07_3b6108d7_2d9810a3_0914dff4)
        (fun t => (t.roundKey 3, t.roundKey 14, t.nr))
      = some (hexBlock 0xa8b09c1a_93d194cd_be49846e_b75d5b9a, hexBlock 0xfe4890d1_e6188d0b_046df344_706c631e, 14#8) := by
  decide +kernel

/-- R141's example. -/
theorem test_encblock :
    after .encblock (withSt 0x3243f6a8_885a308d_313198a2_e0370734
        (keyed 16 0x2b7e1516_28aed2a6_abf71588_09cf4f3c).runKeySchedule) (·.st)
      = some (hexBlock 0x3925841d_02dc09fb_dc118597_196a0b32) := by decide +kernel

/-- R142's example, with its trace entry (R200). -/
theorem test_subbytes :
    after .subbytes (traced (withSt 0x193de3be_a0f4e22b_9ac68d2a_e9f84808 .reset)) (fun t => (t.st, t.trace))
      = some (hexBlock 0xd42711ae_e0bf98f1_b8b45de5_1e415230,
          [⟨.subBytes, hexBlock 0xd42711ae_e0bf98f1_b8b45de5_1e415230, hexBlock 0x193de3be_a0f4e22b_9ac68d2a_e9f84808,
            none⟩]) := by decide +kernel

/-- R143's example. -/
theorem test_shiftrows :
    after .shiftrows (withSt 0x00010203_04050607_08090a0b_0c0d0e0f .reset) (·.st)
      = some (hexBlock 0x00050a0f_04090e03_080d0207_0c01060b) := by decide +kernel

/-- R144's example. -/
theorem test_mixcolumns :
    after .mixcolumns (withSt 0xdb135345_f20a225c_01010101_c6c6c6c6 .reset) (·.st)
      = some (hexBlock 0x8e4da1bc_9fdc589d_01010101_c6c6c6c6) := by decide +kernel

/-- R146's second example: `RK[1]` of the running key. -/
theorem test_addroundkey :
    after (.addroundkey 1) (withSt 0x046681e5_e0cb199a_48f8d37a_2806264c
        (keyed 16 0x2b7e1516_28aed2a6_abf71588_09cf4f3c).runKeySchedule) (·.st)
      = some (hexBlock 0xa49c7ff2_689f352b_6b5bea43_026a5049) := by decide +kernel

/-- V18: round key 11 of a schedule of 10 rounds. -/
theorem test_addroundkey_above_nr : after (.addroundkey 11) (withNr 10#8 .reset) (·.err) = some 5#8 := by decide

/-- R161's example. -/
theorem test_pad_pkcs :
    after (.pad .pkcs) (withMessage 11 0x53616c_6f6d2c20_41455321 .reset) (·.output)
      = some (hexBytes 16 0x53616c6f_6d2c2041_45532105_05050505) := by decide +kernel

/-- R161: the empty message under ANSI. -/
theorem test_pad_ansi_empty :
    after (.pad .ansi) .reset (·.output) = some (List.replicate 15 0#8 ++ [0x10#8]) := by decide +kernel

/-- V13, row 13: the filler is not verified. -/
theorem test_unpad_trusts_the_last_byte :
    after (.unpad .pkcs) (withMessage 16 0x53616c6f_6d2c2041_45532105_05050507 .reset) (·.output)
      = some (hexBytes 9 0x53_616c6f6d_2c204145) := by decide +kernel

/-- V13, row 8: the length byte exceeds the length of the buffer. -/
theorem test_unpad_too_long :
    after (.unpad .ansi) (withMessage 3 0xaabb04 .reset) (fun t => (t.err, t.olen)) = some (3#8, 0#32) := by decide

/-- V16, row 1: two chained blocks. -/
theorem test_encmsg_cbc :
    after (.encmsg .cbc .none) (withIv 0x00010203_04050607_08090a0b_0c0d0e0f
        (withMessage 32 0x6bc1bee2_2e409f96_e93d7e11_7393172a_ae2d8a57_1e03ac9c_9eb76fac_45af8e51
          (keyed 16 0x2b7e1516_28aed2a6_abf71588_09cf4f3c))) (·.output)
      = some (hexBytes 32 0x7649abac_8119b246_cee98e9b_12e9197d_5086cb9b_507219ee_95db113a_917678b2) := by
  decide +kernel

/-- V17, row 4: the counter wraps. -/
theorem test_encmsg_ctr_wraps :
    after (.encmsg .ctr .none) (withIv 0xffffffff_ffffffff_ffffffff_ffffffff
        (withMessage 32 0x6bc1bee2_2e409f96_e93d7e11_7393172a_ae2d8a57_1e03ac9c_9eb76fac_45af8e51
          (keyed 16 0x2b7e1516_28aed2a6_abf71588_09cf4f3c))) (·.output)
      = some (hexBytes 32 0xe13338e3_6cb71962_e00d020b_4cedbd86_d3dae15b_04bb352f_a0f59feb_fcb4da3e) := by
  decide +kernel

/-- V14: the carry crosses the middle of the block. -/
theorem test_ctrAdd :
    ctrAdd (hexBlock 0xffffffff_ffffffff) 1 = hexBlock 0x1_00000000_00000000 := by decide +kernel

/-! ### The host port -/

/-- V18: `ILEN` above the capacity (64 here) is refused. -/
theorem test_ilen_above_capacity :
    afterStep (before (.write .reg 0x050 [0#8, 0#8, 0#8, 65#8]) .reset) (fun t => (t.ilen, t.err))
      = some (0#32, 5#8) := by decide

/-- R53: `ILEN` is written most significant byte first. -/
theorem test_ilen_big_endian :
    afterStep (before (.write .reg 0x050 [0#8, 0#8, 0#8, 64#8]) .reset) (fun t => (t.ilen, t.err))
      = some (64#32, 0#8) := by decide

/-- R32: bits 7 to 2 of `CTRL` ignore a write. -/
theorem test_ctrl_reserved_bits :
    afterStep (before (.write .reg 0x021 [0xFF#8]) .reset) (·.ctrlRead) = some 0x03#8 := by decide

/-- V18: an illegal word written to `CMD`. -/
theorem test_step_illegal_word : afterStep (before (commandWrite 0x0025) .reset) (·.err) = some 5#8 := by decide

/-- R31: `withFetchWord` makes the next step run the word. -/
theorem test_withFetchWord :
    afterStep ((withSt 0x01 .reset).withFetchWord 16 0x0001) (fun t => (t.st, t.host)) = some (hexBlock 0x02, []) := by
  decide +kernel

/-! ### Witnesses: for every statement with hypotheses, an input that meets them all, clause by clause -/

/-- A state that meets the invariant and every precondition: a key of 16 bytes, an IV, tracing on, a message of 3 bytes
that `UNPAD` accepts, a schedule number of 10. -/
def ready : State :=
  { withNr 10#8 (withMessage 3 0xaabb02 (keyed 16 0x0102)) with ctrl := 0x03#8, iv := hexBlock 0x0f }

theorem test_ready_inv : ready.Inv := by decide +kernel

/-- Every command answers a next state in `ready` (and in every state). -/
theorem test_every_command_completes (i : Instr) (s : State) : ∃ t, exec i s = .next t := by
  rcases exec_ends i s with ⟨_, h⟩ | ⟨t, h, -⟩
  · exact ⟨_, h⟩
  · exact ⟨t, h⟩

theorem test_witness_wellFormed :
    [Instr.gfmul2, .addroundkey 0, .addroundkey 15, .pad .none, .unpad .pkcs, .encmsg .ctr .ansi].map Instr.wellFormed
      = List.replicate 6 true := by decide

/-- IllegalCommandOnlySetsErrFive: one word for each case of R77 that stands at the head of the host's list; the two
cases that depend on state, at their boundaries. -/
theorem test_witness_IllegalCommandOnlySetsErrFive :
    (∀ w, (before (commandWrite w) ready).host = commandWrite w :: [])
    ∧ ([0x0000, 0x0120, 0x0824, 0x1030, 0x0131, 0x8040, 0x0340, 0x0C30, 0x0C31, 0x0C40, 0x0031].map fun w =>
        decide (IllegalByR77 w)) = List.replicate 11 true
    ∧ State.reset.nr = 0#8 ∧ ready.nr.toNat < 11 :=
  ⟨fun _ => rfl, by decide +kernel, by decide, by decide⟩

/-- StepRunsTheCommandWrittenToCmd: a legal word, an illegal word, a read of `CMD`, no action. -/
theorem test_witness_StepRunsTheCommandWrittenToCmd :
    ((before (commandWrite 0x0440) ready).host = [commandWrite 0x0440] ∧ decode 0x0440 = .ok (.encmsg .ecb .pkcs))
    ∧ ((before (commandWrite 0x0025) ready).host = [commandWrite 0x0025] ∧ decode 0x0025 = .error .unknownOpcode)
    ∧ (before (.read .reg 0x024 2) ready).host = [.read .reg 0x024 2]
    ∧ ready.host = [] := ⟨⟨rfl, by decide⟩, ⟨rfl, by decide⟩, rfl, rfl⟩

/-- ResetLeavesTheScalarsZero: a reset, with arrays that are not zero. -/
theorem test_witness_ResetLeavesTheScalarsZero :
    (before (.reset ⟨hexKey 4 0xff, zeros 240, hexBlock 0xff, hexBlock 0xff, [1#8], [2#8]⟩) ready).host
      = .reset ⟨hexKey 4 0xff, zeros 240, hexBlock 0xff, hexBlock 0xff, [1#8], [2#8]⟩ :: [] := rfl

/-- ResetStatesMeetTheInvariant: the least capacity, 64, and the greatest legal one. -/
theorem test_witness_legalCapacity :
    Config.legalCapacity 16 = true ∧ Config.legalCapacity 64 = true ∧ Config.legalCapacity (2 ^ 32 - 32) = true
    ∧ Config.legalCapacity (2 ^ 32 - 16) = false := by decide +kernel

/-- EveryStepKeepsTheInvariant, TraceIsOnlyAppendedTo: a step that runs a command. -/
theorem test_witness_step : ready.Inv ∧ ∃ t, step (before (commandWrite 0x0022) ready) = .next t :=
  ⟨test_ready_inv, _, rfl⟩

/-- KeyExpansionFollowsTheRecurrence, FirstRoundKeysAreTheRawKey: keys of the three lengths. -/
theorem test_witness_keyLength :
    ∀ n ∈ [16, 24, 32], (List.replicate n 0x01#8).length ∈ [16, 24, 32] := by decide

/-- ExpandkeyWritesTheSchedule, ExpandkeyDoesNotReadTheOldSchedule: the legal lengths and their neighbours. -/
theorem test_witness_Expandkey :
    (∀ n ∈ [16, 24, 32], (keyed n 0x01).klen.toNat ∈ [16, 24, 32])
    ∧ (∀ n ∈ [0, 15, 17, 23, 25, 31, 33, 255], (keyed n 0x01).klen.toNat ∉ [16, 24, 32])
    ∧ ∃ t, exec .expandkey ready = .next t := by
  refine ⟨by decide +kernel, by decide +kernel, test_every_command_completes _ _⟩

/-- KeyBytesBeyondKlenAreIgnored: two key registers that differ from byte 16 up, in byte 16 itself. -/
theorem test_witness_KeyBytesBeyondKlenAreIgnored :
    (hexKey 17 0x010200).toList.take ready.klen.toNat = (hexKey 17 0x0102ff).toList.take ready.klen.toNat
    ∧ hexKey 17 0x010200 ≠ hexKey 17 0x0102ff
    ∧ ∃ t, exec .encblock ready = .next t := by
  refine ⟨by decide +kernel, by decide +kernel, test_every_command_completes _ _⟩

/-- WordFunctionsOfTheKeySchedule, PaddedLengthIsWholeBlocks: the first and last index of the generating rule, the
schemes. -/
theorem test_witness_small_hypotheses :
    (1 ≤ 1 ∧ 1 < 10) ∧ (1 ≤ 9 ∧ 9 < 10) ∧ Scheme.ansi ≠ .none ∧ Scheme.none = .none := by decide

/-- ShiftrowsRotatesTheRows: a State of four equal columns. -/
theorem test_witness_ShiftrowsRotatesTheRows :
    ∀ i : Fin 16, (hexBlock 0x01020304_01020304_01020304_01020304)[i]
      = (hexBlock 0x01020304_01020304_01020304_01020304)[i.val % 4]'(by omega) := by decide +kernel

/-- AddroundkeyXorsTheRoundKey, EncblockEncryptsTheState, ManualRoundsEqualEncblock: a schedule; the least and the
greatest index of it, the first index above it, and no schedule. -/
theorem test_witness_schedule :
    ready.nr ≠ 0#8 ∧ 0 ≤ ready.nr.toNat ∧ 10 ≤ ready.nr.toNat ∧ ready.nr.toNat < 11 ∧ State.reset.nr = 0#8
    ∧ (15 : Nat) < 16 := by decide +kernel

/-- BlockEncryptionOperationCounts, BlockTraceIsAChain: one round, its first, second and last entries. -/
theorem test_witness_BlockTraceIsAChain :
    1 ≤ 1 ∧ ∃ a b c, (encryptBlock (fun _ => zeros 16) 1 (zeros 16)).entries[0]? = some a
      ∧ (encryptBlock (fun _ => zeros 16) 1 (zeros 16)).entries[1]? = some b
      ∧ (encryptBlock (fun _ => zeros 16) 1 (zeros 16)).entries.getLast? = some c :=
  ⟨Nat.le_refl _, _, _, _, rfl, rfl, rfl⟩

/-- MixColumnsIsLinearAndEncryptBlockIsBijective: a column of four equal bytes. -/
theorem test_witness_MixColumns :
    ∀ r : Fin 4, (hexBlock 0xc6c6c6c6)[4 * (3 : Fin 4).val + r.val]'(by omega) = 0xc6#8 := by decide +kernel

/-- UnpadCutsByTheLastByte, each clause at its boundaries: no message; a length byte 0, 17, above the length; 1, 16,
the whole length. -/
theorem test_witness_UnpadCutsByTheLastByte :
    (Scheme.pkcs ≠ .none ∧ Scheme.ansi ≠ .none ∧ State.reset.ilen = 0#32)
    ∧ (∀ v ∈ [0xaabb00, 0xaabb11, 0xaabb04, 0xaabbff],
        (withMessage 3 v .reset).ilen ≠ 0#32
        ∧ (((withMessage 3 v .reset).ibuf.read ((withMessage 3 v .reset).ilen.toNat - 1)).toNat < 1
          ∨ 16 < ((withMessage 3 v .reset).ibuf.read ((withMessage 3 v .reset).ilen.toNat - 1)).toNat
          ∨ (withMessage 3 v .reset).ilen.toNat
              < ((withMessage 3 v .reset).ibuf.read ((withMessage 3 v .reset).ilen.toNat - 1)).toNat))
    ∧ (∀ v ∈ [0x01, 0x10],
        1 ≤ ((withMessage 16 v .reset).ibuf.read ((withMessage 16 v .reset).ilen.toNat - 1)).toNat
        ∧ ((withMessage 16 v .reset).ibuf.read ((withMessage 16 v .reset).ilen.toNat - 1)).toNat ≤ 16
        ∧ ((withMessage 16 v .reset).ibuf.read ((withMessage 16 v .reset).ilen.toNat - 1)).toNat
            ≤ (withMessage 16 v .reset).ilen.toNat) := by decide +kernel

/-- PadThenUnpadRestoresTheMessage: the host copies the output to the input. -/
theorem test_witness_PadThenUnpadRestoresTheMessage :
    Scheme.pkcs ≠ .none ∧ ready.Inv
    ∧ ∃ t u : State, exec (.pad .pkcs) ready = .next t ∧ u.message = t.output :=
  ⟨by decide, test_ready_inv, _, { ready with ibuf := _, ilen := _ }, rfl, rfl⟩

/-- EncmsgErrorsInOrder: no IV with a bad key; ECB with a bad key; an IV with a bad key. -/
theorem test_witness_EncmsgErrorsInOrder :
    (Mode.cbc ≠ .ecb ∧ (keyed 17 0x01).ivv = false ∧ (keyed 17 0x01).klen.toNat ∉ [16, 24, 32])
    ∧ (withIv 0x01 (keyed 17 0x01)).ivv = true ∧ (withIv 0x01 (keyed 17 0x01)).klen.toNat ∉ [16, 24, 32] := by
  decide +kernel

/-- The preconditions of `ENCMSG` in the three modes (ECB without an IV too), and a first block to speak of. -/
theorem test_witness_CanEncrypt :
    CanEncrypt .ecb ready ∧ CanEncrypt .cbc ready ∧ CanEncrypt .ctr ready ∧ CanEncrypt .ecb (keyed 32 0x01)
    ∧ 0 < blockNumber .pkcs ready := by decide +kernel

/-- EncmsgOfTheEmptyMessage: with and without the preconditions. -/
theorem test_witness_EncmsgOfTheEmptyMessage :
    (CanEncrypt .ecb (keyed 24 0x01) ∧ (keyed 24 0x01).ilen = 0#32 ∧ Scheme.pkcs ≠ .none)
    ∧ ¬ CanEncrypt .cbc (keyed 24 0x01) ∧ ¬ CanEncrypt .ecb State.reset ∧ State.reset.ilen = 0#32 := by decide +kernel

/-- EncmsgLeavesTheExpandkeySchedule, MessageTraceInOrder. -/
theorem test_witness_encmsg_completes :
    CanEncrypt .cbc ready ∧ ∃ t u, exec (.encmsg .cbc .pkcs) ready = .next t ∧ exec .expandkey ready = .next u := by
  obtain ⟨t, ht⟩ := test_every_command_completes (.encmsg .cbc .pkcs) ready
  obtain ⟨u, hu⟩ := test_every_command_completes .expandkey ready
  exact ⟨test_witness_CanEncrypt.2.1, t, u, ht, hu⟩

/-- EcbIgnoresTheIv: a control register with the other `IVV`. -/
theorem test_witness_EcbIgnoresTheIv :
    (0x02#8).getLsbD 1 = ready.ctrl.getLsbD 1 ∧ (0x02#8).getLsbD 0 ≠ ready.ctrl.getLsbD 0
    ∧ ∃ t, exec (.encmsg .ecb .pkcs) ready = .next t :=
  ⟨by decide, by decide, test_every_command_completes _ _⟩

/-- CtrDecryptsByReencryption: the host copies the output to the input. -/
theorem test_witness_CtrDecryptsByReencryption :
    ready.Inv ∧ CanEncrypt .ctr ready
    ∧ ∃ t u x : State, exec (.encmsg .ctr .pkcs) ready = .next t ∧ u.key = ready.key ∧ u.klen = ready.klen
        ∧ u.iv = ready.iv ∧ u.ivv = true ∧ u.message = t.output ∧ Scheme.pkcs ≠ .none ∧ x.message = u.message := by
  obtain ⟨t, ht⟩ := test_every_command_completes (.encmsg .ctr .pkcs) ready
  exact ⟨test_ready_inv, test_witness_CanEncrypt.2.2.1, t, { ready with ibuf := t.obuf, ilen := t.olen },
    { ready with ibuf := t.obuf, ilen := t.olen }, ht, rfl, rfl, rfl,
    (by decide : ready.ivv = true), rfl, by decide, rfl⟩

/-- A message of two blocks whose first block differs from that of `ready32 0x01`. -/
def ready32 (v : Nat) : State := withMessage 32 (v * 256 ^ 16) ready

/-- CbcChangePropagatesForward: two messages of two blocks that differ in block 0. -/
theorem test_witness_CbcChangePropagatesForward :
    CanEncrypt .cbc (ready32 1) ∧ (ready32 2).key = (ready32 1).key ∧ (ready32 2).klen = (ready32 1).klen
    ∧ (ready32 2).iv = (ready32 1).iv ∧ (ready32 2).ivv = true
    ∧ blockNumber .none (ready32 2) = blockNumber .none (ready32 1) ∧ 0 < blockNumber .none (ready32 1)
    ∧ (∀ j, j < blockNumber .none (ready32 1) →
        (plainBlock .none (ready32 2) j = plainBlock .none (ready32 1) j ↔ j ≠ 0))
    ∧ ∃ t t', exec (.encmsg .cbc .none) (ready32 1) = .next t ∧ exec (.encmsg .cbc .none) (ready32 2) = .next t' := by
  obtain ⟨t, ht⟩ := test_every_command_completes (.encmsg .cbc .none) (ready32 1)
  obtain ⟨t', ht'⟩ := test_every_command_completes (.encmsg .cbc .none) (ready32 2)
  refine ⟨by decide +kernel, rfl, rfl, rfl, by decide +kernel, by decide +kernel, by decide +kernel, ?_, t, t', ht, ht'⟩
  decide +kernel

/-- A message of two blocks whose second block differs from that of `ready32Later 1`. -/
def ready32Later (v : Nat) : State := withMessage 32 v ready

/-- CbcChangePropagatesForward, the clause on earlier blocks: two messages of two blocks that differ in the last one. -/
theorem test_witness_CbcChangePropagatesForward_later :
    CanEncrypt .cbc (ready32Later 1) ∧ (ready32Later 2).key = (ready32Later 1).key
    ∧ (ready32Later 2).klen = (ready32Later 1).klen ∧ (ready32Later 2).iv = (ready32Later 1).iv
    ∧ (ready32Later 2).ivv = true ∧ blockNumber .none (ready32Later 2) = blockNumber .none (ready32Later 1)
    ∧ 0 < 1 ∧ 1 < blockNumber .none (ready32Later 1)
    ∧ (∀ j, j < blockNumber .none (ready32Later 1) →
        (plainBlock .none (ready32Later 2) j = plainBlock .none (ready32Later 1) j ↔ j ≠ 1))
    ∧ ∃ t t', exec (.encmsg .cbc .none) (ready32Later 1) = .next t
        ∧ exec (.encmsg .cbc .none) (ready32Later 2) = .next t' := by
  obtain ⟨t, ht⟩ := test_every_command_completes (.encmsg .cbc .none) (ready32Later 1)
  obtain ⟨t', ht'⟩ := test_every_command_completes (.encmsg .cbc .none) (ready32Later 2)
  refine ⟨by decide +kernel, rfl, rfl, rfl, by decide +kernel, by decide +kernel, by decide, by decide +kernel, ?_, t, t',
    ht, ht'⟩
  decide +kernel

/-- TracingDoesNotInterfere, TraceCountsPerCommand: the other `TREN`; a state without tracing; one with it. -/
theorem test_witness_tracing :
    (0x01#8).getLsbD 0 = ready.ctrl.getLsbD 0 ∧ (0x01#8).getLsbD 1 ≠ ready.ctrl.getLsbD 1
    ∧ State.reset.tren = false ∧ ready.tren = true
    ∧ (∃ t, exec .subbytes State.reset = .next t) ∧ ∃ t, exec .encblock ready = .next t :=
  ⟨by decide, by decide, by decide, by decide, test_every_command_completes _ _, test_every_command_completes _ _⟩

/-- FailedCommandChangesOnlyErr: a command that fails. -/
theorem test_witness_FailedCommandChangesOnlyErr : ∃ t, exec .encblock State.reset = .next t ∧ t.err ≠ 0#8 :=
  ⟨_, rfl, by decide⟩

/-- NoCommandModifiesItsInputs, WriteSetsOfTheCommands: commands that write nothing of the schedule, nothing of the
output, nothing of `ST`, nothing of `TRACE`. -/
theorem test_witness_WriteSetsOfTheCommands :
    (Instr.pad .pkcs ≠ .expandkey ∧ ∀ m p, Instr.pad .pkcs ≠ .encmsg m p)
    ∧ ((∀ p, Instr.gfmul2 ≠ .pad p) ∧ (∀ p, Instr.gfmul2 ≠ .unpad p) ∧ ∀ m p, Instr.gfmul2 ≠ .encmsg m p)
    ∧ (∃ t, exec (.pad .pkcs) ready = .next t) ∧ ∃ t, exec .gfmul2 ready = .next t :=
  ⟨⟨nofun, nofun⟩, ⟨nofun, nofun, nofun⟩, test_every_command_completes _ _, test_every_command_completes _ _⟩

/-- WideAccessIsTheByteSequence, ByteArrayAccess: the first and the last accesses of each array and buffer. -/
theorem test_witness_WideAccessIsTheByteSequence :
    [0x01#8] ≠ [] ∧ 0x01F + [0x01#8].length ≤ 0x020 ∧ (0x030 ≤ 0x030 ∧ 0x030 + (List.replicate 16 1#8).length ≤ 0x040)
    ∧ (0x040 ≤ 0x04F ∧ 0x04F + [0x01#8].length ≤ 0x050)
    ∧ (0x100 ≤ 0x100 ∧ 0x100 + (List.replicate 240 1#8).length ≤ 0x1F0)
    ∧ 63 + [0x01#8].length ≤ State.reset.ibufCap ∧ 79 + [0x01#8].length ≤ State.reset.ibufCap + 16 := by
  decide +kernel

/-- IlenAboveTheCapacityIsRefused: the capacity and the value above it; an access that changes `ERR`. -/
theorem test_witness_IlenAboveTheCapacityIsRefused :
    State.reset.ibufCap < (0#8 ++ 0#8 ++ 0#8 ++ 65#8 : BitVec 32).toNat
    ∧ (0#8 ++ 0#8 ++ 0#8 ++ 64#8 : BitVec 32).toNat ≤ State.reset.ibufCap
    ∧ ∃ t, perform (.write .reg 0x050 [0#8, 0#8, 0#8, 65#8]) State.reset = .next t ∧ t.err ≠ State.reset.err :=
  ⟨by decide, by decide, _, rfl, by decide⟩

/-- ReadOnlyAndUnmappedLocations: the ends of the reserved ranges, a wider access that reaches into one, the first
offsets beyond the buffers. -/
theorem test_witness_ReadOnlyAndUnmappedLocations :
    (0x100 ≤ 0x1EF ∧ 0x1EF + [1#8].length ≤ 0x1F0)
    ∧ (∀ o ∈ [0x026, 0x02F, 0x058, 0x0FF, 0x1F0],
        (0x026 ≤ o + 0 ∧ o + 0 < 0x030) ∨ (0x058 ≤ o + 0 ∧ o + 0 < 0x100) ∨ 0x1F0 ≤ o + 0)
    ∧ (1 < [1#8, 1#8].length ∧ 0x026 ≤ 0x025 + 1 ∧ 0x025 + 1 < 0x030)
    ∧ State.reset.ibufCap < 64 + [1#8].length ∧ State.reset.ibufCap + 16 < 80 + [1#8].length
    ∧ ∃ t, perform (.write .reg 0x021 [0xFF#8]) State.reset = .next t :=
  ⟨by decide, by decide, by decide, by decide, by decide, _, rfl⟩

/-- PartialAccessIsRefused: one byte of `CMD`, three bytes of `ILEN`, `ILEN` and `OLEN` at once, `OLEN` misaligned. -/
theorem test_witness_PartialAccessIsRefused :
    (0x025 < 0x026 ∧ 0x024 < 0x025 + 1 ∧ ¬ (0x025 = 0x024 ∧ 1 = 2))
    ∧ (0x050 < 0x054 ∧ 0x050 < 0x050 + 3 ∧ ¬ (0x050 = 0x050 ∧ 3 = 4))
    ∧ (0x050 < 0x054 ∧ 0x050 < 0x050 + 8 ∧ ¬ (0x050 = 0x050 ∧ 8 = 4))
    ∧ (0x052 < 0x058 ∧ 0x054 < 0x052 + 4 ∧ ¬ (0x052 = 0x054 ∧ 4 = 4)) := by decide

/-- ReadsAndRepeatedWritesHaveNoSideEffect: a read, and a write to a location that is not `CMD`. -/
theorem test_witness_ReadsAndRepeatedWrites :
    (∃ t, perform (.read .reg 0x100 240) ready = .next t)
    ∧ ready.Inv ∧ ¬ (Space.ibuf = .reg ∧ 5 = 0x024) ∧ ∃ t, perform (.write .ibuf 5 [1#8, 2#8]) ready = .next t :=
  ⟨⟨_, rfl⟩, test_ready_inv, by decide, _, rfl⟩

/-- BlockCommandsUseTheOldSchedule: the last byte of `KEY`, and `KLEN`; the block commands. -/
theorem test_witness_BlockCommandsUseTheOldSchedule :
    (0x01F < 0x021 ∧ ∃ t, perform (.write .reg 0x01F [1#8]) ready = .next t)
    ∧ (0x020 < 0x021 ∧ ∃ t, perform (.write .reg 0x020 [32#8]) ready = .next t)
    ∧ (∃ t, exec .encblock ready = .next t) ∧ ∃ t, exec (.addroundkey 10) ready = .next t :=
  ⟨⟨by decide, _, rfl⟩, ⟨by decide, _, rfl⟩, test_every_command_completes _ _, test_every_command_completes _ _⟩

end Sys2Proof.Tests
end

section
/-! Proofs of the statements about the state (10_state.md), and the lemmas they share: the inversion of `exec` that
also says what a command writes, and the invariant operation by operation. -/

namespace Sys2Proof.Machine

/-! ### What a command writes -/

/-- The ways command `i` can end from `s`: an error (never code 4, R137), lanes multiplied without a trace, a State
computed with trace entries, the key schedule, an output message, or the key schedule and a message. -/
inductive State.Effect (s : State) : Instr → State → Prop where
  | raised (i : Instr) (e : ErrorKind) (he : e ≠ .blockLengthMismatch) : s.Effect i (s.raise e)
  | lanes (i : Instr) (st : Block) (hi : i = .gfmul2 ∨ i = .gfmul3) : s.Effect i (s.setSt st).succeed
  | rounds (i : Instr) (es : List TraceEntry) (st : Block)
      (hi : i = .encblock ∨ i = .subbytes ∨ i = .shiftrows ∨ i = .mixcolumns ∨ ∃ k, i = .addroundkey k) :
      s.Effect i ((s.emitAll es).setSt st).succeed
  | expandkey (hl : s.keyLengthLegal = true) : s.Effect .expandkey s.runKeySchedule.succeed
  | pad (p : Scheme) : s.Effect (.pad p) (s.setOutput (padMessage p s.message)).succeed
  | unpad (p : Scheme) (b : List Byte) (hb : unpadMessage s.message = some b) :
      s.Effect (.unpad p) (s.setOutput b).succeed
  | encmsg (m : Mode) (p : Scheme) (hl : s.keyLengthLegal = true) :
      s.Effect (.encmsg m p) (s.runKeySchedule.finishMessage (s.runKeySchedule.encryptMessage m p))

/-- A command of one round operation is a State computed with one trace entry. -/
theorem State.effect_roundCommand (s : State) (i : Instr) (e : TraceEntry)
    (hi : i = .encblock ∨ i = .subbytes ∨ i = .shiftrows ∨ i = .mixcolumns ∨ ∃ k, i = .addroundkey k) :
    s.Effect i (s.roundCommand e) :=
  .rounds i [e] e.state hi

/-- The inversion of `exec` with what the command writes (`exec_ends` says what it leaves alone). -/
theorem exec_effect {i : Instr} {s t : State} (h : exec i s = .next t) : s.Effect i t := by
  cases i with
  | gfmul2 => cases h; exact .lanes _ _ (.inl rfl)
  | gfmul3 => cases h; exact .lanes _ _ (.inr rfl)
  | expandkey =>
    simp only [exec, execExpandkey] at h
    split at h <;> cases h
    · next hl => exact .expandkey hl
    · exact .raised _ _ nofun
  | encblock =>
    simp only [exec, execEncblock] at h
    split at h <;> cases h
    · exact .raised _ _ nofun
    · exact .rounds _ _ _ (by simp)
  | subbytes => cases h; exact s.effect_roundCommand _ _ (by simp)
  | shiftrows => cases h; exact s.effect_roundCommand _ _ (by simp)
  | mixcolumns => cases h; exact s.effect_roundCommand _ _ (by simp)
  | addroundkey k =>
    simp only [exec, execAddroundkey] at h
    split at h <;> cases h
    · exact .raised _ _ nofun
    · exact s.effect_roundCommand _ _ (by simp)
  | pad p => cases h; exact .pad p
  | unpad p =>
    simp only [exec, execUnpad] at h
    split at h
    · cases h; exact .raised _ _ nofun
    · split at h <;> cases h
      · exact .raised _ _ nofun
      · next b hb => exact .unpad p b hb
  | encmsg m p =>
    simp only [exec, execEncmsg] at h
    split at h
    · cases h; exact .raised _ _ nofun
    · split at h <;> cases h
      · next hl => exact .encmsg m p hl
      · exact .raised _ _ nofun

/-- A command other than `EXPANDKEY` and `ENCMSG` leaves the schedule (R38). -/
theorem State.Effect.scheduleKept {s t : State} {i : Instr} (h : s.Effect i t) (h1 : i ≠ .expandkey)
    (h2 : ∀ m p, i ≠ .encmsg m p) : ScheduleKept s t := by
  cases h with
  | raised | lanes | pad | unpad => exact ⟨rfl, rfl⟩
  | rounds => simp [ScheduleKept]
  | expandkey => exact absurd rfl h1
  | encmsg m p => exact absurd rfl (h2 m p)

/-- A command other than `PAD`, `UNPAD` and `ENCMSG` leaves the output (R38). -/
theorem State.Effect.outputKept {s t : State} {i : Instr} (h : s.Effect i t) (h1 : ∀ p, i ≠ .pad p)
    (h2 : ∀ p, i ≠ .unpad p) (h3 : ∀ m p, i ≠ .encmsg m p) : OutputKept s t := by
  cases h with
  | raised | lanes | expandkey => exact ⟨fun _ => rfl, rfl⟩
  | rounds => simp [OutputKept]
  | pad p => exact absurd rfl (h1 p)
  | unpad p => exact absurd rfl (h2 p)
  | encmsg m p => exact absurd rfl (h3 m p)

/-- `EXPANDKEY`, `PAD` and `UNPAD` leave `ST` (R38). -/
theorem State.Effect.st_kept {s t : State} {i : Instr} (h : s.Effect i t)
    (hi : i = .expandkey ∨ (∃ p, i = .pad p) ∨ ∃ p, i = .unpad p) : t.st = s.st := by
  cases h with
  | raised | expandkey | pad | unpad => rfl
  | lanes _ _ h => rcases h with rfl | rfl <;> simp at hi
  | rounds _ _ _ h => rcases h with rfl | rfl | rfl | rfl | ⟨k, rfl⟩ <;> simp at hi
  | encmsg => simp at hi

/-- `GFMUL2`, `GFMUL3`, `EXPANDKEY`, `PAD` and `UNPAD` leave `TRACE` (R38). -/
theorem State.Effect.trace_kept {s t : State} {i : Instr} (h : s.Effect i t)
    (hi : i = .gfmul2 ∨ i = .gfmul3 ∨ i = .expandkey ∨ (∃ p, i = .pad p) ∨ ∃ p, i = .unpad p) :
    t.trace = s.trace := by
  cases h with
  | raised | lanes | expandkey | pad | unpad => rfl
  | rounds _ _ _ h => rcases h with rfl | rfl | rfl | rfl | ⟨k, rfl⟩ <;> simp at hi
  | encmsg => simp at hi

/-! ### Lengths of what is written out -/

theorem length_padMessage_le (p : Scheme) (b : List Byte) : (padMessage p b).length ≤ b.length + 16 := by
  rw [length_padMessage]
  split <;> simp only [zeroFill, padLength] <;> omega

theorem length_le_of_unpadMessage_eq_some {b c : List Byte} (h : unpadMessage b = some c) : c.length ≤ b.length := by
  unfold unpadMessage at h
  split at h
  · cases h
  · simp only [Option.ite_none_left_eq_some, Option.some.injEq] at h
    rw [← h.2]
    exact List.length_take_le' _ _

/-- The ciphertext is the whole blocks of the padded message. -/
theorem State.length_ciphertext_le (s : State) (m : Mode) (p : Scheme) :
    (ciphertextOf (s.encryptMessage m p)).length ≤ s.ilen.toNat + 16 := by
  have h := length_padMessage_le p s.message
  rw [State.length_message] at h
  rw [length_ciphertextOf, State.length_encryptMessage]
  omega

/-! ### The invariant, operation by operation

A write to a field that the invariant does not mention keeps it by unfolding alone (`KEY`, `KLEN`, `ST`, `IV`, `TRACE`,
the coming accesses, the bytes read); the operations below write one that it does. -/

theorem State.Inv.raise {s : State} (hs : s.Inv) {e : ErrorKind} (he : e ≠ .blockLengthMismatch) : (s.raise e).Inv := by
  obtain ⟨hcap, hiwf, hib, howf, hob, hilen, holen, hnr, hctrl, -⟩ := hs
  refine ⟨hcap, hiwf, hib, howf, hob, hilen, holen, hnr, hctrl, ?_⟩
  cases e <;> simp [errorCode] at he ⊢

theorem State.Inv.succeed {s : State} (hs : s.Inv) : s.succeed.Inv := by
  obtain ⟨hcap, hiwf, hib, howf, hob, hilen, holen, hnr, hctrl, -⟩ := hs
  exact ⟨hcap, hiwf, hib, howf, hob, hilen, holen, hnr, hctrl, .inl rfl⟩

theorem State.Inv.emitAll {s : State} (hs : s.Inv) (es : List TraceEntry) : (s.emitAll es).Inv := by
  rw [State.emitAll_eq]; exact hs

theorem State.Inv.setOutput {s : State} (hs : s.Inv) {bs : List Byte} (hbs : bs.length ≤ s.ilen.toNat + 16) :
    (s.setOutput bs).Inv := by
  obtain ⟨hcap, hiwf, hib, howf, hob, hilen, -, hnr, hctrl, herr⟩ := hs
  have hlen : bs.length ≤ Config.obufCap s.ibufCap := by simp only [Config.obufCap]; omega
  refine ⟨hcap, hiwf, hib, Memory.wf_writeRange _ _ _ howf, Memory.below_writeRange _ _ _ _ (by simpa using hlen) hob,
    hilen, ?_, hnr, hctrl, herr⟩
  rw [State.setOutput_olen, BitVec.toNat_ofNat]
  exact (Nat.mod_le _ _).trans hlen

/-- The numbers of rounds of the legal key lengths are 10, 12 and 14 (R25, R111). -/
theorem State.runKeySchedule_nr_of_legal {s : State} (hl : s.keyLengthLegal = true) :
    s.runKeySchedule.nr = 10#8 ∨ s.runKeySchedule.nr = 12#8 ∨ s.runKeySchedule.nr = 14#8 := by
  rw [State.keyLengthLegal_iff] at hl
  simp only [List.mem_cons, List.not_mem_nil, or_false] at hl
  rcases hl with h | h | h <;> simp [h, roundsOf, wordsOfKey]

theorem State.Inv.runKeySchedule {s : State} (hs : s.Inv) (hl : s.keyLengthLegal = true) : s.runKeySchedule.Inv := by
  obtain ⟨hcap, hiwf, hib, howf, hob, hilen, holen, -, hctrl, herr⟩ := hs
  exact ⟨hcap, hiwf, hib, howf, hob, hilen, holen, .inr (s.runKeySchedule_nr_of_legal hl), hctrl, herr⟩

theorem State.Inv.finishMessage {s : State} (hs : s.Inv) {rs : List BlockResult}
    (hrs : (ciphertextOf rs).length ≤ s.ilen.toNat + 16) : (s.finishMessage rs).Inv := by
  have hout : ((s.emitAll (rs.flatMap fun r => r.entries)).setOutput (ciphertextOf rs)).Inv :=
    (hs.emitAll _).setOutput (by simpa using hrs)
  exact State.Inv.succeed hout

theorem ctrlWritten_reserved (v : Byte) : ctrlWritten v &&& 0xFC#8 = 0#8 := by
  simp [ctrlWritten, ctrlMask, BitVec.and_assoc]

theorem State.Inv.setCtrl {s : State} (hs : s.Inv) (v : Byte) : (s.setCtrl v).Inv := by
  obtain ⟨hcap, hiwf, hib, howf, hob, hilen, holen, hnr, -, herr⟩ := hs
  exact ⟨hcap, hiwf, hib, howf, hob, hilen, holen, hnr, ctrlWritten_reserved v, herr⟩

theorem State.Inv.setIbuf {s : State} (hs : s.Inv) {off : Nat} {bs : List Byte} (hb : off + bs.length ≤ s.ibufCap) :
    (s.setIbuf off bs).Inv := by
  obtain ⟨hcap, hiwf, hib, hrest⟩ := hs
  exact ⟨hcap, Memory.wf_writeRange _ _ _ hiwf, Memory.below_writeRange _ _ _ _ hb hib, hrest⟩

/-- A length above the capacity is refused with error 5, any other is within it (R58). -/
theorem State.Inv.writeIlen {s : State} (hs : s.Inv) (v : BitVec 32) : (s.writeIlen v).Inv := by
  unfold State.writeIlen
  split
  · next hv =>
    obtain ⟨hcap, hiwf, hib, howf, hob, -, hrest⟩ := hs
    exact ⟨hcap, hiwf, hib, howf, hob, hv, hrest⟩
  · exact hs.raise nofun

/-- After a reset the invariant holds, whatever held before it but for the capacity (R39, R236). -/
theorem State.inv_resetWith {s : State} (hcap : Config.legalCapacity s.ibufCap = true) (d : ResetDraw) :
    (s.resetWith d).Inv := by
  obtain ⟨hiwf, howf⟩ := resetWith_memory_wf s d
  have hbelow (cap : Nat) (bs : List Byte) : (Memory.writeRange [] 0 (bs.take cap)).below cap = true :=
    Memory.below_writeRange _ _ _ _ (by simp) rfl
  exact ⟨hcap, hiwf, hbelow _ _, howf, hbelow _ _, Nat.zero_le _, Nat.zero_le _, .inl rfl,
    BitVec.zero_and, .inl rfl⟩

/-! ### The invariant, step by step -/

theorem exec_keeps_inv {i : Instr} {s t : State} (hs : s.Inv) (h : exec i s = .next t) : t.Inv := by
  cases exec_effect h with
  | raised _ e he => exact hs.raise he
  | lanes => exact State.Inv.succeed (s := s.setSt _) hs
  | rounds => exact State.Inv.succeed (s := (s.emitAll _).setSt _) (hs.emitAll _)
  | expandkey hl => exact (hs.runKeySchedule hl).succeed
  | pad p => exact (hs.setOutput (by simpa using length_padMessage_le p s.message)).succeed
  | unpad p b hb =>
    have hlen := length_le_of_unpadMessage_eq_some hb
    rw [State.length_message] at hlen
    exact (hs.setOutput (by omega)).succeed
  | encmsg m p hl => exact (hs.runKeySchedule hl).finishMessage (State.length_ciphertext_le _ m p)

/-- A word written to `CMD` runs a command or raises `IllegalCommand` (R31, R77). -/
theorem runWord_cases {hi lo : Byte} {s t : State} (h : runWord hi lo s = .next t) :
    (∃ i, exec i s = .next t) ∨ t = s.raise .illegalCommand := by
  unfold runWord at h
  split at h
  · exact .inl ⟨_, h⟩
  · cases h; exact .inr rfl

theorem runWord_keeps_inv {hi lo : Byte} {s t : State} (hs : s.Inv) (h : runWord hi lo s = .next t) : t.Inv := by
  rcases runWord_cases h with ⟨i, hi⟩ | rfl
  · exact exec_keeps_inv hs hi
  · exact hs.raise nofun

theorem hostWrite_keeps_inv {sp : Space} {off : Nat} {bs : List Byte} {s t : State} (hs : s.Inv)
    (h : hostWrite sp off bs s = .next t) : t.Inv := by
  rcases hostWrite_cases h with rfl | ⟨-, -, -, hrun⟩ | ⟨-, -, rfl⟩ | ⟨-, -, rfl⟩ | ⟨-, -, rfl⟩ | ⟨-, -, -, rfl⟩
    | ⟨-, -, -, rfl⟩ | ⟨-, -, rfl⟩ | ⟨-, hb, rfl⟩
  · exact hs
  · exact runWord_keeps_inv hs hrun
  · exact hs
  · exact hs
  · exact hs.setCtrl _
  · exact hs
  · exact hs
  · exact hs.writeIlen _
  · exact hs.setIbuf hb

theorem perform_keeps_inv {a : HostAction} {s t : State} (hs : s.Inv) (h : perform a s = .next t) : t.Inv := by
  cases a with
  | write sp off bs => exact hostWrite_keeps_inv hs h
  | read sp off n =>
    obtain ⟨bs, rfl⟩ := hostRead_cases h
    exact hs
  | reset d =>
    cases h
    obtain ⟨hcap, -⟩ := hs
    exact State.inv_resetWith hcap d

/-- The inversion of `step`: the engine is idle, or serves the oldest of the host's accesses (R60, R231). -/
theorem step_cases {s t : State} (h : step s = .next t) :
    (s.host = [] ∧ t = s) ∨ ∃ a rest, s.host = a :: rest ∧ perform a (s.setHost rest) = .next t := by
  cases hh : s.host with
  | nil => simp only [step, serve, hh] at h; cases h; exact .inl ⟨rfl, rfl⟩
  | cons a rest => exact .inr ⟨a, rest, rfl, (step_cons s a rest hh).symm.trans h⟩

/-! ### The trace -/

theorem exec_appends_to_trace {i : Instr} {s t : State} (h : exec i s = .next t) : s.trace <+: t.trace := by
  rcases exec_cases h with ⟨e, rfl⟩ | hs
  · exact List.prefix_refl _
  · obtain ⟨es, he⟩ := hs.trace
    exact ⟨_, he.symm⟩

theorem runWord_appends_to_trace {hi lo : Byte} {s t : State} (h : runWord hi lo s = .next t) : s.trace <+: t.trace := by
  rcases runWord_cases h with ⟨i, hi⟩ | rfl
  · exact exec_appends_to_trace hi
  · exact List.prefix_refl _

@[simp] theorem State.writeIlen_trace (s : State) (v : BitVec 32) : (s.writeIlen v).trace = s.trace := by
  unfold State.writeIlen; split <;> rfl

/-- Of the host's writes only a command word appends to `TRACE`. -/
theorem hostWrite_appends_to_trace {sp : Space} {off : Nat} {bs : List Byte} {s t : State}
    (h : hostWrite sp off bs s = .next t) : s.trace <+: t.trace := by
  rcases hostWrite_cases h with rfl | ⟨-, -, -, hrun⟩ | ⟨-, -, rfl⟩ | ⟨-, -, rfl⟩ | ⟨-, -, rfl⟩ | ⟨-, -, -, rfl⟩
    | ⟨-, -, -, rfl⟩ | ⟨-, -, rfl⟩ | ⟨-, -, rfl⟩
  · exact List.prefix_refl _
  · exact runWord_appends_to_trace hrun
  · exact List.prefix_refl _
  · exact List.prefix_refl _
  · exact List.prefix_refl _
  · exact List.prefix_refl _
  · exact List.prefix_refl _
  · rw [State.writeIlen_trace]
  · exact List.prefix_refl _

/-! ### The key in use -/

/-- The key schedule reads no byte of `KEY` outside the key in use. -/
theorem State.runKeySchedule_setKey {s : State} {key : Bytes 32} (hk : (s.setKey key).keyInUse = s.keyInUse) :
    (s.setKey key).runKeySchedule = s.runKeySchedule.setKey key := by
  simp only [State.runKeySchedule, hk]
  rfl

theorem State.emitAll_setKey (s : State) (key : Bytes 32) (es : List TraceEntry) :
    (s.setKey key).emitAll es = (s.emitAll es).setKey key := by
  simp only [State.emitAll_eq]; rfl

theorem State.roundCommand_setKey (s : State) (key : Bytes 32) (e : TraceEntry) :
    (s.setKey key).roundCommand e = (s.roundCommand e).setKey key := by
  simp only [State.roundCommand_eq]; rfl

theorem State.finishMessage_setKey (s : State) (key : Bytes 32) (rs : List BlockResult) :
    (s.setKey key).finishMessage rs = (s.finishMessage rs).setKey key := by
  simp only [State.finishMessage_eq]; rfl

/-- Every command commutes with a change of `KEY` that keeps the key in use (R21). -/
theorem exec_setKey {i : Instr} {s t : State} {key : Bytes 32} (hk : (s.setKey key).keyInUse = s.keyInUse)
    (h : exec i s = .next t) : exec i (s.setKey key) = .next (t.setKey key) := by
  cases i with
  | gfmul2 | gfmul3 | pad => cases h; rfl
  | subbytes | shiftrows | mixcolumns => cases h; exact congrArg _ (s.roundCommand_setKey key _)
  | expandkey =>
    simp only [exec, execExpandkey, State.setKey_keyLengthLegal, State.runKeySchedule_setKey hk] at h ⊢
    split_ifs at h ⊢ <;> cases h <;> rfl
  | encblock =>
    simp only [exec, execEncblock, State.setKey_nr, State.setKey_st, State.setKey_encrypt, State.emitAll_setKey] at h ⊢
    split_ifs at h ⊢ <;> cases h <;> rfl
  | addroundkey k =>
    simp only [exec, execAddroundkey, State.setKey_nr, State.setKey_st, State.setKey_roundKey,
      State.roundCommand_setKey] at h ⊢
    split_ifs at h ⊢ <;> cases h <;> rfl
  | unpad p =>
    simp only [exec, execUnpad, State.setKey_message] at h ⊢
    split_ifs at h ⊢
    · cases h; rfl
    · cases hb : unpadMessage s.message <;> simp only [hb] at h ⊢ <;> cases h <;> rfl
  | encmsg m p =>
    have hm : (s.runKeySchedule.setKey key).encryptMessage m p = s.runKeySchedule.encryptMessage m p := rfl
    simp only [exec, execEncmsg, State.setKey_ivv, State.setKey_keyLengthLegal, State.runKeySchedule_setKey hk, hm,
      State.finishMessage_setKey] at h ⊢
    split_ifs at h ⊢ <;> cases h <;> rfl

/-! ### Blocked block commands -/

theorem exec_encblock_of_nr_eq_zero {s : State} (h : s.nr = 0#8) : exec .encblock s = .next (s.raise .illegalCommand) := by
  simp only [exec, execEncblock, if_pos h]

theorem exec_addroundkey_of_no_key {s : State} {k : Nat} (h : s.nr = 0#8 ∨ s.nr.toNat < k) :
    exec (.addroundkey k) s = .next (s.raise .illegalCommand) := by
  simp only [exec, execAddroundkey, if_pos h]

/-! ### The command word -/

/-- The step that serves the write of a command's word runs the command (R31). -/
theorem step_commandWrite_of_decode_ok {s : State} {w : CmdWord} {rest : List HostAction} {i : Instr}
    (h : s.host = commandWrite w :: rest) (hd : decode w = .ok i) : step s = exec i (s.setHost rest) := by
  rw [step_cons s _ rest h, perform_commandWrite, runWord, decodeBytes_extract, hd]

/-- The step that serves the write of any other word raises `IllegalCommand` (R77). -/
theorem step_commandWrite_of_decode_error {s : State} {w : CmdWord} {rest : List HostAction} {e : IllegalWord}
    (h : s.host = commandWrite w :: rest) (hd : decode w = .error e) :
    step s = .next ((s.setHost rest).raise .illegalCommand) := by
  rw [step_cons s _ rest h, perform_commandWrite, runWord, decodeBytes_extract, hd]

theorem State.withFetchWord_toNat (s : State) (w : CmdWord) :
    s.withFetchWord 16 w.toNat = s.setHost (commandWrite w :: s.host) := by
  rw [State.withFetchWord, Nat.mod_eq_of_lt w.isLt, BitVec.ofNat_toNat, BitVec.setWidth_eq]

end Sys2Proof.Machine

namespace Sys2Proof

open Laws.OpcodeRow

/-- The row of the opcode table, for every command. -/
theorem opcodeRow (i : Instr) : Statement i := by
  cases i with
  | gfmul2 => exact gfmul2
  | gfmul3 => exact gfmul3
  | expandkey => exact expandkey
  | encblock => exact encblock
  | subbytes => exact subbytes
  | shiftrows => exact shiftrows
  | mixcolumns => exact mixcolumns
  | addroundkey k => exact addroundkey k
  | pad p => exact pad p
  | unpad p => exact unpad p
  | encmsg m p => exact encmsg m p

theorem fieldRk_encode_addroundkey {k : Nat} (hk : k < 16) : fieldRk (encode (.addroundkey k)) = k := by
  have all : ∀ k : Fin 16, fieldRk (encode (.addroundkey k)) = k := by decide
  exact all ⟨k, hk⟩

/-- The fields that a command's format uses hold its operands. -/
theorem commandOf_encode {i : Instr} (h : i.wellFormed = true) : commandOf (opcodeOfInstr i) (encode i) = .ok i := by
  cases i with
  | gfmul2 | gfmul3 | expandkey | encblock | subbytes | shiftrows | mixcolumns => rfl
  | addroundkey k =>
    have hk : k < 16 := by simpa [Instr.wellFormed] using h
    simp only [opcodeOfInstr, commandOf, fieldRk_encode_addroundkey hk]
  | pad p | unpad p => cases p <;> rfl
  | encmsg m p => cases m <;> cases p <;> rfl

/-- The decoder reads the word of a well-formed command back (R76). -/
theorem decode_encode {i : Instr} (h : i.wellFormed = true) : decode (encode i) = .ok i := by
  obtain ⟨hop, hzero⟩ := opcodeRow i h
  simp only [decode, hop, hzero, if_true, commandOf_encode h]

end Sys2Proof

section
open Sys2Proof Sys2Proof.Machine

/-- Settles O9: the host's oldest access keeps the invariant, and so does the idle engine. -/
theorem everyStepKeepsTheInvariant : Obligations.EveryStepKeepsTheInvariant := by
  intro s t hs h
  rcases step_cases h with ⟨-, rfl⟩ | ⟨a, rest, -, ha⟩
  · exact hs
  · exact perform_keeps_inv (s := s.setHost rest) hs ha

/-- Settles O19: of `KEY` a command reads the key in use alone. -/
theorem keyBytesBeyondKlenAreIgnored : Obligations.KeyBytesBeyondKlenAreIgnored :=
  fun _ _ _ _ hk h => exec_setKey hk h

/-- Settles O47: reads leave `TRACE`, writes only append to it, and a reset empties it. -/
theorem traceIsOnlyAppendedTo : Obligations.TraceIsOnlyAppendedTo := by
  intro s t h
  rcases step_cases h with ⟨-, rfl⟩ | ⟨a, rest, hhost, ha⟩
  · exact .inl (List.prefix_refl _)
  · cases a with
    | write sp off bs => exact .inl (hostWrite_appends_to_trace (s := s.setHost rest) ha)
    | read sp off n =>
      obtain ⟨bs, rfl⟩ := hostRead_cases ha
      exact .inl (List.prefix_refl _)
    | reset d => cases ha; exact .inr ⟨d, rest, hhost, rfl⟩

/-- Settles O50: a failing command writes `ERR` alone, and a successful one leaves what `State.Succeeds` names. -/
theorem noCommandModifiesItsInputs : Obligations.NoCommandModifiesItsInputs := by
  intro i s t h
  rcases exec_cases h with ⟨e, rfl⟩ | hs
  · exact ⟨⟨rfl, rfl⟩, ⟨rfl, rfl⟩, ⟨fun _ => rfl, rfl⟩, rfl, rfl, rfl⟩
  · exact ⟨⟨hs.key, hs.klen⟩, ⟨hs.iv, hs.ctrl⟩, ⟨fun a => by rw [hs.ibuf], hs.ilen⟩, hs.ibufCap, hs.host, hs.rdata⟩

/-- Settles O51, from the effects a command can have. -/
theorem writeSetsOfTheCommands : Obligations.WriteSetsOfTheCommands := by
  intro i s t h
  have he := exec_effect h
  exact ⟨he.scheduleKept, he.outputKept, he.st_kept, he.trace_kept⟩

/-- Settles O5: what the step serves is the oldest access. -/
theorem stepRunsTheCommandWrittenToCmd : Obligations.StepRunsTheCommandWrittenToCmd := by
  refine ⟨fun s w rest i h hd => ?_, fun s w rest e h hd => ?_, fun s rest h => ?_, fun s h => ?_⟩
  · exact step_commandWrite_of_decode_ok h hd
  · exact step_commandWrite_of_decode_error h hd
  · rw [step_cons s _ rest h]; rfl
  · simp only [step, serve, h]

/-- Settles O6: the word placed is the word decoded, and decoding gives the command back. -/
theorem withFetchWordRunsTheWordNext : Obligations.WithFetchWordRunsTheWordNext := by
  refine ⟨State.withFetchWord_toNat, fun s i hi => ?_⟩
  rw [State.withFetchWord_toNat, step_commandWrite_of_decode_ok (State.setHost_host s _) (decode_encode hi)]
  rfl

/-- Settles O7: reset writes the scalars, and with `NR = 0` the block commands raise error 5. -/
theorem resetLeavesTheScalarsZero : Obligations.ResetLeavesTheScalarsZero := by
  refine ⟨fun s d rest h => ?_, rfl, rfl, rfl, rfl, rfl, rfl, rfl⟩
  refine ⟨(s.setHost rest).resetWith d, step_cons s _ rest h, rfl, rfl, rfl, BitVec.getLsbD_zero,
    BitVec.getLsbD_zero, rfl, rfl, rfl, rfl, rfl, rfl, ?_, ?_⟩
  · exact exec_encblock_of_nr_eq_zero rfl
  · exact fun k => exec_addroundkey_of_no_key (.inl rfl)

end
end

section
/-! Proofs of the statements about the host's accesses (20_memory.md), and the lemmas they share: what each location
of the three spaces answers to a read and to a write. -/

namespace Sys2Proof.Machine

/-! ### Writes and reads of a byte array -/

theorem writeBytes_singleton {n : Nat} (v : Bytes n) (j : Nat) (b : Byte) (h : j < n) :
    writeBytes v j [b] = v.set j b := by
  refine Vector.ext fun i hi => ?_
  rw [Vector.getElem_set]
  split
  · next hij => subst hij; simp [getElem_writeBytes]
  · rw [getElem_writeBytes_outside _ _ _ _ hi (by simp only [List.length_singleton]; omega)]

/-- Bytes written in ascending order, the first one alone (R54). -/
theorem writeBytes_cons {n : Nat} (v : Bytes n) (j : Nat) (b : Byte) (bs : List Byte) :
    writeBytes (writeBytes v j [b]) (j + 1) bs = writeBytes v j (b :: bs) := by
  refine Vector.ext fun i hi => ?_
  simp only [getElem_writeBytes]
  rcases Nat.lt_trichotomy i j with h | rfl | h
  · rw [if_neg (by omega), if_neg (by omega), if_neg (by omega)]
  · simp
  · obtain ⟨k, rfl⟩ := Nat.exists_eq_add_of_lt h
    rw [if_pos (by omega), if_pos (by omega), if_pos (by omega), show j + k + 1 - (j + 1) = k by omega,
      show j + k + 1 - j = k + 1 by omega]
    simp

@[simp] theorem writeBytes_repeat {n : Nat} (v : Bytes n) (j : Nat) (bs : List Byte) :
    writeBytes (writeBytes v j bs) j bs = writeBytes v j bs := by
  refine Vector.ext fun i hi => ?_
  by_cases h : j ≤ i ∧ i - j < bs.length
  · rw [getElem_writeBytes_inside _ _ _ _ hi h.1 h.2, getElem_writeBytes_inside _ _ _ _ hi h.1 h.2]
  · rw [getElem_writeBytes_outside _ _ _ _ hi (by omega)]

theorem readBytes_one {k : Nat} (v : Bytes k) (j : Nat) (h : j < k) : readBytes v j 1 = [v[j]] := by
  rw [readBytes, List.drop_eq_getElem_cons (by simpa using h)]
  simp

/-- A byte of a wider read is what the byte read gives (R54). -/
theorem readBytes_one_eq_getD {k : Nat} (v : Bytes k) {j n i : Nat} (h : j + n ≤ k) (hi : i < n) :
    readBytes v (j + i) 1 = [(readBytes v j n).getD i 0#8] := by
  rw [readBytes_one v _ (by omega), List.getD_eq_getElem _ _ (by rw [length_readBytes v j n h]; exact hi)]
  simp [readBytes]

/-! ### Writes and reads of a buffer space -/

theorem Memory.writeRange_repeat {m : Memory} (hm : m.wf = true) (x : Nat) (bs : List Byte) :
    (m.writeRange x bs).writeRange x bs = m.writeRange x bs := by
  have hwf := Memory.wf_writeRange m x bs hm
  refine Memory.ext_of_wf _ _ (Memory.wf_writeRange _ x bs hwf) hwf fun y => ?_
  by_cases h : x ≤ y ∧ y - x < bs.length
  · rw [Memory.read_writeRange_inside _ _ _ _ h.1 h.2, Memory.read_writeRange_inside _ _ _ _ h.1 h.2]
  · rw [Memory.read_writeRange_outside _ _ _ _ (by omega)]

@[simp] theorem Memory.readRange_one (m : Memory) (x : Nat) : m.readRange x 1 = [m.read x] := rfl

/-- A byte of a wider read is what the byte read gives (R54). -/
theorem Memory.readRange_one_eq_getD (m : Memory) (x : Nat) {n i : Nat} (hi : i < n) :
    m.readRange (x + i) 1 = [(m.readRange x n).getD i 0#8] := by
  rw [Memory.readRange_one, List.getD_eq_getElem _ _ (by simpa using hi), Memory.getElem_readRange]

theorem State.setIbuf_repeat {s : State} (hwf : s.ibuf.wf = true) (off : Nat) (bs : List Byte) :
    (s.setIbuf off bs).setIbuf off bs = s.setIbuf off bs := by
  simp only [State.setIbuf, Memory.writeRange_repeat hwf]

/-! ### The bits and bytes of the registers -/

@[simp] theorem State.setKey_setKey (s : State) (v w : Bytes 32) : (s.setKey v).setKey w = s.setKey w := rfl
@[simp] theorem State.setIv_setIv (s : State) (v w : Block) : (s.setIv v).setIv w = s.setIv w := rfl
@[simp] theorem State.setSt_setSt (s : State) (v w : Block) : (s.setSt v).setSt w = s.setSt w := rfl

theorem getLsbD_ctrlMask (i : Nat) : ctrlMask.getLsbD i = decide (i < 2) := Nat.testBit_two_pow_sub_one 2 i

theorem getLsbD_ctrlWritten (v : Byte) (i : Nat) : (ctrlWritten v).getLsbD i = (v.getLsbD i && decide (i < 2)) := by
  rw [ctrlWritten, BitVec.getLsbD_and, getLsbD_ctrlMask]

theorem getLsbD_ctrlWritten_of_lt (v : Byte) {i : Nat} (hi : i < 2) : (ctrlWritten v).getLsbD i = v.getLsbD i := by
  simp only [getLsbD_ctrlWritten, hi, decide_true, Bool.and_true]

theorem getLsbD_ctrlWritten_of_le (v : Byte) {i : Nat} (hi : 2 ≤ i) : (ctrlWritten v).getLsbD i = false := by
  simp only [getLsbD_ctrlWritten, Nat.not_lt.mpr hi, decide_false, Bool.and_false]

theorem toNat_append_byte {n : Nat} (x : BitVec n) (b : Byte) : (x ++ b).toNat = 256 * x.toNat + b.toNat := by
  rw [BitVec.toNat_append, ← Nat.shiftLeft_add_eq_or_of_lt b.isLt, Nat.shiftLeft_eq, Nat.mul_comm]

/-- Four bytes as a 32-bit value, the first most significant (R53). -/
theorem ofNat_natOfBytes_four (b3 b2 b1 b0 : Byte) :
    BitVec.ofNat 32 (natOfBytes [b3, b2, b1, b0]) = b3 ++ b2 ++ b1 ++ b0 := by
  apply BitVec.eq_of_toNat_eq
  rw [BitVec.toNat_ofNat, Nat.mod_eq_of_lt] <;> simp only [toNat_append_byte, natOfBytes, List.foldl] <;> omega

/-- The four bytes of a 32-bit value, the most significant first (R53). -/
theorem bytesOfNat_four (v : BitVec 32) :
    bytesOfNat 4 v.toNat = [v.extractLsb' 24 8, v.extractLsb' 16 8, v.extractLsb' 8 8, v.extractLsb' 0 8] := by
  have hbyte (k : Nat) : v.extractLsb' (8 * k) 8 = BitVec.ofNat 8 (v.toNat / 256 ^ k) := by
    rw [BitVec.extractLsb', Nat.shiftRight_eq_div_pow, Nat.pow_mul]
  rw [hbyte 3, hbyte 2, hbyte 1, hbyte 0]
  rfl

/-! ### The targets of `REG` -/

/-- The byte arrays of `REG` (R51). -/
inductive RegArray where
  | key | iv | st | w

/-- The offset of an array's first byte (R51). -/
def RegArray.base : RegArray → Nat
  | .key => 0x000
  | .iv => 0x030
  | .st => 0x040
  | .w => 0x100

/-- The number of bytes of an array (R51). -/
def RegArray.size : RegArray → Nat
  | .key => 32
  | .iv => 16
  | .st => 16
  | .w => 240

/-- The target of an access that starts at byte `j` of an array. -/
def RegArray.target : RegArray → Nat → RegTarget
  | .key => .key
  | .iv => .iv
  | .st => .st
  | .w => .w

/-- Every access within an array reaches it (R54). -/
theorem RegArray.regTarget_eq (a : RegArray) {j n : Nat} (hn : n ≠ 0) (h : j + n ≤ a.size) :
    regTarget (a.base + j) n = .ok (a.target j) := by
  cases a <;> simp only [RegArray.base, RegArray.size, RegArray.target] at h ⊢ <;>
    simp (disch := omega) only [regTarget, if_pos, if_neg, Nat.add_sub_cancel_left, Nat.zero_add]

/-- The offsets of an access within one array, as R54's claim writes them. -/
theorem RegArray.exists_of_within {off n : Nat}
    (h : off + n ≤ 0x020 ∨ (0x030 ≤ off ∧ off + n ≤ 0x040) ∨ (0x040 ≤ off ∧ off + n ≤ 0x050)
      ∨ (0x100 ≤ off ∧ off + n ≤ 0x1F0)) : ∃ (a : RegArray) (j : Nat), off = a.base + j ∧ j + n ≤ a.size := by
  have make (a : RegArray) (hlo : a.base ≤ off) (hhi : off + n ≤ a.base + a.size) :
      ∃ (a : RegArray) (j : Nat), off = a.base + j ∧ j + n ≤ a.size := ⟨a, off - a.base, by omega, by omega⟩
  rcases h with h | ⟨h1, h2⟩ | ⟨h1, h2⟩ | ⟨h1, h2⟩
  · exact make .key (Nat.zero_le _) (by simpa [RegArray.base, RegArray.size] using h)
  · exact make .iv h1 h2
  · exact make .st h1 h2
  · exact make .w h1 h2

/-- A write to an array is the write of its first byte, then of the others (R54). -/
theorem RegArray.writeTarget_cons (a : RegArray) (j : Nat) (b : Byte) (bs : List Byte) (s : State) :
    ∃ t, writeTarget (a.target j) [b] s = .next t
      ∧ writeTarget (a.target j) (b :: bs) s = writeTarget (a.target (j + 1)) bs t := by
  cases a with
  | key => exact ⟨_, rfl, by simp only [RegArray.target, writeTarget, State.setKey_key, writeBytes_cons, State.setKey_setKey]⟩
  | iv => exact ⟨_, rfl, by simp only [RegArray.target, writeTarget, State.setIv_iv, writeBytes_cons, State.setIv_setIv]⟩
  | st => exact ⟨_, rfl, by simp only [RegArray.target, writeTarget, State.setSt_st, writeBytes_cons, State.setSt_setSt]⟩
  | w => exact ⟨s, rfl, rfl⟩

theorem RegArray.length_readTarget (a : RegArray) {j n : Nat} (h : j + n ≤ a.size) (s : State) :
    (readTarget (a.target j) n s).length = n := by
  cases a <;> exact length_readBytes _ j n h

/-- A byte of a read of an array is what the byte read gives (R54). -/
theorem RegArray.readTarget_one_eq_getD (a : RegArray) {j n i : Nat} (h : j + n ≤ a.size) (hi : i < n) (s : State) :
    readTarget (a.target (j + i)) 1 s = [(readTarget (a.target j) n s).getD i 0#8] := by
  cases a <;> exact readBytes_one_eq_getD _ h hi

/-- An access that touches a reserved or unmapped offset reaches no target (R57). -/
theorem regTarget_of_touchesUnmapped {off n : Nat} (hn : n ≠ 0) (h : touchesUnmapped off n = true) :
    regTarget off n = .error .unmappedOffset := by
  have hoff : (off < 0x030 ∧ 0x026 < off + n) ∨ (off < 0x100 ∧ 0x058 < off + n) ∨ 0x1F0 < off + n := by
    simpa [touchesUnmapped, or_assoc] using h
  simp (disch := omega) only [regTarget, if_neg, regRefusal, if_pos h]

/-- An access that touches a byte of `CMD`, `ILEN` or `OLEN` reaches a target only as the whole register (R55). -/
theorem regTarget_of_partial {off n : Nat}
    (h : (off < 0x026 ∧ 0x024 < off + n ∧ ¬ (off = 0x024 ∧ n = 2))
      ∨ (off < 0x054 ∧ 0x050 < off + n ∧ ¬ (off = 0x050 ∧ n = 4))
      ∨ (off < 0x058 ∧ 0x054 < off + n ∧ ¬ (off = 0x054 ∧ n = 4))) : ∃ r, regTarget off n = .error r := by
  cases ht : regTarget off n with
  | error r => exact ⟨r, rfl⟩
  | ok t =>
    have hc := regTarget_cases ht
    omega

/-! ### What an access to a target or a buffer answers -/

theorem perform_write_reg {off : Nat} {bs : List Byte} {tg : RegTarget} (h : regTarget off bs.length = .ok tg) (s : State) :
    perform (.write .reg off bs) s = writeTarget tg bs s := by
  simp only [perform, hostWrite, h]

theorem perform_read_reg {off n : Nat} {tg : RegTarget} (h : regTarget off n = .ok tg) (s : State) :
    perform (.read .reg off n) s = .next (s.setRdata (readTarget tg n s)) := by
  simp only [perform, hostRead, h]

theorem perform_write_reg_refused {off : Nat} {bs : List Byte} {r : Refusal} (h : regTarget off bs.length = .error r)
    (s : State) : perform (.write .reg off bs) s = .refused r := by
  simp only [perform, hostWrite, h]

theorem perform_read_reg_refused {off n : Nat} {r : Refusal} (h : regTarget off n = .error r) (s : State) :
    perform (.read .reg off n) s = .refused r := by
  simp only [perform, hostRead, h]

theorem bufferRefusal_of_within {cap off n : Nat} (hn : n ≠ 0) (h : off + n ≤ cap) : bufferRefusal cap off n = none :=
  (bufferRefusal_eq_none_iff cap off n).mpr ⟨hn, h⟩

theorem bufferRefusal_of_beyond {cap off n : Nat} (hn : n ≠ 0) (h : cap < off + n) :
    bufferRefusal cap off n = some .beyondBuffer := by
  rw [bufferRefusal, if_neg hn, if_pos h]

section
variable {s : State} {off n : Nat} {bs : List Byte}

theorem perform_write_ibuf (hbs : bs ≠ []) (h : off + bs.length ≤ s.ibufCap) :
    perform (.write .ibuf off bs) s = .next (s.setIbuf off bs) := by
  simp only [perform, hostWrite, State.capacity, bufferRefusal_of_within (mt List.length_eq_zero_iff.mp hbs) h]

theorem perform_write_obuf (hbs : bs ≠ []) (h : off + bs.length ≤ s.ibufCap + 16) :
    perform (.write .obuf off bs) s = .next s := by
  simp only [perform, hostWrite, State.capacity, Config.obufCap,
    bufferRefusal_of_within (mt List.length_eq_zero_iff.mp hbs) h]

theorem perform_read_ibuf (hn : n ≠ 0) (h : off + n ≤ s.ibufCap) :
    perform (.read .ibuf off n) s = .next (s.setRdata (s.ibuf.readRange off n)) := by
  simp only [perform, hostRead, State.capacity, bufferRefusal_of_within hn h]

theorem perform_read_obuf (hn : n ≠ 0) (h : off + n ≤ s.ibufCap + 16) :
    perform (.read .obuf off n) s = .next (s.setRdata (s.obuf.readRange off n)) := by
  simp only [perform, hostRead, State.capacity, Config.obufCap, bufferRefusal_of_within hn h]

theorem perform_ibuf_beyond (hbs : bs ≠ []) (h : s.ibufCap < off + bs.length) :
    perform (.write .ibuf off bs) s = .refused .beyondBuffer
      ∧ perform (.read .ibuf off bs.length) s = .refused .beyondBuffer := by
  simp only [perform, hostWrite, hostRead, State.capacity,
    bufferRefusal_of_beyond (mt List.length_eq_zero_iff.mp hbs) h, and_self]

theorem perform_obuf_beyond (hbs : bs ≠ []) (h : s.ibufCap + 16 < off + bs.length) :
    perform (.write .obuf off bs) s = .refused .beyondBuffer
      ∧ perform (.read .obuf off bs.length) s = .refused .beyondBuffer := by
  simp only [perform, hostWrite, hostRead, State.capacity, Config.obufCap,
    bufferRefusal_of_beyond (mt List.length_eq_zero_iff.mp hbs) h, and_self]

end

/-! ### A wider access as its byte accesses -/

/-- The access lies within one byte array or within its buffer. -/
def State.WithinArray (s : State) (off n : Nat) : Space → Prop
  | .reg => ∃ (a : RegArray) (j : Nat), off = a.base + j ∧ j + n ≤ a.size
  | .ibuf => off + n ≤ s.ibufCap
  | .obuf => off + n ≤ s.ibufCap + 16

/-- A write within an array is the write of its first byte, then of the others (R54). -/
theorem perform_write_cons {sp : Space} {off : Nat} {b : Byte} {bs : List Byte} {s : State} (hbs : bs ≠ [])
    (h : s.WithinArray off (b :: bs).length sp) :
    ∃ t, perform (.write sp off [b]) s = .next t ∧ t.WithinArray (off + 1) bs.length sp
      ∧ perform (.write sp off (b :: bs)) s = perform (.write sp (off + 1) bs) t := by
  have hone : [b].length ≠ 0 := Nat.one_ne_zero
  have hlen : bs.length ≠ 0 := mt List.length_eq_zero_iff.mp hbs
  have hcons : (b :: bs).length = bs.length + 1 := rfl
  cases sp with
  | reg =>
    obtain ⟨a, j, rfl, hj⟩ := h
    obtain ⟨t, ht, hw⟩ := a.writeTarget_cons j b bs s
    refine ⟨t, ?_, ⟨a, j + 1, Nat.add_assoc _ _ _, by omega⟩, ?_⟩
    · rw [perform_write_reg (a.regTarget_eq hone (by rw [List.length_singleton]; omega)), ht]
    · rw [perform_write_reg (a.regTarget_eq (by omega) hj), hw, Nat.add_assoc,
        perform_write_reg (a.regTarget_eq hlen (by omega))]
  | ibuf =>
    simp only [State.WithinArray] at h
    refine ⟨s.setIbuf off [b], perform_write_ibuf nofun ?_, ?_, ?_⟩
    · simp only [List.length_singleton]; omega
    · simp only [State.WithinArray, State.setIbuf_ibufCap]; omega
    · rw [perform_write_ibuf (List.cons_ne_nil b bs) h, perform_write_ibuf hbs (by rw [State.setIbuf_ibufCap]; omega)]
      rfl
  | obuf =>
    simp only [State.WithinArray] at h
    refine ⟨s, perform_write_obuf nofun ?_, ?_, ?_⟩
    · simp only [List.length_singleton]; omega
    · simp only [State.WithinArray]; omega
    · rw [perform_write_obuf (List.cons_ne_nil b bs) h, perform_write_obuf hbs (by omega)]

/-- A write within an array is the byte writes one after another (R54). -/
theorem perform_write_eq_performAll_byteWrites {sp : Space} {off : Nat} {bs : List Byte} {s : State} (hbs : bs ≠ [])
    (h : s.WithinArray off bs.length sp) : perform (.write sp off bs) s = performAll (byteWrites sp off bs) s := by
  induction bs generalizing off s with
  | nil => exact absurd rfl hbs
  | cons b bs ih =>
    rcases eq_or_ne bs [] with rfl | hne
    · simp only [byteWrites, performAll]
      cases perform (.write sp off [b]) s <;> rfl
    · obtain ⟨t, ht, hin, hw⟩ := perform_write_cons hne h
      rw [hw, ih hne hin]
      simp only [byteWrites, performAll, ht]

/-- A read within an array gives the bytes that the byte reads give (R54). -/
theorem perform_read_bytes {sp : Space} {off n : Nat} {s : State} (hn : n ≠ 0) (h : s.WithinArray off n sp) :
    ∃ bs, bs.length = n ∧ perform (.read sp off n) s = .next (s.setRdata bs)
      ∧ ∀ i, i < n → perform (.read sp (off + i) 1) s = .next (s.setRdata [bs.getD i 0#8]) := by
  cases sp with
  | reg =>
    obtain ⟨a, j, rfl, hj⟩ := h
    refine ⟨_, a.length_readTarget hj s, perform_read_reg (a.regTarget_eq hn hj) s, fun i hi => ?_⟩
    rw [Nat.add_assoc, perform_read_reg (a.regTarget_eq Nat.one_ne_zero (by omega)), a.readTarget_one_eq_getD hj hi]
  | ibuf =>
    simp only [State.WithinArray] at h
    refine ⟨_, s.ibuf.length_readRange off n, perform_read_ibuf hn h, fun i hi => ?_⟩
    rw [perform_read_ibuf Nat.one_ne_zero (by omega), s.ibuf.readRange_one_eq_getD off hi]
  | obuf =>
    simp only [State.WithinArray] at h
    refine ⟨_, s.obuf.length_readRange off n, perform_read_obuf hn h, fun i hi => ?_⟩
    rw [perform_read_obuf Nat.one_ne_zero (by omega), s.obuf.readRange_one_eq_getD off hi]

/-! ### `ILEN` and `ERR` -/

theorem State.writeIlen_of_le {s : State} {v : BitVec 32} (h : v.toNat ≤ s.ibufCap) : s.writeIlen v = s.setIlen v := by
  rw [State.writeIlen, if_pos h]

theorem State.writeIlen_of_lt {s : State} {v : BitVec 32} (h : s.ibufCap < v.toNat) :
    s.writeIlen v = s.raise .illegalCommand := by
  rw [State.writeIlen, if_neg (by omega)]

theorem perform_write_ilen (b3 b2 b1 b0 : Byte) (s : State) :
    perform (.write .reg 0x050 [b3, b2, b1, b0]) s = .next (s.writeIlen (b3 ++ b2 ++ b1 ++ b0)) := by
  rw [perform_write_reg (tg := .ilen) rfl, writeTarget, ofNat_natOfBytes_four]

/-- Of the host's writes only those at `0x024` and `0x050` write `ERR` (R58). -/
theorem hostWrite_err_eq_or {sp : Space} {off : Nat} {bs : List Byte} {s t : State} (h : hostWrite sp off bs s = .next t) :
    t.err = s.err ∨ (sp = .reg ∧ (off = 0x024 ∨ off = 0x050)) := by
  rcases hostWrite_cases h with rfl | ⟨hsp, hoff, -, -⟩ | ⟨-, -, rfl⟩ | ⟨-, -, rfl⟩ | ⟨-, -, rfl⟩ | ⟨-, -, -, rfl⟩
    | ⟨-, -, -, rfl⟩ | ⟨hsp, hoff, -⟩ | ⟨-, -, rfl⟩
  · exact .inl rfl
  · exact .inr ⟨hsp, .inl hoff⟩
  · exact .inl rfl
  · exact .inl rfl
  · exact .inl rfl
  · exact .inl rfl
  · exact .inl rfl
  · exact .inr ⟨hsp, .inr hoff⟩
  · exact .inl rfl

/-! ### The same access again -/

@[simp] theorem State.writeIlen_repeat (s : State) (v : BitVec 32) : (s.writeIlen v).writeIlen v = s.writeIlen v := by
  rcases Nat.lt_or_ge s.ibufCap v.toNat with h | h
  · rw [State.writeIlen_of_lt h, State.writeIlen_of_lt (s := s.raise _) h]; rfl
  · rw [State.writeIlen_of_le h, State.writeIlen_of_le (s := s.setIlen v) h]; rfl

/-- No read gives what an earlier read left to the host. -/
theorem readTarget_setRdata (tg : RegTarget) (n : Nat) (s : State) (bs : List Byte) :
    readTarget tg n (s.setRdata bs) = readTarget tg n s := by
  cases tg <;> rfl

theorem hostRead_setRdata (sp : Space) (off n : Nat) (s : State) (bs : List Byte) :
    hostRead sp off n (s.setRdata bs) = hostRead sp off n s := by
  cases sp with
  | reg => simp only [hostRead, readTarget_setRdata]; rfl
  | ibuf | obuf => rfl

/-- A target other than `CMD` holds after a second write what it holds after the first (R56). -/
theorem writeTarget_repeat {tg : RegTarget} (htg : tg ≠ .cmd) {bs : List Byte} {s t : State}
    (h : writeTarget tg bs s = .next t) : writeTarget tg bs t = .next t := by
  cases tg with
  | cmd => exact absurd rfl htg
  | key j => cases h; simp only [writeTarget, State.setKey_key, writeBytes_repeat, State.setKey_setKey]
  | iv j => cases h; simp only [writeTarget, State.setIv_iv, writeBytes_repeat, State.setIv_setIv]
  | st j => cases h; simp only [writeTarget, State.setSt_st, writeBytes_repeat, State.setSt_setSt]
  | ilen => cases h; simp only [writeTarget, State.writeIlen_repeat]
  | klen | ctrl | nr | err | olen | w => cases h; rfl

theorem regTarget_eq_cmd {off n : Nat} (h : regTarget off n = .ok .cmd) : off = 0x024 := by
  have hc := regTarget_cases h
  simp only [reduceCtorEq, false_and, true_and, false_or, or_false] at hc
  obtain ⟨-, hoff, -⟩ := hc
  exact hoff

theorem hostWrite_repeat {sp : Space} {off : Nat} {bs : List Byte} {s t : State} (hwf : s.ibuf.wf = true)
    (hcmd : ¬ (sp = .reg ∧ off = 0x024)) (h : hostWrite sp off bs s = .next t) : hostWrite sp off bs t = .next t := by
  cases sp with
  | reg =>
    simp only [hostWrite] at h ⊢
    cases htg : regTarget off bs.length with
    | error r => simp only [htg] at h; cases h
    | ok tg =>
      simp only [htg] at h ⊢
      refine writeTarget_repeat ?_ h
      rintro rfl
      exact hcmd ⟨rfl, regTarget_eq_cmd htg⟩
  | ibuf =>
    simp only [hostWrite] at h ⊢
    cases hb : bufferRefusal (s.capacity .ibuf) off bs.length with
    | some r => simp only [hb] at h; cases h
    | none =>
      simp only [hb] at h
      cases h
      have hcap : (s.setIbuf off bs).capacity .ibuf = s.capacity .ibuf := rfl
      simp only [hcap, hb, State.setIbuf_repeat hwf]
  | obuf =>
    simp only [hostWrite] at h ⊢
    split at h
    · next hb => cases h; rw [hb]
    · cases h

end Sys2Proof.Machine

section
open Sys2Proof Sys2Proof.Machine

/-- Settles O52: an access within one array or buffer is its first byte, then the others. -/
theorem wideAccessIsTheByteSequence : Obligations.WideAccessIsTheByteSequence := by
  refine ⟨fun s off bs hbs h => ?_, fun s off bs hbs h => ?_, fun s off bs hbs h => ?_, fun s sp off n hn h => ?_⟩
  · exact perform_write_eq_performAll_byteWrites (sp := .reg) hbs (RegArray.exists_of_within h)
  · exact perform_write_eq_performAll_byteWrites (sp := .ibuf) hbs h
  · exact perform_write_eq_performAll_byteWrites (sp := .obuf) hbs h
  · cases sp with
    | reg => exact perform_read_bytes (sp := .reg) hn (RegArray.exists_of_within h)
    | ibuf => exact perform_read_bytes (sp := .ibuf) hn h
    | obuf => exact perform_read_bytes (sp := .obuf) hn h

/-- Settles O53: one byte of an array, written and read at its offset. -/
theorem byteArrayAccess : Obligations.ByteArrayAccess := by
  have hreg (a : RegArray) {j : Nat} (hj : j < a.size) : regTarget (a.base + j) 1 = .ok (a.target j) :=
    a.regTarget_eq Nat.one_ne_zero hj
  refine ⟨fun s j b => ?_, fun s j b => ?_, fun s j b => ?_, fun s j => ?_, fun s a b ha => ?_, fun s a ha => ?_⟩
  · have htg : regTarget j.val 1 = .ok (.key j.val) := by
      simpa only [RegArray.base, RegArray.target, Nat.zero_add] using hreg .key j.isLt
    rw [perform_write_reg htg, perform_read_reg htg, writeTarget, readTarget, writeBytes_singleton _ _ _ j.isLt,
      readBytes_one _ _ j.isLt]
    exact ⟨rfl, rfl⟩
  · have htg : regTarget (0x030 + j.val) 1 = .ok (.iv j.val) := hreg .iv j.isLt
    rw [perform_write_reg htg, perform_read_reg htg, writeTarget, readTarget, writeBytes_singleton _ _ _ j.isLt,
      readBytes_one _ _ j.isLt]
    exact ⟨rfl, rfl⟩
  · have htg : regTarget (0x040 + j.val) 1 = .ok (.st j.val) := hreg .st j.isLt
    rw [perform_write_reg htg, perform_read_reg htg, writeTarget, readTarget, writeBytes_singleton _ _ _ j.isLt,
      readBytes_one _ _ j.isLt]
    exact ⟨rfl, rfl⟩
  · have htg : regTarget (0x100 + j.val) 1 = .ok (.w j.val) := hreg .w j.isLt
    rw [perform_read_reg htg, readTarget, readBytes_one _ _ j.isLt]
    rfl
  · refine ⟨s.setIbuf a [b], perform_write_ibuf nofun ha, rfl, ?_, fun x hx => ?_,
      perform_read_ibuf Nat.one_ne_zero ha⟩
    · simp [Memory.writeRange]
    · simp [Memory.writeRange, hx]
  · exact perform_read_obuf Nat.one_ne_zero ha

/-- Settles O55: a length above the capacity raises `IllegalCommand`, and no other host write reaches `ERR`. -/
theorem ilenAboveTheCapacityIsRefused : Obligations.IlenAboveTheCapacityIsRefused := by
  refine ⟨fun s b3 b2 b1 b0 => ⟨fun h => ?_, fun h => ?_⟩, fun a s t h herr => ?_⟩
  · rw [perform_write_ilen, State.writeIlen_of_lt h]; rfl
  · rw [perform_write_ilen, State.writeIlen_of_le h]; rfl
  · cases a with
    | write sp off bs =>
      rcases hostWrite_err_eq_or h with he | ⟨rfl, rfl | rfl⟩
      · exact absurd he herr
      · exact .inl ⟨bs, rfl⟩
      · exact .inr (.inl ⟨bs, rfl⟩)
    | read sp off n =>
      obtain ⟨bs, rfl⟩ := hostRead_cases h
      exact absurd rfl herr
    | reset d => exact .inr (.inr ⟨d, rfl⟩)

/-- Settles O56: what each location answers, and the refusal of what is no location. -/
theorem readOnlyAndUnmappedLocations : Obligations.ReadOnlyAndUnmappedLocations := by
  refine ⟨fun s v => ⟨?_, ?_⟩, fun s b3 b2 b1 b0 => ?_, fun s off bs hbs hlo hhi => ?_,
    fun s a bs hbs h => perform_write_obuf hbs h, fun s => ?_, fun s t v h => ?_, fun s off i bs hi h => ?_,
    fun s a bs hbs h => perform_ibuf_beyond hbs h, fun s a bs hbs h => perform_obuf_beyond hbs h⟩
  · exact perform_write_reg (tg := .nr) rfl s
  · exact perform_write_reg (tg := .err) rfl s
  · exact perform_write_reg (tg := .olen) rfl s
  · obtain ⟨j, rfl⟩ := Nat.exists_eq_add_of_le hlo
    have hj : j + bs.length ≤ RegArray.w.size := by simp only [RegArray.size]; omega
    exact perform_write_reg (RegArray.w.regTarget_eq (mt List.length_eq_zero_iff.mp hbs) hj) s
  · exact perform_read_reg (tg := .cmd) rfl s
  · exact ⟨t.ctrlRead, perform_read_reg (tg := .ctrl) rfl t, fun i hi => getLsbD_ctrlWritten_of_le t.ctrl hi⟩
  · have htouch : touchesUnmapped off bs.length = true := by
      simp only [touchesUnmapped, Bool.or_eq_true, decide_eq_true_eq]; omega
    have htg := regTarget_of_touchesUnmapped (by omega) htouch
    exact ⟨perform_write_reg_refused htg s, perform_read_reg_refused htg s⟩

/-- Settles O57: such an access reaches no target. -/
theorem partialAccessIsRefused : Obligations.PartialAccessIsRefused := by
  intro s off bs n h
  obtain ⟨r, hr⟩ := regTarget_of_partial h
  exact ⟨⟨r, perform_write_reg_refused hr s⟩, ⟨r, perform_read_reg_refused hr s⟩⟩

/-- Settles O58: a read leaves bytes to the host alone, and a write but to `CMD` is done once for all. -/
theorem readsAndRepeatedWritesHaveNoSideEffect : Obligations.ReadsAndRepeatedWritesHaveNoSideEffect := by
  refine ⟨fun s t sp off n h => ?_, fun s t sp off n h => ?_, fun s t sp off bs hs hcmd h => ?_⟩
  · obtain ⟨bs, rfl⟩ := hostRead_cases h
    rfl
  · obtain ⟨bs, rfl⟩ := hostRead_cases h
    exact (hostRead_setRdata sp off n s bs).trans h
  · obtain ⟨-, hwf, -⟩ := hs
    exact hostWrite_repeat hwf hcmd h

/-- Settles O54, register by register. -/
theorem registerAccess : Obligations.RegisterAccess := by
  refine ⟨fun s v => ?_, fun s => ?_, fun s v => ?_, fun s => ?_, fun s => ?_, fun s => ?_, fun s => ?_, fun s => ?_⟩
  · exact perform_write_reg (tg := .klen) rfl s
  · exact perform_read_reg (tg := .klen) rfl s
  · refine ⟨s.setCtrl v, perform_write_reg (tg := .ctrl) rfl s, rfl, ?_, ?_, fun i hi => ?_⟩
    · exact getLsbD_ctrlWritten_of_lt v Nat.zero_lt_two
    · exact getLsbD_ctrlWritten_of_lt v Nat.one_lt_two
    · exact getLsbD_ctrlWritten_of_le v hi
  · refine ⟨s.setRdata [s.ctrlRead], s.ctrlRead, perform_read_reg (tg := .ctrl) rfl s, rfl, ?_, ?_, fun i hi => ?_⟩
    · exact getLsbD_ctrlWritten_of_lt s.ctrl Nat.zero_lt_two
    · exact getLsbD_ctrlWritten_of_lt s.ctrl Nat.one_lt_two
    · exact getLsbD_ctrlWritten_of_le s.ctrl hi
  · exact perform_read_reg (tg := .nr) rfl s
  · exact perform_read_reg (tg := .err) rfl s
  · rw [perform_read_reg (tg := .ilen) rfl, readTarget, bytesOfNat_four]; rfl
  · rw [perform_read_reg (tg := .olen) rfl, readTarget, bytesOfNat_four]; rfl

end
end

section
/-! Proofs of the statements about command words (30_encoding.md), and the lemmas they share: a word and its four
fields, what the decoder's success says of the fields, and R77 in the decoder's terms. -/

namespace Sys2Proof

open Laws.OpcodeRow Machine

/-! ### The fields of a word -/

theorem fieldOp_eq (w : CmdWord) : fieldOp w = w.toNat % 256 := by
  simp only [fieldOp, BitVec.extractLsb'_toNat, Nat.shiftRight_eq_div_pow]; omega

theorem fieldMode_eq (w : CmdWord) : fieldMode w = w.toNat / 256 % 4 := by
  simp only [fieldMode, BitVec.extractLsb'_toNat, Nat.shiftRight_eq_div_pow]

theorem fieldPad_eq (w : CmdWord) : fieldPad w = w.toNat / 1024 % 4 := by
  simp only [fieldPad, BitVec.extractLsb'_toNat, Nat.shiftRight_eq_div_pow]

theorem fieldRk_eq (w : CmdWord) : fieldRk w = w.toNat / 4096 := by
  simp only [fieldRk, BitVec.extractLsb'_toNat, Nat.shiftRight_eq_div_pow]; omega

/-- A word is determined by its four fields (R70). -/
theorem word_ext_fields {v w : CmdWord} (hop : fieldOp v = fieldOp w) (hmode : fieldMode v = fieldMode w)
    (hpad : fieldPad v = fieldPad w) (hrk : fieldRk v = fieldRk w) : v = w := by
  simp only [fieldOp_eq, fieldMode_eq, fieldPad_eq, fieldRk_eq] at hop hmode hpad hrk
  exact BitVec.eq_of_toNat_eq (by omega)

theorem fieldRk_lt (w : CmdWord) : fieldRk w < 16 := (w.extractLsb' 12 4).isLt

/-- The upper byte holds the fields `rk`, `pad` and `mode`, all zero in format N (R71). -/
theorem unusedZero_n_iff (w : CmdWord) : unusedZero .n w = true ↔ w.extractLsb' 8 8 = 0#8 := by
  have htoNat : (w.extractLsb' 8 8).toNat = w.toNat / 256 := by
    simp only [BitVec.extractLsb'_toNat, Nat.shiftRight_eq_div_pow]; omega
  rw [← BitVec.toNat_inj, htoNat]
  simp only [unusedZero, Bool.and_eq_true, beq_iff_eq, fieldMode_eq, fieldPad_eq, fieldRk_eq, BitVec.toNat_ofNat]
  omega

/-- Bits 11:8 hold the fields `pad` and `mode`, zero in format K (R71). -/
theorem unusedZero_k_iff (w : CmdWord) : unusedZero .k w = true ↔ w.extractLsb' 8 4 = 0#4 := by
  have htoNat : (w.extractLsb' 8 4).toNat = w.toNat / 256 % 16 := by
    simp only [BitVec.extractLsb'_toNat, Nat.shiftRight_eq_div_pow]
  rw [← BitVec.toNat_inj, htoNat]
  simp only [unusedZero, Bool.and_eq_true, beq_iff_eq, fieldMode_eq, fieldPad_eq, BitVec.toNat_ofNat]
  omega

theorem unusedZero_p_iff (w : CmdWord) :
    unusedZero .p w = true ↔ w.extractLsb' 12 4 = 0#4 ∧ w.extractLsb' 8 2 = 0#2 := by
  simp only [unusedZero, Bool.and_eq_true, beq_iff_eq, fieldMode, fieldRk, ← BitVec.toNat_inj, BitVec.toNat_ofNat,
    Nat.zero_mod]

theorem unusedZero_m_iff (w : CmdWord) : unusedZero .m w = true ↔ w.extractLsb' 12 4 = 0#4 := by
  simp only [unusedZero, beq_iff_eq, fieldRk, ← BitVec.toNat_inj, BitVec.toNat_ofNat, Nat.zero_mod]

/-! ### The columns of the opcode table -/

/-- The `op` column of R75. -/
def opByte : Opcode → Byte
  | .gfmul2 => 0x01#8
  | .gfmul3 => 0x02#8
  | .expandkey => 0x10#8
  | .encblock => 0x20#8
  | .subbytes => 0x21#8
  | .shiftrows => 0x22#8
  | .mixcolumns => 0x23#8
  | .addroundkey => 0x24#8
  | .pad => 0x30#8
  | .unpad => 0x31#8
  | .encmsg => 0x40#8

theorem eq_opByte_of_opcodeOf {n : Nat} {o : Opcode} (h : opcodeOf n = some o) : n = (opByte o).toNat := by
  unfold opcodeOf at h
  split at h <;> cases h <;> rfl

theorem eq_modeCode_of_modeOf {n : Nat} {m : Mode} (h : modeOf n = .ok m) : n = (modeCode m).toNat := by
  unfold modeOf at h
  split at h <;> cases h <;> rfl

theorem eq_schemeCode_of_schemeOf {n : Nat} {p : Scheme} (h : schemeOf n = .ok p) : n = (schemeCode p).toNat := by
  unfold schemeOf at h
  split at h <;> cases h <;> rfl

/-! ### What a decoded word holds -/

/-- The value of the field `mode` in the word of a command (R71, R72). -/
def modeField : Instr → Nat
  | .encmsg m _ => (modeCode m).toNat
  | _ => 0

/-- The value of the field `pad` in the word of a command (R71, R73). -/
def padField : Instr → Nat
  | .pad p | .unpad p | .encmsg _ p => (schemeCode p).toNat
  | _ => 0

/-- The value of the field `rk` in the word of a command (R71, R74). -/
def rkField : Instr → Nat
  | .addroundkey k => k
  | _ => 0

theorem commandOf_pad_eq_ok {w : CmdWord} {i : Instr} (h : commandOf .pad w = .ok i) :
    ∃ p, fieldPad w = (schemeCode p).toNat ∧ i = .pad p := by
  simp only [commandOf] at h
  split at h
  · next p hp => cases h; exact ⟨p, eq_schemeCode_of_schemeOf hp, rfl⟩
  · cases h

theorem commandOf_unpad_eq_ok {w : CmdWord} {i : Instr} (h : commandOf .unpad w = .ok i) :
    ∃ p, fieldPad w = (schemeCode p).toNat ∧ i = .unpad p := by
  simp only [commandOf] at h
  split at h
  · next p hp => cases h; exact ⟨p, eq_schemeCode_of_schemeOf hp, rfl⟩
  · cases h

theorem commandOf_encmsg_eq_ok {w : CmdWord} {i : Instr} (h : commandOf .encmsg w = .ok i) :
    ∃ m p, fieldMode w = (modeCode m).toNat ∧ fieldPad w = (schemeCode p).toNat ∧ i = .encmsg m p := by
  simp only [commandOf] at h
  split at h
  · next m p hm hp => cases h; exact ⟨m, p, eq_modeCode_of_modeOf hm, eq_schemeCode_of_schemeOf hp, rfl⟩
  · cases h
  · cases h

theorem decode_of_opcode {w : CmdWord} {o : Opcode} (ho : opcodeOf (fieldOp w) = some o) :
    decode w = if unusedZero (formatOf o) w then commandOf o w else .error .unusedField := by
  simp only [decode, ho]

theorem decode_eq_ok_cases {w : CmdWord} {i : Instr} (h : decode w = .ok i) :
    ∃ o, opcodeOf (fieldOp w) = some o ∧ unusedZero (formatOf o) w = true ∧ commandOf o w = .ok i := by
  cases ho : opcodeOf (fieldOp w) with
  | none => simp only [decode, ho] at h; cases h
  | some o =>
    rw [decode_of_opcode ho] at h
    split at h
    · next hz => exact ⟨o, rfl, hz, h⟩
    · cases h

/-- The four fields of a word the decoder takes are those of the command it gives. -/
theorem fields_of_decode_eq_ok {w : CmdWord} {i : Instr} (h : decode w = .ok i) :
    fieldOp w = (opByte (opcodeOfInstr i)).toNat ∧ fieldMode w = modeField i ∧ fieldPad w = padField i
      ∧ fieldRk w = rkField i := by
  obtain ⟨o, ho, hz, hc⟩ := decode_eq_ok_cases h
  have hop := eq_opByte_of_opcodeOf ho
  cases o with
  | gfmul2 | gfmul3 | expandkey | encblock | subbytes | shiftrows | mixcolumns =>
    cases hc
    simp only [formatOf, unusedZero, Bool.and_eq_true, beq_iff_eq] at hz
    obtain ⟨⟨hrk, hpad⟩, hmode⟩ := hz
    exact ⟨hop, hmode, hpad, hrk⟩
  | addroundkey =>
    cases hc
    simp only [formatOf, unusedZero, Bool.and_eq_true, beq_iff_eq] at hz
    obtain ⟨hpad, hmode⟩ := hz
    exact ⟨hop, hmode, hpad, rfl⟩
  | pad =>
    obtain ⟨p, hp, rfl⟩ := commandOf_pad_eq_ok hc
    simp only [formatOf, unusedZero, Bool.and_eq_true, beq_iff_eq] at hz
    obtain ⟨hrk, hmode⟩ := hz
    exact ⟨hop, hmode, hp, hrk⟩
  | unpad =>
    obtain ⟨p, hp, rfl⟩ := commandOf_unpad_eq_ok hc
    simp only [formatOf, unusedZero, Bool.and_eq_true, beq_iff_eq] at hz
    obtain ⟨hrk, hmode⟩ := hz
    exact ⟨hop, hmode, hp, hrk⟩
  | encmsg =>
    obtain ⟨m, p, hm, hp, rfl⟩ := commandOf_encmsg_eq_ok hc
    simp only [formatOf, unusedZero, beq_iff_eq] at hz
    exact ⟨hop, hm, hp, hz⟩

/-- No two words decode to one command (R76). -/
theorem decode_injective_of_ok {v w : CmdWord} {i : Instr} (hv : decode v = .ok i) (hw : decode w = .ok i) : v = w := by
  obtain ⟨hop, hmode, hpad, hrk⟩ := fields_of_decode_eq_ok hv
  obtain ⟨hop', hmode', hpad', hrk'⟩ := fields_of_decode_eq_ok hw
  exact word_ext_fields (hop.trans hop'.symm) (hmode.trans hmode'.symm) (hpad.trans hpad'.symm) (hrk.trans hrk'.symm)

/-- The one command the decoder gives that is not well-formed is `UNPAD NONE` (log entry 5). -/
theorem wellFormed_or_eq_unpad_none_of_decode {w : CmdWord} {i : Instr} (h : decode w = .ok i) :
    i.wellFormed = true ∨ i = .unpad .none := by
  obtain ⟨-, -, -, hrk⟩ := fields_of_decode_eq_ok h
  cases i with
  | gfmul2 | gfmul3 | expandkey | encblock | subbytes | shiftrows | mixcolumns | pad p | encmsg m p => exact .inl rfl
  | addroundkey k =>
    have hk : k < 16 := hrk.symm.trans_lt (fieldRk_lt w)
    exact .inl (decide_eq_true hk)
  | unpad p =>
    by_cases hp : p = .none
    · exact .inr (congrArg Instr.unpad hp)
    · exact .inl (decide_eq_true hp)

/-- The word of a well-formed command satisfies the match and mask of the command's row (R75). -/
theorem encode_and_tableMask {i : Instr} (h : i.wellFormed = true) : encode i &&& tableMask i = tableMatch i := by
  cases i with
  | gfmul2 | gfmul3 | expandkey | encblock | subbytes | shiftrows | mixcolumns => rfl
  | addroundkey k =>
    have hk : k < 16 := by simpa [Instr.wellFormed] using h
    have all : ∀ k : Fin 16, encode (.addroundkey k) &&& 0x0FFF = 0x0024 := by decide
    exact all ⟨k, hk⟩
  | pad p | unpad p => cases p <;> rfl
  | encmsg m p => cases m <;> cases p <;> rfl

/-! ### The illegal words -/

theorem eq_three_of_modeOf_eq_error {n : Nat} {e : IllegalWord} (hn : n < 4) (h : modeOf n = .error e) : n = 3 := by
  match n with
  | 0 | 1 | 2 => cases h
  | 3 => rfl

theorem eq_three_of_schemeOf_eq_error {n : Nat} {e : IllegalWord} (hn : n < 4) (h : schemeOf n = .error e) : n = 3 := by
  match n with
  | 0 | 1 | 2 => cases h
  | 3 => rfl

/-- An operand field that the decoder refuses holds 3, the reserved value (R72, R73). -/
theorem commandOf_eq_error {o : Opcode} {w : CmdWord} {e : IllegalWord} (h : commandOf o w = .error e) :
    (o = .encmsg ∧ w.extractLsb' 8 2 = 3#2) ∨ (o ∈ [.pad, .unpad, .encmsg] ∧ w.extractLsb' 10 2 = 3#2) := by
  have hmode {e : IllegalWord} (hm : modeOf (fieldMode w) = .error e) : w.extractLsb' 8 2 = 3#2 :=
    BitVec.eq_of_toNat_eq (eq_three_of_modeOf_eq_error (BitVec.isLt _) hm)
  have hpad {e : IllegalWord} (hp : schemeOf (fieldPad w) = .error e) : w.extractLsb' 10 2 = 3#2 :=
    BitVec.eq_of_toNat_eq (eq_three_of_schemeOf_eq_error (BitVec.isLt _) hp)
  cases o with
  | gfmul2 | gfmul3 | expandkey | encblock | subbytes | shiftrows | mixcolumns | addroundkey => cases h
  | pad | unpad =>
    simp only [commandOf] at h
    split at h
    · cases h
    · next hp => exact .inr ⟨by decide, hpad hp⟩
  | encmsg =>
    simp only [commandOf] at h
    split at h
    · cases h
    · next hm => exact .inl ⟨rfl, hmode hm⟩
    · next hp => exact .inr ⟨by decide, hpad hp⟩

theorem op_eq_opByte {w : CmdWord} {o : Opcode} (ho : opcodeOf (fieldOp w) = some o) : w.extractLsb' 0 8 = opByte o :=
  BitVec.eq_of_toNat_eq (eq_opByte_of_opcodeOf ho)

/-- Case (1) of R77. -/
theorem illegalByR77_of_unknownOpcode {w : CmdWord} (ho : opcodeOf (fieldOp w) = none) : IllegalByR77 w := by
  have all : ∀ b : Byte, opcodeOf b.toNat = none →
    b ∉ [0x01#8, 0x02#8, 0x10#8, 0x20#8, 0x21#8, 0x22#8, 0x23#8, 0x24#8, 0x30#8, 0x31#8, 0x40#8] := by decide
  exact .inl (all _ ho)

/-- Case (2) of R77. -/
theorem illegalByR77_of_unusedField {w : CmdWord} {o : Opcode} (ho : opcodeOf (fieldOp w) = some o)
    (hz : ¬ unusedZero (formatOf o) w = true) : IllegalByR77 w := by
  have hop := op_eq_opByte ho
  cases o with
  | gfmul2 | gfmul3 | expandkey | encblock | subbytes | shiftrows | mixcolumns =>
    exact .inr (.inl ⟨by rw [hop]; decide, mt (unusedZero_n_iff w).mpr hz⟩)
  | addroundkey => exact .inr (.inr (.inl ⟨hop, mt (unusedZero_k_iff w).mpr hz⟩))
  | pad | unpad =>
    exact .inr (.inr (.inr (.inl ⟨by rw [hop]; decide, not_and_or.mp (mt (unusedZero_p_iff w).mpr hz)⟩)))
  | encmsg => exact .inr (.inr (.inr (.inr (.inl ⟨hop, mt (unusedZero_m_iff w).mpr hz⟩))))

/-- Cases (3) and (4) of R77. -/
theorem illegalByR77_of_reservedField {w : CmdWord} {o : Opcode} {e : IllegalWord} (ho : opcodeOf (fieldOp w) = some o)
    (h : commandOf o w = .error e) : IllegalByR77 w := by
  have hop := op_eq_opByte ho
  rcases commandOf_eq_error h with ⟨rfl, hmode⟩ | ⟨hpads, hpad⟩
  · exact .inr (.inr (.inr (.inr (.inr (.inl ⟨hop, hmode⟩)))))
  · have hmem : opByte o ∈ [0x30#8, 0x31#8, 0x40#8] := List.mem_map_of_mem (f := opByte) hpads
    exact .inr (.inr (.inr (.inr (.inr (.inr (.inl ⟨hop ▸ hmem, hpad⟩))))))

/-- What the decoder refuses is illegal. -/
theorem illegalByR77_of_decode_eq_error {w : CmdWord} {e : IllegalWord} (h : decode w = .error e) : IllegalByR77 w := by
  cases ho : opcodeOf (fieldOp w) with
  | none => exact illegalByR77_of_unknownOpcode ho
  | some o =>
    rw [decode_of_opcode ho] at h
    split at h
    · exact illegalByR77_of_reservedField ho h
    · next hz => exact illegalByR77_of_unusedField ho hz

/-- Case (5) of R77. -/
theorem illegalByR77_of_decode_eq_unpad_none {w : CmdWord} (h : decode w = .ok (.unpad .none)) : IllegalByR77 w := by
  obtain ⟨hop, -, hpad, -⟩ := fields_of_decode_eq_ok h
  have hop' : w.extractLsb' 0 8 = 0x31#8 := BitVec.eq_of_toNat_eq hop
  have hpad' : w.extractLsb' 10 2 = 0#2 := BitVec.eq_of_toNat_eq hpad
  exact .inr (.inr (.inr (.inr (.inr (.inr (.inr ⟨hop', hpad'⟩))))))

theorem modeBits_ne_three {w : CmdWord} {m : Mode} (h : fieldMode w = (modeCode m).toNat) : w.extractLsb' 8 2 ≠ 3#2 := by
  intro hw
  simp only [fieldMode, hw] at h
  cases m <;> cases h

theorem padBits_ne_three {w : CmdWord} {p : Scheme} (h : fieldPad w = (schemeCode p).toNat) :
    w.extractLsb' 10 2 ≠ 3#2 := by
  intro hw
  simp only [fieldPad, hw] at h
  cases p <;> cases h

theorem scheme_eq_none_of_padBits {w : CmdWord} {p : Scheme} (h : fieldPad w = (schemeCode p).toNat)
    (hw : w.extractLsb' 10 2 = 0#2) : p = .none := by
  simp only [fieldPad, hw] at h
  cases p with
  | none => rfl
  | pkcs | ansi => cases h

/-- Of the commands the decoder gives, `UNPAD NONE` alone has an illegal word. -/
theorem eq_unpad_none_of_illegalByR77 {w : CmdWord} {i : Instr} (hw : IllegalByR77 w) (h : decode w = .ok i) :
    i = .unpad .none := by
  obtain ⟨o, ho, hz, hc⟩ := decode_eq_ok_cases h
  have hop := op_eq_opByte ho
  cases o with
  | gfmul2 | gfmul3 | expandkey | encblock | subbytes | shiftrows | mixcolumns =>
    simp [IllegalByR77, hop, opByte, (unusedZero_n_iff w).mp hz] at hw
  | addroundkey => simp [IllegalByR77, hop, opByte, (unusedZero_k_iff w).mp hz] at hw
  | pad =>
    obtain ⟨p, hp, -⟩ := commandOf_pad_eq_ok hc
    simp [IllegalByR77, hop, opByte, (unusedZero_p_iff w).mp hz, padBits_ne_three hp] at hw
  | unpad =>
    obtain ⟨p, hp, rfl⟩ := commandOf_unpad_eq_ok hc
    have hpad : w.extractLsb' 10 2 = 0#2 := by
      simpa [IllegalByR77, hop, opByte, (unusedZero_p_iff w).mp hz, padBits_ne_three hp] using hw
    rw [scheme_eq_none_of_padBits hp hpad]
  | encmsg =>
    obtain ⟨m, p, hm, hp, -⟩ := commandOf_encmsg_eq_ok hc
    simp [IllegalByR77, hop, opByte, (unusedZero_m_iff w).mp hz, modeBits_ne_three hm, padBits_ne_three hp] at hw

/-- A legal word is the word of the command the decoder gives. -/
theorem exists_decode_of_not_illegalByR77 {w : CmdWord} (hw : ¬ IllegalByR77 w) :
    ∃ i, i.wellFormed = true ∧ encode i = w ∧ decode w = .ok i := by
  cases hd : decode w with
  | error e => exact absurd (illegalByR77_of_decode_eq_error hd) hw
  | ok i =>
    rcases wellFormed_or_eq_unpad_none_of_decode hd with hi | rfl
    · exact ⟨i, hi, decode_injective_of_ok (decode_encode hi) hd, rfl⟩
    · exact absurd (illegalByR77_of_decode_eq_unpad_none hd) hw

/-- The word of a well-formed command is legal. -/
theorem not_illegalByR77_encode {i : Instr} (hi : i.wellFormed = true) : ¬ IllegalByR77 (encode i) := by
  intro hw
  obtain rfl := eq_unpad_none_of_illegalByR77 hw (decode_encode hi)
  cases hi

end Sys2Proof

namespace Sys2Proof.Machine

theorem exec_unpad_none (s : State) : exec (.unpad .none) s = .next (s.raise .illegalCommand) := rfl

/-- The step that serves the write of an illegal word raises `IllegalCommand` (R77), `UNPAD NONE` as a command. -/
theorem step_commandWrite_of_illegalByR77 {s : State} {w : CmdWord} {rest : List HostAction}
    (h : s.host = commandWrite w :: rest) (hw : IllegalByR77 w) :
    step s = .next ((s.setHost rest).raise .illegalCommand) := by
  cases hd : decode w with
  | error e => exact step_commandWrite_of_decode_error h hd
  | ok i =>
    obtain rfl := eq_unpad_none_of_illegalByR77 hw hd
    rw [step_commandWrite_of_decode_ok h hd, exec_unpad_none]

end Sys2Proof.Machine

section
open Sys2Proof Sys2Proof.Machine

/-- Settles O1: the decoder reads the four fields back, and the bytes of `CMD` are the word. -/
theorem decodeOfEncodeIsTheCommand : Obligations.DecodeOfEncodeIsTheCommand := by
  intro i hi
  refine ⟨decode_encode hi, encode_and_tableMask hi, _, _, rfl, ?_⟩
  rw [decodeBytes_extract, decode_encode hi]

/-- Settles O2: a word decoded to a well-formed command is its word, since no two words decode to one command. -/
theorem everyWordIsOneCommandOrIllegal : Obligations.EveryWordIsOneCommandOrIllegal := by
  intro w
  by_cases hw : IllegalByR77 w
  · refine .inl ⟨hw, fun i hi hiw => ?_⟩
    subst hiw
    exact not_illegalByR77_encode hi hw
  · obtain ⟨i, hi, hiw, hd⟩ := exists_decode_of_not_illegalByR77 hw
    refine .inr ⟨hw, i, hi, hiw, hd, fun j hj hjw => ?_⟩
    have hdj : decode w = .ok j := hjw ▸ decode_encode hj
    exact Except.ok.inj (hdj.symm.trans hd)

/-- Settles O3: an illegal word is refused by the decoder or is `UNPAD NONE`. -/
theorem illegalCommandOnlySetsErrFive : Obligations.IllegalCommandOnlySetsErrFive :=
  ⟨fun _ _ _ h hw => step_commandWrite_of_illegalByR77 h hw, fun _ h => exec_encblock_of_nr_eq_zero h,
    fun _ _ h => exec_addroundkey_of_no_key h⟩

/-- Settles O4, by evaluation of the decoder and of the assembler text. -/
theorem exampleWordsDecodeAsTheSpecSays : Obligations.ExampleWordsDecodeAsTheSpecSays := by
  unfold Obligations.ExampleWordsDecodeAsTheSpecSays
  exact ⟨by decide, by decide⟩

end
end

section
/-! Proofs of the statements about field arithmetic (40_field_arithmetic.md), and the lemmas they share: the
polynomials of R90 where `Mul2` and `Mul3` need them, the two functions as linear maps, and a command that maps the
lanes of `ST`. -/

namespace Sys2Proof.Machine

/-! ### Polynomials -/

/-- Multiplication by `x` moves every coefficient up one place (R91). -/
theorem polyMul_two (v : Nat) : polyMul v 2 = v <<< 1 := by
  simp [polyMul, List.range_succ, Nat.testBit_succ]

/-- `(x + 1) · v = v + x · v` (R92). -/
theorem polyMul_three (v : Nat) : polyMul v 3 = v ^^^ v <<< 1 := by
  simp [polyMul, List.range_succ, Nat.testBit_succ]

/-- A polynomial of degree at most 8 without the term `x^8` is a byte. -/
theorem lt_of_testBit_eight {v : Nat} (hv : v < 2 ^ 9) (h : v.testBit 8 = false) : v < 2 ^ 8 := by
  rw [Nat.testBit_eq_decide_div_mod_eq, decide_eq_false_iff_not] at h
  omega

/-- Of a polynomial of degree at most 8 only the coefficient of `x^8` is to be reduced (R91). -/
theorem polyMod_of_lt {v : Nat} (hv : v < 2 ^ 9) :
    polyMod v = v % 2 ^ 8 ^^^ (if v.testBit 8 then 0x1b else 0) := by
  have hhigh {k : Nat} (hk : 9 ≤ k) : v.testBit k = false :=
    Nat.testBit_lt_two_pow (hv.trans_le (Nat.pow_le_pow_right (by decide) hk))
  have honly : polyMod v = if v.testBit 8 then v ^^^ 0x11b else v := by
    simp [polyMod, hhigh]
  rw [honly]
  split
  · next h8 =>
    have hbit : (v ^^^ 0x11b).testBit 8 = false := by rw [Nat.testBit_xor, h8]; rfl
    have hlt : v ^^^ 0x11b < 2 ^ 8 := lt_of_testBit_eight (Nat.xor_lt_two_pow hv (by decide)) hbit
    rw [← Nat.mod_eq_of_lt hlt, Nat.xor_mod_two_pow]
  · next h8 =>
    rw [Nat.mod_eq_of_lt (lt_of_testBit_eight hv (Bool.eq_false_iff.mpr h8)), Nat.xor_zero]

/-- Reduction leaves a summand that is already reduced (R90). -/
theorem polyMod_xor_of_lt {u v : Nat} (hu : u < 2 ^ 8) (hv : v < 2 ^ 9) : polyMod (u ^^^ v) = u ^^^ polyMod v := by
  have hu9 : u < 2 ^ 9 := hu.trans (by decide)
  rw [polyMod_of_lt (Nat.xor_lt_two_pow hu9 hv), polyMod_of_lt hv, Nat.xor_mod_two_pow, Nat.mod_eq_of_lt hu,
    Nat.testBit_xor, Nat.testBit_lt_two_pow hu, Bool.false_xor, Nat.xor_assoc]

/-! ### `Mul2` and `Mul3` -/

/-- `Mul2` as one shift and one conditional summand. -/
theorem mul2_eq_xor (b : Byte) : mul2 b = b <<< 1 ^^^ (if b.getLsbD 7 then 0x1b#8 else 0#8) := by
  unfold mul2
  split <;> simp

theorem toNat_shiftLeft_one_lt (b : Byte) : b.toNat <<< 1 < 2 ^ 9 := by
  have := b.isLt
  rw [Nat.shiftLeft_eq]; omega

/-- `Mul2` is the product by `x` (R91). -/
theorem toNat_mul2 (b : Byte) : (mul2 b).toNat = polyMod (polyMul b.toNat 2) := by
  rw [polyMul_two, polyMod_of_lt (toNat_shiftLeft_one_lt b), mul2_eq_xor, BitVec.toNat_xor, BitVec.toNat_shiftLeft,
    apply_ite BitVec.toNat, Nat.testBit_shiftLeft]
  rfl

/-- `Mul3` is the product by `x + 1` (R92). -/
theorem toNat_mul3 (b : Byte) : (mul3 b).toNat = polyMod (polyMul b.toNat 3) := by
  rw [polyMul_three, polyMod_xor_of_lt b.isLt (toNat_shiftLeft_one_lt b), ← polyMul_two, ← toNat_mul2, mul3,
    BitVec.toNat_xor, Nat.xor_comm]

/-- The printed table for 2 (R93), entry by entry. -/
theorem tableAt_mul2Rows : ∀ b : Byte, tableAt mul2Rows b = mul2 b := by decide

/-- The printed table for 3 (R93), entry by entry. -/
theorem tableAt_mul3Rows : ∀ b : Byte, tableAt mul3Rows b = mul3 b := by decide

/-- Both summands of `Mul2`, the shift and the one conditional on bit 7, are linear. -/
theorem mul2_xor (a b : Byte) : mul2 (a ^^^ b) = mul2 a ^^^ mul2 b := by
  have hsummand : ∀ p q : Bool, (if p ^^ q then 0x1b#8 else 0#8)
      = (if p then 0x1b#8 else 0#8) ^^^ (if q then 0x1b#8 else 0#8) := by decide
  simp only [mul2_eq_xor, BitVec.shiftLeft_xor_distrib, BitVec.getLsbD_xor, hsummand]
  ac_rfl

/-- `Mul3` is the sum of two linear maps. -/
theorem mul3_xor (a b : Byte) : mul3 (a ^^^ b) = mul3 a ^^^ mul3 b := by
  simp only [mul3, mul2_xor]
  ac_rfl

theorem mul2_xor_mul3 (b : Byte) : mul2 b ^^^ mul3 b = b := by
  rw [mul3, ← BitVec.xor_assoc, BitVec.xor_self, BitVec.zero_xor]

/-- A map of bytes linear over XOR is a bijection when it sends 0 alone to 0. -/
theorem bijective_of_xor_linear {f : Byte → Byte} (hxor : ∀ a b, f (a ^^^ b) = f a ^^^ f b)
    (hker : ∀ a, f a = 0#8 → a = 0#8) : Function.Bijective f := by
  refine Finite.injective_iff_bijective.mp fun a b h => ?_
  have hzero : f (a ^^^ b) = 0#8 := by rw [hxor, h, BitVec.xor_self]
  exact BitVec.xor_eq_zero_iff.mp (hker _ hzero)

theorem mul2_bijective : Function.Bijective mul2 := bijective_of_xor_linear mul2_xor (by decide)

theorem mul3_bijective : Function.Bijective mul3 := bijective_of_xor_linear mul3_xor (by decide)

/-! ### The lanes of `ST` -/

@[simp] theorem getElem_mapLanes (f : Byte → Byte) (s : Block) (i : Fin 16) : (mapLanes f s)[i] = f s[i] :=
  getElem_fin_tabulate _ i

theorem exec_gfmul2 (s : State) : exec .gfmul2 s = .next (s.setSt (mapLanes mul2 s.st)).succeed := rfl

theorem exec_gfmul3 (s : State) : exec .gfmul3 s = .next (s.setSt (mapLanes mul3 s.st)).succeed := rfl

/-- A command that answers the lanes of `ST` mapped completes, and nothing but `ST` and `ERR` changes (R96, R97). -/
theorem exec_mapLanes_completes {i : Instr} {f : Byte → Byte} {s : State}
    (h : exec i s = .next (s.setSt (mapLanes f s.st)).succeed) :
    ∃ t, exec i s = .next t ∧ (∀ k : Fin 16, t.st[k] = f s.st[k]) ∧ t.err = 0#8 ∧ t.trace = s.trace
      ∧ InputsKept s t ∧ ScheduleKept s t ∧ OutputKept s t :=
  ⟨_, h, getElem_mapLanes f s.st, rfl, rfl, noCommandModifiesItsInputs i s _ h, ⟨rfl, rfl⟩, fun _ => rfl, rfl⟩

end Sys2Proof.Machine

section
open Sys2Proof Sys2Proof.Machine

/-- Settles O10: `Mul2` and `Mul3` shift and reduce once; the tables entry by entry. -/
theorem mulTwoAndThreeAreFieldProducts : Obligations.MulTwoAndThreeAreFieldProducts := fun b =>
  ⟨toNat_mul2 b, toNat_mul3 b, rfl, rfl, tableAt_mul2Rows b, tableAt_mul3Rows b⟩

/-- Settles O11: the values by evaluation, the bijections from linearity. -/
theorem fieldMultiplicationLaws : Obligations.FieldMultiplicationLaws :=
  ⟨rfl, rfl, rfl, rfl, rfl, rfl, rfl, rfl, fun a b => ⟨mul2_xor a b, mul3_xor a b⟩,
    mul2_bijective, mul3_bijective, mul2_xor_mul3⟩

/-- Settles O12: each word is the encoding of its command, and each command maps its product over the lanes. -/
theorem gfmulMultipliesEveryLane : Obligations.GfmulMultipliesEveryLane :=
  ⟨decode_encode (i := .gfmul2) rfl, decode_encode (i := .gfmul3) rfl,
    fun s => exec_mapLanes_completes (exec_gfmul2 s), fun s => exec_mapLanes_completes (exec_gfmul3 s)⟩

end
end

section
/-! Proofs of the statements about the substitution table and the word functions of the key schedule
(41_substitution_tables.md), and the lemmas they share: `SBox` as the affine map of R102 after the field inverse, both
of them bijections, and the bytes of `SubWord` and `RotWord`. -/

namespace Sys2Proof.Machine

/-! ### `SBox` -/

/-- The affine map of R102 undone. -/
def sboxAffineInverse (s : Byte) : Byte := s.rotateLeft 1 ^^^ s.rotateLeft 3 ^^^ s.rotateLeft 6 ^^^ 0x05#8

theorem sboxAffine_sboxAffineInverse : ∀ s : Byte, sboxAffine (sboxAffineInverse s) = s := by decide

theorem sboxAffine_bijective : Function.Bijective sboxAffine :=
  Finite.surjective_iff_bijective.mp (Function.RightInverse.surjective sboxAffine_sboxAffineInverse)

/-- The byte whose affine image the printed table holds at `b`. -/
def sboxInverse (b : Byte) : Byte := sboxAffineInverse (sbox b)

theorem sbox_eq_sboxAffine (b : Byte) : sbox b = sboxAffine (sboxInverse b) :=
  (sboxAffine_sboxAffineInverse (sbox b)).symm

theorem isSboxInverse_iff (b v : Byte) :
    isSboxInverse b v = true ↔ b = 0#8 ∧ v = 0#8 ∨ b ≠ 0#8 ∧ fieldMul b v = 1#8 := by
  unfold isSboxInverse
  split <;> simp [*]

/-- What stands under the affine map in the printed table is the field inverse (R102), entry by entry. -/
theorem isSboxInverse_sboxInverse : ∀ b : Byte, isSboxInverse b (sboxInverse b) = true := by decide

/-- The inverse of the inverse is the byte itself. -/
theorem sboxInverse_involutive : Function.Involutive sboxInverse := by
  unfold Function.Involutive
  decide

/-- `SBox` is a bijection because the inverse and the affine map both are (R103). -/
theorem sbox_bijective : Function.Bijective sbox := by
  have hcomp : sbox = sboxAffine ∘ sboxInverse := funext sbox_eq_sboxAffine
  exact hcomp ▸ sboxAffine_bijective.comp sboxInverse_involutive.bijective

/-- No fixed point and no opposite fixed point (R103), entry by entry. -/
theorem sbox_ne_self_and_ne_complement : ∀ b : Byte, sbox b ≠ b ∧ sbox b ≠ b ^^^ 0xff#8 := by decide

/-- The sum of the entries at 1 and 2 is `0b` and the entry at their sum is `7b`: they differ by more than the constant
`63` of the affine map. -/
theorem sbox_not_xor_linear : sbox (0x01#8 ^^^ 0x02#8) ≠ sbox 0x01#8 ^^^ sbox 0x02#8 := by decide

/-! ### The round constants and the word functions -/

/-- The generating rule of the round constants (R104). -/
theorem rcon_succ {j : Nat} (h1 : 1 ≤ j) (h10 : j < 10) : rcon (j + 1) = mul2 (rcon j) := by
  interval_cases j <;> rfl

@[simp] theorem getElem_subWord (t : KWord) (i : Nat) (h : i < 4) : (subWord t)[i] = sbox t[i] := by
  simp [subWord]

@[simp] theorem getElem_rotWord (t : KWord) (i : Nat) (h : i < 4) :
    (rotWord t)[i] = t[(i + 1) % 4]'(Nat.mod_lt _ (by decide)) := by
  simp [rotWord]

/-- A word is its four bytes. -/
theorem kWord_eq (t : KWord) : t = #v[t[0], t[1], t[2], t[3]] := by
  ext i h
  interval_cases i <;> rfl

theorem subWord_eq (t : KWord) : subWord t = #v[sbox t[0], sbox t[1], sbox t[2], sbox t[3]] := by
  rw [kWord_eq (subWord t)]
  simp only [getElem_subWord]

theorem rotWord_eq (t : KWord) : rotWord t = #v[t[1], t[2], t[3], t[0]] := by
  rw [kWord_eq (rotWord t)]
  simp only [getElem_rotWord]

/-- `SubWord` treats every byte alike, so it commutes with a permutation of the bytes. -/
theorem subWord_rotWord (t : KWord) : subWord (rotWord t) = rotWord (subWord t) := by
  ext i h
  simp only [getElem_subWord, getElem_rotWord]

end Sys2Proof.Machine

section
open Sys2Proof Sys2Proof.Machine

/-- Settles O13: the table is the affine map after the field inverse, and both are bijections. -/
theorem sboxIsAffineOfTheInverseAndBijective : Obligations.SboxIsAffineOfTheInverseAndBijective :=
  ⟨fun b => ⟨sboxInverse b, (isSboxInverse_iff b _).mp (isSboxInverse_sboxInverse b), sbox_eq_sboxAffine b⟩,
    sbox_bijective, sbox_ne_self_and_ne_complement, 0x01#8, 0x02#8, sbox_not_xor_linear⟩

/-- Settles O14: the table of round constants by evaluation, the word functions byte by byte. -/
theorem wordFunctionsOfTheKeySchedule : Obligations.WordFunctionsOfTheKeySchedule :=
  ⟨rfl, fun _ => rcon_succ, subWord_eq, rotWord_eq, subWord_rotWord, rotWord_eq _, subWord_eq _⟩

end
end

section
/-! Proofs of the statements about the key schedule (42_key_schedule.md), and the lemmas they share: the words of a key
as the recurrence of R112, the bytes of a round key as bytes of its words, and the two outcomes of `EXPANDKEY`. -/

namespace Sys2Proof.Machine

/-! ### The loop of R112 -/

/-- The loop leaves the words made so far in place. -/
theorem suffix_expandWords (nk todo i : Nat) (made : List KWord) : made <:+ expandWords nk todo i made := by
  induction todo generalizing i made with
  | zero => exact List.suffix_refl _
  | succ todo ih => exact (List.suffix_cons _ _).trans (ih _ _)

/-- The words stand newest first: word `j`, counted from the oldest, is found from the head of what was made up to any
turn after it. -/
theorem getD_reverse_of_suffix {α : Type} {l m : List α} (h : l <:+ m) {j : Nat} (hj : j < l.length) (d : α) :
    m.reverse.getD j d = l.getD (l.length - 1 - j) d := by
  obtain ⟨p, rfl⟩ := h
  rw [List.reverse_append, List.getD_append _ _ _ _ (by simpa using hj)]
  simp only [List.getD_eq_getElem?_getD, List.getElem?_reverse hj]

/-- Every turn of the loop makes the next word from the word before it and the word `nk` before it. -/
theorem getD_reverse_expandWords {nk todo i j : Nat} {made : List KWord} (hmade : made.length = i) (hnk : 0 < nk)
    (hki : nk ≤ i) (hij : i ≤ j) (hj : j < i + todo) :
    (expandWords nk todo i made).reverse.getD j (zeros 4)
      = nextWord nk j ((expandWords nk todo i made).reverse.getD (j - 1) (zeros 4))
          ((expandWords nk todo i made).reverse.getD (j - nk) (zeros 4)) := by
  induction todo generalizing i made with
  | zero => omega
  | succ todo ih =>
    rw [expandWords]
    rcases Nat.eq_or_lt_of_le hij with rfl | hlt
    · have hs := suffix_expandWords nk todo (i + 1)
        (nextWord nk i (made.getD 0 (zeros _)) (made.getD (nk - 1) (zeros _)) :: made)
      rw [getD_reverse_of_suffix hs (by simp [hmade]), getD_reverse_of_suffix hs (by simp; omega),
        getD_reverse_of_suffix hs (by simp; omega)]
      obtain ⟨m, rfl⟩ : ∃ m, nk = m + 1 := ⟨nk - 1, by omega⟩
      have h0 : made.length + 1 - 1 - i = 0 := by omega
      have h1 : made.length + 1 - 1 - (i - 1) = 0 + 1 := by omega
      have hb : made.length + 1 - 1 - (i - (m + 1)) = m + 1 := by omega
      rw [List.length_cons, h0, h1, hb, List.getD_cons_zero, List.getD_cons_succ, List.getD_cons_succ,
        Nat.add_sub_cancel]
    · exact ih (by simp [hmade]) (by omega) hlt (by omega)

/-! ### The words of a key -/

theorem keyLength_cases {n : Nat} (h : n ∈ [16, 24, 32]) : n = 16 ∨ n = 24 ∨ n = 32 := by simpa using h

/-- `w[i]` of the schedule of a key (R112). -/
def keyWord (key : List Byte) (i : Nat) : KWord := (keyWords key).getD i (zeros 4)

/-- The first `Nk` words are the raw key. -/
theorem keyWord_eq_rawKeyWord {key : List Byte} {i : Nat} (hi : i < wordsOfKey key.length) :
    keyWord key i = rawKeyWord key i := by
  have hl : i < (((List.range (wordsOfKey key.length)).map (rawKeyWord key)).reverse).length := by simpa using hi
  rw [keyWord, keyWords, getD_reverse_of_suffix (suffix_expandWords _ _ _ _) hl,
    ← getD_reverse_of_suffix (List.suffix_refl _) hl, List.reverse_reverse]
  simp [hi]

/-- Every later word is the exclusive-or of R112. -/
theorem keyWord_eq_nextWord {key : List Byte} {i : Nat} (hk : 0 < wordsOfKey key.length)
    (hi : wordsOfKey key.length ≤ i) (ht : i < totalWords key.length) :
    keyWord key i
      = nextWord (wordsOfKey key.length) i (keyWord key (i - 1)) (keyWord key (i - wordsOfKey key.length)) :=
  getD_reverse_expandWords (by simp) hk le_rfl hi (by omega)

theorem rawKeyWord_eq (key : List Byte) (i : Nat) :
    rawKeyWord key i
      = #v[key.getD (4 * i) 0#8, key.getD (4 * i + 1) 0#8, key.getD (4 * i + 2) 0#8, key.getD (4 * i + 3) 0#8] := by
  rw [kWord_eq (rawKeyWord key i)]
  simp only [rawKeyWord, getElem_tabulate, Nat.add_zero]

theorem rconWord_eq (j : Nat) : rconWord j = #v[rcon j, 0#8, 0#8, 0#8] := rfl

/-! ### The bytes of a round key -/

/-- Byte `j` of a list of words is byte `j mod 4` of word `j / 4` (R52 (c)). -/
theorem getD_flatMap_toList (ws : List KWord) (j : Nat) :
    (ws.flatMap fun t => t.toList).getD j 0#8 = (ws.getD (j / 4) (zeros 4))[j % 4]'(Nat.mod_lt _ (by decide)) := by
  induction ws generalizing j with
  | nil => simp
  | cons t ws ih =>
    rw [List.flatMap_cons]
    by_cases hj : j < 4
    · simp [List.getElem?_append_left, hj, Nat.div_eq_of_lt, Nat.mod_eq_of_lt]
    · obtain ⟨i, rfl⟩ : ∃ i, j = i + 4 := ⟨j - 4, by omega⟩
      rw [List.getD_append_right _ _ _ _ (by simp), Vector.length_toList, Nat.add_sub_cancel, ih]
      simp

theorem getElem_roundKeyOf_keyWords (key : List Byte) (k j : Nat) (hj : j < 16) :
    (roundKeyOf (keyWords key) k)[j] = (keyWord key (4 * k + j / 4))[j % 4]'(Nat.mod_lt _ (by decide)) := by
  have hd : j / 4 < 4 := by omega
  rw [roundKeyOf, getElem_blockOfList, getD_flatMap_toList]
  simp [keyWord, hd]

/-- Round key `k` is words `4k` to `4k+3`, written out (R112). -/
theorem roundKeyOf_keyWords (key : List Byte) (k : Nat) :
    roundKeyOf (keyWords key) k
      = blockOfList ((keyWord key (4 * k)).toList ++ (keyWord key (4 * k + 1)).toList
          ++ (keyWord key (4 * k + 2)).toList ++ (keyWord key (4 * k + 3)).toList) := by
  have hw : ∀ m < 4, [keyWord key (4 * k), keyWord key (4 * k + 1), keyWord key (4 * k + 2),
      keyWord key (4 * k + 3)].getD m (zeros 4) = keyWord key (4 * k + m) := fun m hm => by
    interval_cases m <;> rfl
  ext j hj
  have h := getD_flatMap_toList
    [keyWord key (4 * k), keyWord key (4 * k + 1), keyWord key (4 * k + 2), keyWord key (4 * k + 3)] j
  simp only [hw (j / 4) (by omega), List.flatMap_cons, List.flatMap_nil, List.append_nil, ← List.append_assoc] at h
  rw [getElem_roundKeyOf_keyWords, getElem_blockOfList, h]

/-- The bytes of the first `Nk` words are the key's bytes in order (R115). -/
theorem getElem_roundKeyOf_eq_getD {key : List Byte} {k j : Nat} (hj : j < 16)
    (h : 16 * k + j < 4 * wordsOfKey key.length) :
    (roundKeyOf (keyWords key) k)[j] = key.getD (16 * k + j) 0#8 := by
  have hi : 4 * (4 * k + j / 4) + j % 4 = 16 * k + j := by omega
  rw [getElem_roundKeyOf_keyWords, keyWord_eq_rawKeyWord (by omega), rawKeyWord, getElem_tabulate, hi]

theorem getD_keyExpansion {key : List Byte} {k : Nat} (hk : k ≤ roundsOf key.length) (d : Block) :
    (keyExpansion key).getD k d = roundKeyOf (keyWords key) k := by
  simp [keyExpansion, Nat.lt_succ_of_le hk]

/-- Where the first `n` bytes of round key `k` lie in the raw key, they are its bytes from `16k` on (R115). -/
theorem take_toList_keyExpansion {key : List Byte} {k n : Nat} (hlen : key.length ∈ [16, 24, 32]) (hn : n ≤ 16)
    (h : 16 * k + n ≤ key.length) (d : Block) :
    ((keyExpansion key).getD k d).toList.take n = (key.drop (16 * k)).take n := by
  have hcases := keyLength_cases hlen
  have hr : k ≤ roundsOf key.length := by simp only [roundsOf]; omega
  have hw : 4 * wordsOfKey key.length = key.length := by simp only [wordsOfKey]; omega
  rw [getD_keyExpansion hr]
  refine List.ext_getElem (by simp; omega) fun j hj _ => ?_
  have hjn : j < n := by simp at hj; omega
  rw [List.getElem_take, Vector.getElem_toList, getElem_roundKeyOf_eq_getD (by omega) (by omega),
    List.getElem_take, List.getElem_drop, List.getD_eq_getElem]

/-- A round key that lies in the raw key as a whole (R115). -/
theorem toList_keyExpansion {key : List Byte} {k : Nat} (hlen : key.length ∈ [16, 24, 32])
    (h : 16 * k + 16 ≤ key.length) (d : Block) :
    ((keyExpansion key).getD k d).toList = (key.drop (16 * k)).take 16 := by
  rw [← take_toList_keyExpansion hlen le_rfl h d, List.take_of_length_le (by simp)]

/-! ### `EXPANDKEY` -/

theorem exec_expandkey_of_legal {s : State} (h : s.keyLengthLegal = true) :
    exec .expandkey s = .next s.runKeySchedule.succeed := if_pos h

theorem exec_expandkey_of_illegal {s : State} (h : s.keyLengthLegal = false) :
    exec .expandkey s = .next (s.raise .invalidKeyLength) := if_neg (by simp [h])

/-- The bytes of `W` above the schedule stay (R118). -/
theorem State.getElem_runKeySchedule_w_above {s : State} (h : s.keyLengthLegal = true) {j : Nat} (hj : j < 240)
    (ha : 16 * (roundsOf s.klen.toNat + 1) ≤ j) : s.runKeySchedule.w[j] = s.w[j] := by
  rw [State.getElem_runKeySchedule_w, List.getD_eq_default]
  rwa [State.length_scheduleBytes s h]

/-- The round keys of a legal key do not depend on the schedule that was there (R116). -/
theorem State.roundKey_runKeySchedule_setSchedule {s : State} (w : Bytes 240) (n : Byte) {k : Nat}
    (h : s.keyLengthLegal = true) (hk : k ≤ roundsOf s.klen.toNat) :
    (s.setSchedule w n).runKeySchedule.roundKey k = s.runKeySchedule.roundKey k := by
  rw [s.roundKey_runKeySchedule k h hk, (s.setSchedule w n).roundKey_runKeySchedule k h hk,
    State.setSchedule_keyInUse]

@[simp] theorem State.runKeySchedule_succeed_repeat (s : State) :
    s.runKeySchedule.succeed.runKeySchedule.succeed = s.runKeySchedule.succeed :=
  congrArg (fun w => { s.runKeySchedule.succeed with w := w }) (writeBytes_repeat s.w 0 _)

/-- `EXPANDKEY` a second time changes nothing: the key it reads and the schedule it writes are the same. -/
theorem exec_expandkey_repeat {s t : State} (h : exec .expandkey s = .next t) : exec .expandkey t = .next t := by
  cases hl : s.keyLengthLegal with
  | true =>
    rw [exec_expandkey_of_legal hl] at h
    cases h
    have ht : s.runKeySchedule.succeed.keyLengthLegal = true := hl
    rw [exec_expandkey_of_legal ht, State.runKeySchedule_succeed_repeat]
  | false =>
    rw [exec_expandkey_of_illegal hl] at h
    cases h
    exact exec_expandkey_of_illegal hl

end Sys2Proof.Machine

section
open Sys2Proof Sys2Proof.Machine

/-- Settles O15: the words are those the loop makes, and each turn of the loop is the rule. -/
theorem keyExpansionFollowsTheRecurrence : Obligations.KeyExpansionFollowsTheRecurrence := by
  intro key hlen
  have hcases := keyLength_cases hlen
  have hk : 0 < wordsOfKey key.length := by simp only [wordsOfKey]; omega
  refine ⟨keyWord key, fun i hi => ?_, fun i hi ht => ?_, ?_⟩
  · rw [keyWord_eq_rawKeyWord hi, rawKeyWord_eq]
  · rw [keyWord_eq_nextWord hk hi ht, nextWord, scheduleTemp, rconWord_eq]
    rfl
  · exact List.map_congr_left fun k _ => roundKeyOf_keyWords key k

/-- Settles O16: the first `Nk` words are the raw key, so byte `16k + j` of the key is byte `j` of round key `k`. -/
theorem firstRoundKeysAreTheRawKey : Obligations.FirstRoundKeysAreTheRawKey := by
  intro key hlen
  have hcases := keyLength_cases hlen
  refine ⟨length_keyExpansion key, ?_, fun h24 => ?_, fun h32 => ?_⟩
  · exact toList_keyExpansion (k := 0) hlen (by omega) _
  · rw [take_toList_keyExpansion hlen (by omega) (by omega), List.take_of_length_le (by simp [h24])]
  · rw [toList_keyExpansion hlen (by omega), List.take_of_length_le (by simp [h32])]

/-- Settles O17: the key schedule when `KLEN` is legal, `InvalidKeyLength` when it is not. -/
theorem expandkeyWritesTheSchedule : Obligations.ExpandkeyWritesTheSchedule := by
  refine ⟨decode_encode (i := .expandkey) rfl, fun s hs => ?_, fun s hs => ?_, fun s t => exec_expandkey_repeat⟩
  · have hl := s.keyLengthLegal_iff.mpr hs
    have he := exec_expandkey_of_legal hl
    exact ⟨_, he, fun k hk => s.roundKey_runKeySchedule k hl hk,
      fun j hj => State.getElem_runKeySchedule_w_above hl j.isLt hj, s.runKeySchedule_nr_toNat, rfl, rfl, rfl,
      noCommandModifiesItsInputs _ s _ he, fun _ => rfl, rfl⟩
  · exact exec_expandkey_of_illegal (s.keyLengthLegal_eq_false_iff.mpr hs)

/-- Settles O18: the round keys and `NR` are functions of the key in use and `KLEN`. -/
theorem expandkeyDoesNotReadTheOldSchedule : Obligations.ExpandkeyDoesNotReadTheOldSchedule := by
  intro s w n hs
  have hl := s.keyLengthLegal_iff.mpr hs
  refine ⟨_, _, exec_expandkey_of_legal hl, exec_expandkey_of_legal (s := s.setSchedule w n) hl, ?_, fun k hk => ?_⟩
  · simp only [State.succeed_nr, State.runKeySchedule_nr, State.setSchedule_klen]
  · rw [State.succeed_nr, State.runKeySchedule_nr_toNat] at hk
    exact State.roundKey_runKeySchedule_setSchedule w n hl hk

end
end

section
/-! Proofs of the statements about the round transform (43_round_transform.md), and the lemmas they share: the four
operations byte by byte, their bijections, an encryption as operations one after another, and the commands that run
them. -/

namespace Sys2Proof.Machine

/-! ### `ShiftRows` and `MixColumns` byte by byte -/

@[simp] theorem getElem_shiftRows (s : Block) (n : Nat) (hn : n < 16) :
    (shiftRows s)[n] = s[shiftRowsSource n]'(by simp only [shiftRowsSource]; omega) :=
  getElem_tabulate _ n hn

/-- Row `r` of column `c` comes from column `c + r` modulo 4 of the same row (R127). -/
theorem shiftRowsSource_row_column {r : Nat} (hr : r < 4) (c : Nat) :
    shiftRowsSource (r + 4 * c) = r + 4 * ((c + r) % 4) := by
  simp only [shiftRowsSource]; omega

/-- A byte stays in its row (R127). -/
theorem shiftRowsSource_mod_four (n : Nat) : shiftRowsSource n % 4 = n % 4 := by
  simp only [shiftRowsSource]; omega

/-- Row `r` of four columns is rotated by `4r` columns in all, which is no rotation. -/
theorem shiftRowsSource_four_times :
    ∀ n < 16, shiftRowsSource (shiftRowsSource (shiftRowsSource (shiftRowsSource n))) = n := by decide

/-- Four applications restore the State (R128). -/
theorem shiftRows_four_times (s : Block) : shiftRows (shiftRows (shiftRows (shiftRows s))) = s := by
  refine Vector.ext fun n hn => ?_
  simp only [getElem_shiftRows, shiftRowsSource_four_times n hn]

/-- A State of four equal columns is unchanged (R128). -/
theorem shiftRows_of_equal_columns {s : Block} (h : ∀ i : Fin 16, s[i] = s[i.val % 4]'(by omega)) : shiftRows s = s := by
  refine Vector.ext fun n hn => ?_
  have hsource : shiftRowsSource n < 16 := by simp only [shiftRowsSource]; omega
  have hrow := h ⟨shiftRowsSource n, hsource⟩
  simp only [Fin.getElem_fin, shiftRowsSource_mod_four] at hrow
  rw [getElem_shiftRows, hrow]
  exact (h ⟨n, hn⟩).symm

/-- Row `r` of column `c` after `MixColumns` (R129). -/
theorem getElem_mixColumns (s : Block) {c r : Nat} (hc : c < 4) (hr : r < 4) :
    (mixColumns s)[4 * c + r] = mixByte r s[4 * c] s[4 * c + 1] s[4 * c + 2] s[4 * c + 3] := by
  have hrow : (4 * c + r) % 4 = r := by omega
  have hcol : (4 * c + r) / 4 = c := by omega
  simp only [mixColumns, getElem_tabulate, hrow, hcol]

/-- Every summand of a row is linear. -/
theorem mixByte_xor (r : Nat) (a0 a1 a2 a3 b0 b1 b2 b3 : Byte) :
    mixByte r (a0 ^^^ b0) (a1 ^^^ b1) (a2 ^^^ b2) (a3 ^^^ b3) = mixByte r a0 a1 a2 a3 ^^^ mixByte r b0 b1 b2 b3 := by
  unfold mixByte
  split <;> simp only [mul2_xor, mul3_xor] <;> ac_rfl

/-- The coefficients 2, 3, 1, 1 of a row sum to 1. -/
theorem mixByte_same (r : Nat) (b : Byte) : mixByte r b b b b = b := by
  unfold mixByte
  split <;> simp [mul3, BitVec.xor_comm]

theorem mixColumns_xor (a b : Block) : mixColumns (xorBytes a b) = xorBytes (mixColumns a) (mixColumns b) := by
  refine Vector.ext fun n hn => ?_
  simp only [mixColumns, getElem_tabulate, getElem_xorBytes, mixByte_xor]

theorem byte_xor_left_comm (a b c : Byte) : a ^^^ (b ^^^ c) = b ^^^ (a ^^^ c) := by ac_rfl

/-- The rows of the matrix of R129 are the first one rotated. -/
theorem mixByte_eq_rotate (a b c d : Byte) :
    mixByte 1 a b c d = mixByte 0 b c d a ∧ mixByte 2 a b c d = mixByte 0 c d a b
      ∧ mixByte 3 a b c d = mixByte 0 d a b c := by
  refine ⟨?_, ?_, ?_⟩ <;> simp only [mixByte] <;> ac_rfl

theorem mixByte_zero (a b c d : Byte) : mixByte 0 a b c d = mul2 (a ^^^ b) ^^^ (b ^^^ c ^^^ d) := by
  simp only [mixByte, mul3, mul2_xor]
  ac_rfl

/-- The first row of the square of the matrix of R129 is 5, 0, 4, 0. -/
theorem mixByte_zero_twice (a b c d : Byte) :
    mixByte 0 (mixByte 0 a b c d) (mixByte 0 b c d a) (mixByte 0 c d a b) (mixByte 0 d a b c)
      = a ^^^ mul2 (mul2 (a ^^^ c)) := by
  have hfirst : mixByte 0 a b c d ^^^ mixByte 0 b c d a = mul2 (a ^^^ c) ^^^ (a ^^^ b) := by
    simp [mixByte_zero, mul2_xor, BitVec.xor_assoc, BitVec.xor_comm, byte_xor_left_comm]
  have hrest : mixByte 0 b c d a ^^^ mixByte 0 c d a b ^^^ mixByte 0 d a b c = a ^^^ mul2 (a ^^^ b) := by
    simp [mixByte_zero, mul2_xor, BitVec.xor_assoc, BitVec.xor_comm, byte_xor_left_comm]
  rw [mixByte_zero (mixByte 0 a b c d), hfirst, hrest, mul2_xor, byte_xor_left_comm, xor_cancel_right]

/-- The square of the matrix of R129 has the coefficients 5 on the diagonal, 4 two rows off it, and 0 elsewhere. -/
theorem getElem_mixColumns_mixColumns (s : Block) {c r : Nat} (hc : c < 4) (hr : r < 4) :
    (mixColumns (mixColumns s))[4 * c + r]
      = s[4 * c + r] ^^^ mul2 (mul2 (s[4 * c + r] ^^^ s[4 * c + (r + 2) % 4])) := by
  have h0 : (mixColumns s)[4 * c] = _ := getElem_mixColumns s hc (r := 0) (by decide)
  rw [getElem_mixColumns _ hc hr, h0, getElem_mixColumns s hc (r := 1) (by decide),
    getElem_mixColumns s hc (r := 2) (by decide), getElem_mixColumns s hc (r := 3) (by decide)]
  interval_cases r <;> simp only [mixByte_eq_rotate, mixByte_zero_twice] <;> rfl

/-- The fourth power of the matrix of R129 is the identity. -/
theorem mixColumns_four_times (s : Block) : mixColumns (mixColumns (mixColumns (mixColumns s))) = s := by
  refine Vector.ext fun n hn => ?_
  obtain ⟨c, r, hc, hr, rfl⟩ : ∃ c r, c < 4 ∧ r < 4 ∧ n = 4 * c + r := ⟨n / 4, n % 4, by omega, by omega, by omega⟩
  have hr2 : (r + 2) % 4 < 4 := Nat.mod_lt _ (by decide)
  have hback : ((r + 2) % 4 + 2) % 4 = r := by omega
  rw [getElem_mixColumns_mixColumns _ hc hr, getElem_mixColumns_mixColumns s hc hr,
    getElem_mixColumns_mixColumns s hc hr2]
  simp only [hback, BitVec.xor_comm s[4 * c + (r + 2) % 4] s[4 * c + r]]
  generalize s[4 * c + r] = a
  generalize s[4 * c + (r + 2) % 4] = b
  have hdiff : (a ^^^ mul2 (mul2 (a ^^^ b))) ^^^ (b ^^^ mul2 (mul2 (a ^^^ b))) = a ^^^ b := by
    rw [byte_xor_left_comm, xor_cancel_right, BitVec.xor_comm]
  rw [hdiff, xor_cancel_right]

/-! ### Bijections -/

/-- A map whose fourth power is the identity has its third power as the inverse. -/
theorem bijective_of_four_times {f : Block → Block} (h : ∀ s, f (f (f (f s))) = s) : Function.Bijective f :=
  Function.bijective_iff_has_inverse.mpr ⟨fun s => f (f (f s)), h, h⟩

/-- A bijection of bytes on every lane is undone lane by lane. -/
theorem mapLanes_bijective {f : Byte → Byte} (hf : Function.Bijective f) : Function.Bijective (mapLanes f) := by
  obtain ⟨g, hgf, hfg⟩ := Function.bijective_iff_has_inverse.mp hf
  refine Function.bijective_iff_has_inverse.mpr
    ⟨mapLanes g, fun s => Vector.ext fun i hi => ?_, fun s => Vector.ext fun i hi => ?_⟩
  · simpa [mapLanes] using hgf s[i]
  · simpa [mapLanes] using hfg s[i]

theorem subBytes_bijective : Function.Bijective subBytes := mapLanes_bijective sbox_bijective

theorem shiftRows_bijective : Function.Bijective shiftRows := bijective_of_four_times shiftRows_four_times

theorem mixColumns_bijective : Function.Bijective mixColumns := bijective_of_four_times mixColumns_four_times

/-- `AddRoundKey` is its own inverse (R131). -/
theorem addRoundKey_bijective (k : Block) : Function.Bijective fun s => addRoundKey s k :=
  Function.Involutive.bijective fun s => xorBytes_cancel s k

theorem oneRound_bijective (last : Bool) (k : Block) : Function.Bijective fun s => (oneRound last k s).state := by
  have hshift := shiftRows_bijective.comp subBytes_bijective
  cases last with
  | true => exact (addRoundKey_bijective k).comp hshift
  | false => exact (addRoundKey_bijective k).comp (mixColumns_bijective.comp hshift)

theorem rounds_bijective (rk : Nat → Block) (todo r : Nat) : Function.Bijective fun s => (rounds rk todo r s).state := by
  induction todo generalizing r with
  | zero => exact Function.bijective_id
  | succ todo ih => exact (ih (r + 1)).comp (oneRound_bijective (todo == 0) (rk r))

theorem encryptBlock_bijective (rk : Nat → Block) (nr : Nat) :
    Function.Bijective fun s => (encryptBlock rk nr s).state :=
  (rounds_bijective rk nr 1).comp (addRoundKey_bijective (rk 0))

/-! ### The entries of a block encryption -/

/-- The labels of one round's entries (R132, R133). -/
def roundLabels (last : Bool) : List TraceLabel :=
  if last then [.subBytes, .shiftRows, .addRoundKey] else [.subBytes, .shiftRows, .mixColumns, .addRoundKey]

theorem oneRound_labels (last : Bool) (k s : Block) :
    (oneRound last k s).entries.map (·.label) = roundLabels last := by
  cases last <;> rfl

theorem oneRound_keys (last : Bool) (k s : Block) : (oneRound last k s).entries.filterMap (·.key) = [k] := by
  cases last <;> rfl

/-- `n` rounds with `MixColumns`, then the last one (R133). -/
theorem rounds_labels (rk : Nat → Block) (n r : Nat) (s : Block) :
    (rounds rk (n + 1) r s).entries.map (·.label)
      = (List.replicate n (roundLabels false)).flatten ++ roundLabels true := by
  induction n generalizing r s with
  | zero => simp [rounds, oneRound_labels]
  | succ n ih =>
    rw [rounds, List.map_append, oneRound_labels, ih, List.replicate_succ, List.flatten_cons, List.append_assoc]
    rfl

theorem rounds_keys (rk : Nat → Block) (todo r : Nat) (s : Block) :
    (rounds rk todo r s).entries.filterMap (·.key) = (List.range' r todo).map rk := by
  induction todo generalizing r s with
  | zero => rfl
  | succ todo ih =>
    rw [rounds, List.filterMap_append, oneRound_keys, ih, List.range'_succ]
    rfl

theorem encryptBlock_labels (rk : Nat → Block) (n : Nat) (s : Block) :
    (encryptBlock rk (n + 1) s).entries.map (·.label)
      = .addRoundKey :: ((List.replicate n (roundLabels false)).flatten ++ roundLabels true) := by
  rw [encryptBlock, List.map_cons, rounds_labels]
  rfl

/-- Every round key is used once, in ascending order (R134). -/
theorem encryptBlock_keys (rk : Nat → Block) (nr : Nat) (s : Block) :
    (encryptBlock rk nr s).entries.filterMap (·.key) = (List.range (nr + 1)).map rk := by
  rw [List.range_eq_range', List.range'_succ, List.map_cons, ← rounds_keys rk nr 1 (addRoundKey s (rk 0))]
  rfl

/-- How often a label occurs in a block encryption of `n + 1` rounds. -/
theorem encryptBlock_countP_label (rk : Nat → Block) (n : Nat) (s : Block) (l : TraceLabel) :
    (encryptBlock rk (n + 1) s).entries.countP (fun e => e.label == l)
      = (TraceLabel.addRoundKey :: roundLabels true).count l + n * (roundLabels false).count l := by
  have hcount : (encryptBlock rk (n + 1) s).entries.countP (fun e => e.label == l)
      = ((encryptBlock rk (n + 1) s).entries.map (·.label)).count l := by
    rw [List.count, List.countP_map]; rfl
  rw [hcount, encryptBlock_labels, List.count_cons, List.count_append, List.count_flatten, List.map_replicate,
    List.sum_replicate, List.count_cons, smul_eq_mul]
  omega

theorem encryptBlock_length_entries (rk : Nat → Block) (n : Nat) (s : Block) :
    (encryptBlock rk (n + 1) s).entries.length = 4 * (n + 1) := by
  rw [← List.length_map (f := (·.label)), encryptBlock_labels]
  simp [roundLabels]
  omega

/-! ### The commands of the round transform -/

/-- One operation as an encryption. -/
def Traced.ofEntry (e : TraceEntry) : Traced := ⟨e.state, [e]⟩

/-- One encryption, and another of the State it gives. -/
def Traced.followedBy (x y : Traced) : Traced := ⟨y.state, x.entries ++ y.entries⟩

/-- What a command does whose encryption of `ST` gives `x`. -/
def State.applyTraced (s : State) (x : Traced) : State := ((s.emitAll x.entries).setSt x.state).succeed

theorem State.applyTraced_eq (s : State) (x : Traced) :
    s.applyTraced x
      = { s with st := x.state, err := 0#8, trace := s.trace ++ if s.tren then x.entries else [] } := by
  simp [State.applyTraced, State.emitAll_eq, State.setSt, State.succeed]

@[simp] theorem State.applyTraced_st (s : State) (x : Traced) : (s.applyTraced x).st = x.state := rfl
@[simp] theorem State.applyTraced_nr (s : State) (x : Traced) : (s.applyTraced x).nr = s.nr := by
  simp [State.applyTraced]
@[simp] theorem State.applyTraced_roundKey (s : State) (x : Traced) : (s.applyTraced x).roundKey = s.roundKey := by
  simp [State.applyTraced]

/-- Two of these commands do what one does of both encryptions, traced or not. -/
@[simp] theorem State.applyTraced_applyTraced (s : State) (x y : Traced) :
    (s.applyTraced x).applyTraced y = s.applyTraced (x.followedBy y) := by
  have htren : (s.applyTraced x).tren = s.tren := by simp [State.applyTraced]
  rw [State.applyTraced_eq _ y, htren, State.applyTraced_eq, State.applyTraced_eq]
  cases s.tren <;> simp [Traced.followedBy]

theorem exec_subbytes (s : State) : exec .subbytes s = .next (s.applyTraced (.ofEntry (subBytesEntry s.st))) := rfl

theorem exec_shiftrows (s : State) : exec .shiftrows s = .next (s.applyTraced (.ofEntry (shiftRowsEntry s.st))) := rfl

theorem exec_mixcolumns (s : State) : exec .mixcolumns s = .next (s.applyTraced (.ofEntry (mixColumnsEntry s.st))) :=
  rfl

theorem exec_addroundkey_of_key {s : State} {k : Nat} (hnr : s.nr ≠ 0#8) (hk : k ≤ s.nr.toNat) :
    exec (.addroundkey k) s = .next (s.applyTraced (.ofEntry (addRoundKeyEntry s.st (s.roundKey k)))) :=
  if_neg (not_or.mpr ⟨hnr, Nat.not_lt.mpr hk⟩)

theorem exec_encblock_of_schedule {s : State} (hnr : s.nr ≠ 0#8) :
    exec .encblock s = .next (s.applyTraced (encryptBlock s.roundKey s.nr.toNat s.st)) := if_neg hnr

/-- What these commands write besides `ST`, and what they leave. -/
theorem State.applyTraced_frame (s : State) (x : Traced) :
    (s.applyTraced x).err = 0#8 ∧ Emitted s (s.applyTraced x) x.entries ∧ InputsKept s (s.applyTraced x)
      ∧ ScheduleKept s (s.applyTraced x) ∧ OutputKept s (s.applyTraced x) := by
  rw [State.applyTraced_eq]
  exact ⟨rfl, rfl, ⟨⟨rfl, rfl⟩, ⟨rfl, rfl⟩, ⟨fun _ => rfl, rfl⟩, rfl, rfl, rfl⟩, ⟨rfl, rfl⟩, fun _ => rfl, rfl⟩

/-! ### The command sequence by hand -/

theorem runCommands_cons {i : Instr} {is : List Instr} {s t : State} (h : exec i s = .next t) :
    runCommands (i :: is) s = runCommands is t := by
  simp only [runCommands, h]

/-- The commands of round `r` (R147). -/
def roundCommands (last : Bool) (r : Nat) : List Instr :=
  if last then [.subbytes, .shiftrows, .addroundkey r] else [.subbytes, .shiftrows, .mixcolumns, .addroundkey r]

/-- The commands of a round do the round. -/
theorem runCommands_roundCommands {s : State} {r : Nat} (hnr : s.nr ≠ 0#8) (hr : r ≤ s.nr.toNat) (last : Bool)
    (is : List Instr) :
    runCommands (roundCommands last r ++ is) s
      = runCommands is (s.applyTraced (oneRound last (s.roundKey r) s.st)) := by
  have hkey (x : Traced) :=
    exec_addroundkey_of_key (s := s.applyTraced x) (k := r) (by simpa using hnr) (by simpa using hr)
  cases last with
  | true =>
    simp only [roundCommands, if_true, List.cons_append, List.nil_append, runCommands, exec_subbytes, exec_shiftrows,
      State.applyTraced_applyTraced, hkey, State.applyTraced_roundKey]
    rfl
  | false =>
    simp only [roundCommands, Bool.false_eq_true, if_false, List.cons_append, List.nil_append, runCommands,
      exec_subbytes, exec_shiftrows, exec_mixcolumns, State.applyTraced_applyTraced, hkey, State.applyTraced_roundKey]
    rfl

/-- The commands of the rounds from `r` on, the last of them round `r + n`, do these rounds. -/
theorem runCommands_manualRounds {s : State} {n r : Nat} (hnr : s.nr ≠ 0#8) (hr : r + n ≤ s.nr.toNat) :
    runCommands (manualRounds n r ++ roundCommands true (r + n)) s
      = .next (s.applyTraced (rounds s.roundKey (n + 1) r s.st)) := by
  induction n generalizing s r with
  | zero =>
    have hlast : rounds s.roundKey 1 r s.st = oneRound true (s.roundKey r) s.st := by simp [rounds]
    rw [hlast]
    exact runCommands_roundCommands hnr hr true []
  | succ n ih =>
    have hsplit : manualRounds (n + 1) r ++ roundCommands true (r + (n + 1))
        = roundCommands false r ++ (manualRounds n (r + 1) ++ roundCommands true (r + 1 + n)) := by
      rw [show r + (n + 1) = r + 1 + n by omega, ← List.append_assoc]
      rfl
    rw [hsplit, runCommands_roundCommands hnr (by omega), ih (by simpa using hnr) (by simp; omega),
      State.applyTraced_applyTraced, State.applyTraced_roundKey]
    rfl

end Sys2Proof.Machine

section
open Sys2Proof Sys2Proof.Machine

/-- Settles O25: `ADDROUNDKEY 0`, then the rounds, each command on the State the one before leaves. -/
theorem manualRoundsEqualEncblock : Obligations.ManualRoundsEqualEncblock := by
  intro s hnr
  obtain ⟨n, hn⟩ : ∃ n, s.nr.toNat = n + 1 := Nat.exists_eq_succ_of_ne_zero fun h => hnr (BitVec.eq_of_toNat_eq h)
  have hlast : 1 + n ≤ s.nr.toNat := by omega
  have hsplit : manualEncryption s.nr.toNat = .addroundkey 0 :: (manualRounds n 1 ++ roundCommands true (1 + n)) := by
    rw [hn, Nat.add_comm 1 n]
    rfl
  rw [hsplit, runCommands_cons (exec_addroundkey_of_key hnr (Nat.zero_le _)),
    runCommands_manualRounds (by simpa using hnr) (by simpa using hlast), State.applyTraced_applyTraced,
    exec_encblock_of_schedule hnr, hn, State.applyTraced_roundKey]
  rfl

/-- Settles O26: the labels are `AddRoundKey`, then round by round those of the round; each round has one key. -/
theorem blockEncryptionOperationCounts : Obligations.BlockEncryptionOperationCounts := by
  intro rk nr x hnr
  obtain ⟨n, rfl⟩ := Nat.exists_eq_add_of_le' hnr
  refine ⟨encryptBlock_length_entries rk n x, ?_, ?_, ?_, ?_, encryptBlock_keys rk _ x⟩ <;>
    simp [encryptBlock_countP_label, roundLabels] <;> omega

/-- Settles O28: the operations are undone byte by byte, by their third power or by themselves, and an encryption is a
composition of them. -/
theorem mixColumnsIsLinearAndEncryptBlockIsBijective : Obligations.MixColumnsIsLinearAndEncryptBlockIsBijective := by
  refine ⟨mixColumns_xor, fun a c b h r => ?_, subBytes_bijective, shiftRows_bijective, mixColumns_bijective,
    addRoundKey_bijective, encryptBlock_bijective⟩
  have h0 : a[4 * c.val] = b := h 0
  have h1 : a[4 * c.val + 1] = b := h 1
  have h2 : a[4 * c.val + 2] = b := h 2
  have h3 : a[4 * c.val + 3] = b := h 3
  rw [getElem_mixColumns a c.isLt r.isLt, h0, h1, h2, h3, mixByte_same]

/-- Settles O20: the command is the operation on every lane. -/
theorem subbytesSubstitutesEveryLane : Obligations.SubbytesSubstitutesEveryLane :=
  ⟨decode_encode (i := .subbytes) rfl, fun s =>
    ⟨_, exec_subbytes s, getElem_mapLanes sbox s.st, s.applyTraced_frame _⟩⟩

/-- Settles O21: the rows are rotated, and the fourth application restores the State. -/
theorem shiftrowsRotatesTheRows : Obligations.ShiftrowsRotatesTheRows := by
  refine ⟨decode_encode (i := .shiftrows) rfl, by decide, fun s => ?_⟩
  obtain ⟨herr, htrace, hin, hsched, hout⟩ := s.applyTraced_frame (.ofEntry (shiftRowsEntry s.st))
  refine ⟨_, exec_shiftrows s, fun r c => ?_, herr, htrace, hin, hsched, hout, shiftRows_of_equal_columns, ?_⟩
  · have hbyte := getElem_shiftRows s.st (r.val + 4 * c.val) (by omega)
    simp only [shiftRowsSource_row_column r.isLt c.val] at hbyte
    exact hbyte
  · rw [runCommands_cons (exec_shiftrows _), runCommands_cons (exec_shiftrows _), runCommands_cons (exec_shiftrows _)]
    exact ⟨_, rfl, shiftRows_four_times s.st⟩

/-- Settles O22: each row of a column is the row of the matrix of R129. -/
theorem mixcolumnsMixesEveryColumn : Obligations.MixcolumnsMixesEveryColumn := by
  refine ⟨decode_encode (i := .mixcolumns) rfl, fun s => ⟨_, exec_mixcolumns s, fun c => ?_, s.applyTraced_frame _⟩⟩
  have hrow (r : Fin 4) := getElem_mixColumns s.st c.isLt r.isLt
  exact ⟨hrow 0, hrow 1, hrow 2, hrow 3⟩

/-- Settles O23: with a round key `k` the command is its own inverse; without one it raises `IllegalCommand`. -/
theorem addroundkeyXorsTheRoundKey : Obligations.AddroundkeyXorsTheRoundKey := by
  refine ⟨fun k hk => decode_encode (i := .addroundkey k) (decide_eq_true hk), fun s k hnr hk => ?_,
    fun s k h => exec_addroundkey_of_no_key h⟩
  obtain ⟨herr, htrace, hin, hsched, hout⟩ := s.applyTraced_frame (.ofEntry (addRoundKeyEntry s.st (s.roundKey k)))
  have hagain := exec_addroundkey_of_key (s := s.applyTraced (.ofEntry (addRoundKeyEntry s.st (s.roundKey k))))
    (by simpa using hnr) (by simpa using hk)
  refine ⟨_, exec_addroundkey_of_key hnr hk, fun i => ?_, herr, htrace, hin, hsched, hout, _, hagain, ?_⟩
  · exact getElem_xorBytes s.st (s.roundKey k) i i.isLt
  · rw [State.applyTraced_roundKey]
    exact xorBytes_cancel s.st (s.roundKey k)

/-- Settles O24: with a schedule the command is the block encryption; without one it raises `IllegalCommand`. -/
theorem encblockEncryptsTheState : Obligations.EncblockEncryptsTheState :=
  ⟨decode_encode (i := .encblock) rfl,
    fun s hnr => ⟨_, exec_encblock_of_schedule hnr, rfl, s.applyTraced_frame _⟩,
    fun _ h => exec_encblock_of_nr_eq_zero h⟩

end
end

section
/-! Proofs of the statements about the padding codec (44_padding_codec.md), and the lemmas they share: the message byte
by byte, what `Unpad` answers from the last byte, and what a command that produces a message does. -/

namespace Sys2Proof.Machine

/-! ### The message and the output, byte by byte -/

theorem State.message_eq_map (s : State) : s.message = (List.range s.ilen.toNat).map fun j => s.ibuf.read j := by
  simp only [State.message, Memory.readRange, Nat.zero_add]

theorem State.take_message (s : State) {n : Nat} (h : n ≤ s.ilen.toNat) :
    s.message.take n = (List.range n).map fun j => s.ibuf.read j := by
  rw [State.message_eq_map, ← List.map_take, List.take_range, Nat.min_eq_left h]

theorem State.getLast?_message {s : State} (h : s.ilen ≠ 0#32) :
    s.message.getLast? = some (s.ibuf.read (s.ilen.toNat - 1)) := by
  have hpos : s.ilen.toNat ≠ 0 := fun h0 => h (BitVec.eq_of_toNat_eq h0)
  rw [State.message_eq_map, List.getLast?_map, List.getLast?_range, if_neg hpos, Option.map_some]

theorem State.message_eq_nil {s : State} (h : s.ilen = 0#32) : s.message = [] := by
  rw [State.message_eq_map, h]; rfl

/-- A message that the 32-bit `OLEN` can count reads back as it was produced (R29). -/
theorem State.output_setOutput (s : State) {bs : List Byte} (h : bs.length < 2 ^ 32) : (s.setOutput bs).output = bs := by
  rw [State.output, State.setOutput_olen, BitVec.toNat_ofNat, Nat.mod_eq_of_lt h]
  exact Memory.readRange_writeRange s.obuf 0 bs

/-! ### `Pad` and `Unpad` -/

theorem padLength_bounds (len : Nat) : 1 ≤ padLength len ∧ padLength len ≤ 16 := by
  simp only [padLength]; omega

theorem length_padMessage_none (b : List Byte) : (padMessage .none b).length = b.length + zeroFill b.length := by
  rw [length_padMessage, if_pos rfl]

theorem length_padMessage_of_ne_none {p : Scheme} (hp : p ≠ .none) (b : List Byte) :
    (padMessage p b).length = b.length + padLength b.length := by
  rw [length_padMessage, if_neg hp]

theorem isPrefix_padMessage (p : Scheme) (b : List Byte) : b <+: padMessage p b := List.prefix_append _ _

theorem unpadMessage_nil : unpadMessage [] = none := rfl

/-- A last byte out of range is no length byte (R157). -/
theorem unpadMessage_eq_none {b : List Byte} {last : Byte} (hlast : b.getLast? = some last)
    (h : last.toNat < 1 ∨ 16 < last.toNat ∨ b.length < last.toNat) : unpadMessage b = none := by
  simp only [unpadMessage, hlast, if_pos h]

/-- A last byte in range is the number of bytes to cut (R156, R158). -/
theorem unpadMessage_eq_some {b : List Byte} {last : Byte} (hlast : b.getLast? = some last)
    (h1 : 1 ≤ last.toNat) (h16 : last.toNat ≤ 16) (hlen : last.toNat ≤ b.length) :
    unpadMessage b = some (b.take (b.length - last.toNat)) := by
  simp only [unpadMessage, hlast]
  exact if_neg (by omega)

/-- The round trip (R160): the last byte counts the bytes added. -/
theorem unpadMessage_padMessage {p : Scheme} (hp : p ≠ .none) (b : List Byte) :
    unpadMessage (padMessage p b) = some b := by
  obtain ⟨h1, h16⟩ := padLength_bounds b.length
  have hlen := length_padMessage_of_ne_none hp b
  have hlast : (BitVec.ofNat 8 (padLength b.length)).toNat = padLength b.length := by
    rw [BitVec.toNat_ofNat]; omega
  rw [unpadMessage_eq_some (getLast?_padMessage p b hp) (by omega) (by omega) (by omega), hlast, hlen,
    Nat.add_sub_cancel, padMessage, List.take_left]

/-! ### The commands -/

theorem exec_pad (p : Scheme) (s : State) : exec (.pad p) s = .next (s.setOutput (padMessage p s.message)).succeed := rfl

theorem exec_unpad_of_eq_none {p : Scheme} {s : State} (hp : p ≠ .none) (h : unpadMessage s.message = none) :
    exec (.unpad p) s = .next (s.raise .invalidPaddingLength) := by
  simp only [exec, execUnpad, if_neg hp, h]

theorem exec_unpad_of_eq_some {p : Scheme} {s : State} {b : List Byte} (hp : p ≠ .none)
    (h : unpadMessage s.message = some b) : exec (.unpad p) s = .next (s.setOutput b).succeed := by
  simp only [exec, execUnpad, if_neg hp, h]

/-- What a command that only produces a message does, and what it leaves (R161, R162). -/
theorem State.setOutput_succeed_frame (s : State) (bs : List Byte) :
    OutputIs s (s.setOutput bs).succeed bs ∧ (s.setOutput bs).succeed.err = 0#8
      ∧ (s.setOutput bs).succeed.st = s.st ∧ (s.setOutput bs).succeed.trace = s.trace
      ∧ InputsKept s (s.setOutput bs).succeed ∧ ScheduleKept s (s.setOutput bs).succeed := by
  refine ⟨⟨fun a ha => ?_, fun a ha => ?_, rfl⟩, rfl, rfl, rfl,
    ⟨⟨rfl, rfl⟩, ⟨rfl, rfl⟩, ⟨fun _ => rfl, rfl⟩, rfl, rfl, rfl⟩, rfl, rfl⟩
  · exact Memory.read_writeRange_inside s.obuf 0 a bs (Nat.zero_le a) ha
  · exact Memory.read_writeRange_outside s.obuf 0 a bs (.inr (by omega))

/-- Under the invariant the padded message is the output of `PAD` (log entry 9: `OLEN` can count it). -/
theorem output_of_exec_pad {p : Scheme} {s t : State} (hs : s.Inv) (h : exec (.pad p) s = .next t) :
    t.output = padMessage p s.message := by
  obtain ⟨hcap, -, -, -, -, hilen, -⟩ := hs
  have hobuf : Config.obufCap s.ibufCap < 2 ^ 32 := by
    simp only [Config.legalCapacity, Bool.and_eq_true, decide_eq_true_eq] at hcap
    exact hcap.2
  have hlen := length_padMessage_le p s.message
  rw [State.length_message] at hlen
  simp only [Config.obufCap] at hobuf
  cases h
  exact s.output_setOutput (by omega)

/-- `UNPAD` of a padded message completes and gives the message back (R160), which `OLEN` can count since it is no
longer than `ILEN`. -/
theorem exec_unpad_of_message_eq_padMessage {p : Scheme} {u : State} {b : List Byte} (hp : p ≠ .none)
    (h : u.message = padMessage p b) :
    ∃ v, exec (.unpad p) u = .next v ∧ v.err = 0#8 ∧ v.output = b := by
  have hb : unpadMessage u.message = some b := by rw [h, unpadMessage_padMessage hp]
  have hlen := length_le_of_unpadMessage_eq_some hb
  rw [State.length_message] at hlen
  exact ⟨_, exec_unpad_of_eq_some hp hb, rfl, u.output_setOutput (hlen.trans_lt u.ilen.isLt)⟩

end Sys2Proof.Machine

section
open Sys2Proof Sys2Proof.Machine

/-- Settles O29: the output is the message read from `IBUF` and the bytes of the scheme after it. -/
theorem padAppendsTheSchemesBytes : Obligations.PadAppendsTheSchemesBytes := by
  refine ⟨decode_encode (i := .pad .none) rfl, decode_encode (i := .pad .pkcs) rfl,
    decode_encode (i := .pad .ansi) rfl, fun p s => ?_⟩
  have hframe := s.setOutput_succeed_frame (padMessage p s.message)
  have hmessage : padMessage p s.message
      = (List.range s.ilen.toNat).map (fun j => s.ibuf.read j) ++ padBytes p s.ilen.toNat := by
    rw [padMessage, State.length_message, State.message_eq_map]
  refine ⟨_, exec_pad p s, ?_⟩
  rw [hmessage] at hframe ⊢
  cases p <;> exact hframe

/-- Settles O30, from the number of bytes each scheme appends. -/
theorem paddedLengthIsWholeBlocks : Obligations.PaddedLengthIsWholeBlocks := by
  intro p b
  have hle := length_padMessage_le p b
  by_cases hp : p = .none
  · subst hp
    have hlen := length_padMessage_none b
    simp only [zeroFill] at hlen
    exact ⟨by omega, isPrefix_padMessage _ b, hle, fun h => absurd rfl h, fun _ => ⟨hlen, by omega⟩⟩
  · have hlen := length_padMessage_of_ne_none hp b
    simp only [padLength] at hlen
    exact ⟨by omega, isPrefix_padMessage p b, hle, fun _ => ⟨hlen, by omega⟩, fun h => absurd h hp⟩

/-- Settles O31: the last byte of the message decides whether it is cut. -/
theorem unpadCutsByTheLastByte : Obligations.UnpadCutsByTheLastByte := by
  refine ⟨decode_encode (i := .unpad .pkcs) rfl, decode_encode (i := .unpad .ansi) rfl, exec_unpad_none,
    fun p s hp hilen => ?_, fun p s hp hilen => ?_⟩
  · exact exec_unpad_of_eq_none hp (by rw [State.message_eq_nil hilen, unpadMessage_nil])
  have hlast := State.getLast?_message hilen
  refine ⟨fun hn => ?_, fun h1 h16 hlen => ?_⟩
  · exact exec_unpad_of_eq_none hp (unpadMessage_eq_none hlast (by rwa [State.length_message]))
  · have hcut := unpadMessage_eq_some hlast h1 h16 (by rwa [State.length_message])
    rw [State.length_message, State.take_message s (Nat.sub_le _ _)] at hcut
    exact ⟨_, exec_unpad_of_eq_some hp hcut, s.setOutput_succeed_frame _⟩

/-- Settles O32: the message `01` is cut to nothing, which is padded to a whole block; one zero byte and two have the
same None padding. -/
theorem padThenUnpadRestoresTheMessage : Obligations.PadThenUnpadRestoresTheMessage := by
  refine ⟨fun p x hp => unpadMessage_padMessage hp x, fun p hp => ⟨[0x01#8], [], rfl, fun h => ?_⟩,
    ⟨[0x00#8], [0x00#8, 0x00#8], by decide, rfl⟩, fun p s t u hp hs hpad hu => ?_⟩
  · have hlen : (padMessage p []).length = 1 := by rw [h]; rfl
    rw [length_padMessage_of_ne_none hp] at hlen
    exact absurd hlen (by decide)
  · exact exec_unpad_of_message_eq_padMessage hp (hu.trans (output_of_exec_pad hs hpad))

end
end

section
/-! Proofs of the statements about the mode layer (45_mode_layer.md), and the lemmas they share: big-endian numbers and
the counter, the ways `ENCMSG` ends, and what it leaves block by block. -/

namespace Sys2Proof.Machine

/-! ### Big-endian numbers -/

theorem natOfBytes_concat (l : List Byte) (b : Byte) : natOfBytes (l ++ [b]) = 256 * natOfBytes l + b.toNat := by
  simp only [natOfBytes, List.foldl_append, List.foldl_cons, List.foldl_nil]

theorem natOfBytes_lt (l : List Byte) : natOfBytes l < 256 ^ l.length := by
  induction l using List.reverseRecOn with
  | nil => decide
  | append_singleton l b ih =>
    rw [natOfBytes_concat, List.length_append, List.length_singleton, pow_succ]
    omega

/-- The last byte is the remainder modulo 256, the bytes before it are those of the quotient. -/
theorem bytesOfNat_succ (n v : Nat) : bytesOfNat (n + 1) v = bytesOfNat n (v / 256) ++ [BitVec.ofNat 8 v] := by
  have hlast : v / 256 ^ (n + 1 - 1 - n) = v := by simp
  rw [bytesOfNat, List.range_succ, List.map_append, List.map_singleton, hlast, bytesOfNat]
  congr 1
  refine List.map_congr_left fun i hi => ?_
  have hexp : n + 1 - 1 - i = n - 1 - i + 1 := by have := List.mem_range.mp hi; omega
  rw [hexp, pow_succ', Nat.div_div_eq_div_mul]

/-- Bytes are the big-endian bytes of the number they are read as (R52 (e)). -/
theorem bytesOfNat_natOfBytes (l : List Byte) : bytesOfNat l.length (natOfBytes l) = l := by
  induction l using List.reverseRecOn with
  | nil => rfl
  | append_singleton l b ih =>
    have hdiv : (256 * natOfBytes l + b.toNat) / 256 = natOfBytes l := by omega
    have hlast : BitVec.ofNat 8 (256 * natOfBytes l + b.toNat) = b := by
      apply BitVec.eq_of_toNat_eq
      rw [BitVec.toNat_ofNat]
      omega
    rw [natOfBytes_concat, List.length_append, List.length_singleton, bytesOfNat_succ, hdiv, ih, hlast]

theorem bytesOfNat_natOfBytes_block (v : Block) : bytesOfNat 16 (natOfBytes v.toList) = v.toList := by
  simpa only [Vector.length_toList] using bytesOfNat_natOfBytes v.toList

/-- A block is determined by the number it is read as. -/
theorem block_eq_of_natOfBytes_eq {a b : Block} (h : natOfBytes a.toList = natOfBytes b.toList) : a = b :=
  Vector.toList_inj.mp (by rw [← bytesOfNat_natOfBytes_block a, h, bytesOfNat_natOfBytes_block])

/-! ### The counter -/

@[simp] theorem length_ctrAddLoop (vs : List Byte) (carry : Nat) : (ctrAddLoop vs carry).length = vs.length := by
  induction vs generalizing carry with
  | nil => rfl
  | cons v vs ih => simp [ctrAddLoop, ih]

/-- The loop of R172 adds the carry to the number whose bytes it goes through, the least significant first. -/
theorem natOfBytes_ctrAddLoop (vs : List Byte) (carry : Nat) :
    natOfBytes (ctrAddLoop vs carry).reverse = (natOfBytes vs.reverse + carry) % 256 ^ vs.length := by
  induction vs generalizing carry with
  | nil => simp [ctrAddLoop, natOfBytes, Nat.mod_one]
  | cons v vs ih =>
    have hlow : (256 * natOfBytes vs.reverse + v.toNat + carry) % 256 = (v.toNat + carry % 256) % 256 := by omega
    have hhigh : (256 * natOfBytes vs.reverse + v.toNat + carry) / 256
        = natOfBytes vs.reverse + (carry / 256 + (v.toNat + carry % 256) / 256) := by omega
    rw [ctrAddLoop, List.reverse_cons, List.reverse_cons, natOfBytes_concat, natOfBytes_concat, ih, List.length_cons,
      pow_succ', Nat.mod_mul, hlow, hhigh, BitVec.toNat_ofNat, Nat.add_comm]

theorem natOfBytes_ctrAdd (v : Block) (i : Nat) :
    natOfBytes (ctrAdd v i).toList = (natOfBytes v.toList + i) % 2 ^ 128 := by
  have hloop := natOfBytes_ctrAddLoop v.toList.reverse i
  rw [List.reverse_reverse, List.length_reverse, Vector.length_toList] at hloop
  rw [ctrAdd, toList_blockOfList _ (by simp), hloop]
  norm_num

/-- A block read as a number is below the modulus of the counter. -/
theorem natOfBytes_block_mod (v : Block) : natOfBytes v.toList % 2 ^ 128 = natOfBytes v.toList := by
  have h := natOfBytes_lt v.toList
  rw [Vector.length_toList] at h
  exact Nat.mod_eq_of_lt h

theorem ctrAdd_zero (v : Block) : ctrAdd v 0 = v :=
  block_eq_of_natOfBytes_eq (by rw [natOfBytes_ctrAdd, Nat.add_zero, natOfBytes_block_mod])

theorem ctrAdd_succ (v : Block) (i : Nat) : ctrAdd v (i + 1) = ctrAdd (ctrAdd v i) 1 :=
  block_eq_of_natOfBytes_eq (by
    rw [natOfBytes_ctrAdd, natOfBytes_ctrAdd, natOfBytes_ctrAdd, Nat.mod_add_mod, Nat.add_assoc])

/-! ### How `ENCMSG` ends -/

/-- The IV is checked first (R179). -/
theorem exec_encmsg_of_missing_iv {m : Mode} {p : Scheme} {s : State} (hm : m ≠ .ecb) (hiv : s.ivv = false) :
    exec (.encmsg m p) s = .next (s.raise .missingRequiredIv) := if_pos ⟨hm, hiv⟩

theorem exec_encmsg_of_illegal_key {m : Mode} {p : Scheme} {s : State} (hiv : m = .ecb ∨ s.ivv = true)
    (hl : s.keyLengthLegal = false) : exec (.encmsg m p) s = .next (s.raise .invalidKeyLength) := by
  have hcheck : ¬ (m ≠ .ecb ∧ s.ivv = false) := by rcases hiv with rfl | hiv <;> simp [*]
  simp only [exec, execEncmsg, if_neg hcheck, hl, Bool.false_eq_true, if_false]

/-- Without its preconditions `ENCMSG` raises an error (R184). -/
theorem exec_encmsg_of_not_canEncrypt {m : Mode} {p : Scheme} {s : State} (h : ¬ CanEncrypt m s) :
    ∃ e, errorCode e ≠ 0#8 ∧ exec (.encmsg m p) s = .next (s.raise e) := by
  by_cases hiv : m = .ecb ∨ s.ivv = true
  · have hl : s.keyLengthLegal = false := Bool.eq_false_iff.mpr fun hl => h ⟨hiv, hl⟩
    exact ⟨_, by decide, exec_encmsg_of_illegal_key hiv hl⟩
  · rw [not_or, Bool.not_eq_true] at hiv
    exact ⟨_, by decide, exec_encmsg_of_missing_iv hiv.1 hiv.2⟩

/-- With them it ends in one state. -/
theorem eq_of_exec_encmsg {m : Mode} {p : Scheme} {s t : State} (hcan : CanEncrypt m s)
    (ht : exec (.encmsg m p) s = .next t) :
    t = s.runKeySchedule.finishMessage (s.runKeySchedule.encryptMessage m p) := by
  rw [exec_encmsg m p s hcan] at ht
  exact (Host.Outcome.next.inj ht).symm

/-! ### The blocks of a message -/

/-- What CBC chains into block `i` (R176): the IV of the start, then the cipher block before. -/
def chainBlock (s t : State) (i : Nat) : Block := if i = 0 then s.iv else outBlock t (i - 1)

/-- The turn of R178 for block `i` of the message that takes `s` to `t`, under the schedule it leaves. -/
def messageBlock (m : Mode) (p : Scheme) (s t : State) (i : Nat) : BlockResult :=
  encryptOne m t.encrypt s.iv (chainBlock s t i) i (plainBlock p s i)

/-- The blocks of the padded message, by the name the statements give them. -/
theorem blocksOf_padMessage (p : Scheme) (s : State) :
    blocksOf (padMessage p s.message) = (List.range (blockNumber p s)).map (plainBlock p s) := rfl

/-- The padded message is whole blocks (R153). -/
theorem length_padMessage_eq_blockNumber (p : Scheme) (s : State) :
    (padMessage p s.message).length = 16 * blockNumber p s := by
  obtain ⟨hwhole, -⟩ := paddedLengthIsWholeBlocks p s.message
  simp only [blockNumber]
  omega

theorem blockNumber_le (p : Scheme) (s : State) : 16 * blockNumber p s ≤ s.ilen.toNat + 16 := by
  rw [← length_padMessage_eq_blockNumber, ← State.length_message]
  exact length_padMessage_le p s.message

section
variable {m : Mode} {p : Scheme} {s t : State}

/-- The results of a message are those of its blocks in ascending order. -/
theorem encryptMessage_eq_map (hcan : CanEncrypt m s) (ht : exec (.encmsg m p) s = .next t) :
    s.runKeySchedule.encryptMessage m p = (List.range (blockNumber p s)).map (messageBlock m p s t) := by
  obtain ⟨-, hlen, hblock⟩ := encryptMessage_blocks m p s t (eq_of_exec_encmsg hcan ht)
  refine List.ext_getElem (by simpa using hlen) fun i hi _ => ?_
  rw [(hblock i hi).2, List.getElem_map, List.getElem_range]
  rfl

/-- What `ENCMSG` leaves, in the terms of the blocks: the schedule and the output, `ST`, and the trace (R184). -/
theorem eq_of_exec_encmsg_blocks (hcan : CanEncrypt m s) (ht : exec (.encmsg m p) s = .next t) :
    t = s.runKeySchedule.finishMessage ((List.range (blockNumber p s)).map (messageBlock m p s t)) := by
  rw [← encryptMessage_eq_map hcan ht]
  exact eq_of_exec_encmsg hcan ht

theorem encrypt_of_exec_encmsg (hcan : CanEncrypt m s) (ht : exec (.encmsg m p) s = .next t) :
    t.encrypt = s.runKeySchedule.encrypt :=
  (encryptMessage_blocks m p s t (eq_of_exec_encmsg hcan ht)).1

theorem outBlock_of_exec_encmsg (hcan : CanEncrypt m s) (ht : exec (.encmsg m p) s = .next t) {i : Nat}
    (hi : i < blockNumber p s) : outBlock t i = (messageBlock m p s t i).cipher := by
  obtain ⟨-, hlen, hblock⟩ := encryptMessage_blocks m p s t (eq_of_exec_encmsg hcan ht)
  obtain ⟨hout, hresult⟩ := hblock i (by omega)
  rw [hout, hresult]
  rfl

/-- `ST` is the State that the last block encryption gave (R190). -/
theorem st_of_exec_encmsg (hcan : CanEncrypt m s) (ht : exec (.encmsg m p) s = .next t) :
    t.st = if blockNumber p s = 0 then s.st else (messageBlock m p s t (blockNumber p s - 1)).state := by
  have hst := congrArg State.st (eq_of_exec_encmsg_blocks hcan ht)
  rw [State.finishMessage_eq, lastState_eq] at hst
  simpa [State.runKeySchedule] using hst

theorem trace_of_exec_encmsg (hcan : CanEncrypt m s) (ht : exec (.encmsg m p) s = .next t) :
    Emitted s t ((List.range (blockNumber p s)).flatMap fun i => (messageBlock m p s t i).entries) := by
  have htrace := congrArg State.trace (eq_of_exec_encmsg_blocks hcan ht)
  rw [State.finishMessage_eq, List.flatMap_map] at htrace
  exact htrace

/-- What `ENCMSG` writes whatever the mode: success, the key's schedule, and whole blocks from `OBUF[0]` up (R184,
R187, R188). -/
theorem frame_of_exec_encmsg (hcan : CanEncrypt m s) (ht : exec (.encmsg m p) s = .next t) :
    t.err = 0#8 ∧ t.w = s.runKeySchedule.w ∧ t.nr = s.runKeySchedule.nr
      ∧ t.olen = BitVec.ofNat 32 (16 * blockNumber p s)
      ∧ ∀ a, 16 * blockNumber p s ≤ a → t.obuf.read a = s.obuf.read a := by
  have hlen : (s.runKeySchedule.encryptMessage m p).length = blockNumber p s := State.length_encryptMessage _ m p
  rw [eq_of_exec_encmsg hcan ht, State.finishMessage_eq, hlen]
  refine ⟨rfl, rfl, rfl, rfl, fun a ha => Memory.read_writeRange_outside _ _ _ _ (.inr ?_)⟩
  rw [length_ciphertextOf, hlen]
  omega

/-- Where a block's cipher block is what its encryption gave, so is the last one (R190). -/
theorem st_eq_outBlock_of_exec_encmsg (hcan : CanEncrypt m s) (ht : exec (.encmsg m p) s = .next t)
    (hstate : ∀ i, (messageBlock m p s t i).state = (messageBlock m p s t i).cipher) :
    t.st = if blockNumber p s = 0 then s.st else outBlock t (blockNumber p s - 1) := by
  rw [st_of_exec_encmsg hcan ht]
  split_ifs with hn
  · rfl
  · rw [hstate, outBlock_of_exec_encmsg hcan ht (by omega)]

/-- A message that the 32-bit `OLEN` can count reads back as its cipher blocks. -/
theorem output_of_exec_encmsg (hcan : CanEncrypt m s) (ht : exec (.encmsg m p) s = .next t)
    (hlen : 16 * blockNumber p s < 2 ^ 32) :
    t.output = bytesOfBlocks ((List.range (blockNumber p s)).map (outBlock t)) := by
  have hout := congrArg State.output (eq_of_exec_encmsg_blocks hcan ht)
  rw [State.finishMessage, State.succeed_output, State.setSt_output,
    State.output_setOutput _ (by simpa using hlen), ciphertextOf, List.map_map] at hout
  rw [hout]
  refine congrArg bytesOfBlocks (List.map_congr_left fun i hi => ?_)
  exact (outBlock_of_exec_encmsg hcan ht (List.mem_range.mp hi)).symm

end

/-! ### What a message reads -/

theorem blockNumber_none_of_empty {s : State} (h : s.ilen = 0#32) : blockNumber .none s = 0 := by
  rw [blockNumber, State.message_eq_nil h]
  rfl

theorem blockNumber_of_empty_of_ne_none {p : Scheme} {s : State} (hp : p ≠ .none) (h : s.ilen = 0#32) :
    blockNumber p s = 1 := by
  rw [blockNumber, State.message_eq_nil h, length_padMessage_of_ne_none hp]
  rfl

theorem State.finishMessage_setSchedule (s : State) (w : Bytes 240) (n : Byte) (rs : List BlockResult) :
    (s.setSchedule w n).finishMessage rs = (s.finishMessage rs).setSchedule w n := by
  simp only [State.finishMessage_eq]; rfl

/-- Changing the schedule that was there before `ENCMSG` changes only what `W` holds above the new one (R188). -/
theorem exec_encmsg_setSchedule {m : Mode} {p : Scheme} {s t : State} (w : Bytes 240) (n : Byte)
    (hcan : CanEncrypt m s) (ht : exec (.encmsg m p) s = .next t) :
    exec (.encmsg m p) (s.setSchedule w n) = .next (t.setSchedule (s.setSchedule w n).runKeySchedule.w t.nr) := by
  have hE := State.encrypt_runKeySchedule_congr s (s.setSchedule w n) hcan.2 rfl rfl
  have hrs : (s.setSchedule w n).runKeySchedule.encryptMessage m p = s.runKeySchedule.encryptMessage m p :=
    congrArg (fun E => encryptBlocks m E s.iv s.iv 0 (blocksOf (padMessage p s.message))) hE
  obtain ⟨-, -, hnr, -⟩ := frame_of_exec_encmsg hcan ht
  rw [exec_encmsg m p (s.setSchedule w n) hcan, hrs, hnr, eq_of_exec_encmsg hcan ht]
  exact congrArg _ (State.finishMessage_setSchedule s.runKeySchedule _ _ _)

/-- An ECB block reads neither the IV nor the chaining value nor the index (R175). -/
theorem encryptBlocks_ecb (E : Block → Traced) (iv iv' chain chain' : Block) (i i' : Nat) (ps : List Block) :
    encryptBlocks .ecb E iv chain i ps = encryptBlocks .ecb E iv' chain' i' ps := by
  induction ps generalizing chain chain' i i' with
  | nil => rfl
  | cons p ps ih => exact congrArg _ (ih _ _ _ _)

/-- The state with another `IV` and `CTRL`. -/
def State.withIv (s : State) (iv : Block) (c : Byte) : State := { s with iv := iv, ctrl := c }

theorem State.finishMessage_withIv {s : State} {c : Byte} (hc : c.getLsbD 1 = s.ctrl.getLsbD 1) (iv : Block)
    (rs : List BlockResult) : (s.withIv iv c).finishMessage rs = (s.finishMessage rs).withIv iv c := by
  have htren : (s.withIv iv c).tren = s.tren := hc
  rw [State.finishMessage_eq, State.finishMessage_eq, htren]
  rfl

/-- ECB commutes with a change of `IV` and `IVV` (R186). -/
theorem exec_encmsg_ecb_withIv {p : Scheme} {s t : State} {c : Byte} (hc : c.getLsbD 1 = s.ctrl.getLsbD 1) (iv : Block)
    (ht : exec (.encmsg .ecb p) s = .next t) : exec (.encmsg .ecb p) (s.withIv iv c) = .next (t.withIv iv c) := by
  cases hl : s.keyLengthLegal with
  | true =>
    have hrs : (s.withIv iv c).runKeySchedule.encryptMessage .ecb p = s.runKeySchedule.encryptMessage .ecb p :=
      encryptBlocks_ecb _ _ _ _ _ _ _ _
    rw [exec_encmsg .ecb p (s.withIv iv c) ⟨.inl rfl, hl⟩, hrs, eq_of_exec_encmsg ⟨.inl rfl, hl⟩ ht]
    exact congrArg _ (State.finishMessage_withIv (s := s.runKeySchedule) hc iv _)
  | false =>
    rw [exec_encmsg_of_illegal_key (.inl rfl) hl] at ht
    cases ht
    exact exec_encmsg_of_illegal_key (s := s.withIv iv c) (.inl rfl) hl

/-- Two messages under one key use one encryption, whatever else differs. -/
theorem encrypt_eq_of_exec_encmsg {m m' : Mode} {p p' : Scheme} {s s' t t' : State} (hkey : s'.key = s.key)
    (hklen : s'.klen = s.klen) (hcan : CanEncrypt m s) (ht : exec (.encmsg m p) s = .next t) (hcan' : CanEncrypt m' s')
    (ht' : exec (.encmsg m' p') s' = .next t') : t'.encrypt = t.encrypt := by
  rw [encrypt_of_exec_encmsg hcan ht, encrypt_of_exec_encmsg hcan' ht']
  exact State.encrypt_runKeySchedule_congr s s' hcan.2 (by simp only [State.keyInUse, hkey, hklen]) hklen

theorem keyLengthLegal_of_klen_eq {s s' : State} (h : s'.klen = s.klen) (hl : s.keyLengthLegal = true) :
    s'.keyLengthLegal = true := by
  simpa only [State.keyLengthLegal, h] using hl

/-! ### CTR twice -/

/-- Whole blocks get no byte from scheme None (R155). -/
theorem padMessage_none_of_whole {b : List Byte} (h : b.length % 16 = 0) : padMessage .none b = b := by
  simp [padMessage, padBytes, zeroFill, h]

/-- Under the invariant `OLEN` can count the message (log entry 9). -/
theorem State.Inv.blockNumber_lt {s : State} (hs : s.Inv) (p : Scheme) : 16 * blockNumber p s < 2 ^ 32 := by
  obtain ⟨hcap, -, -, -, -, hilen, -⟩ := hs
  have hle := blockNumber_le p s
  simp only [Config.legalCapacity, Bool.and_eq_true, decide_eq_true_eq] at hcap
  obtain ⟨-, hobuf⟩ := hcap
  simp only [Config.obufCap] at hobuf
  omega

/-- A message that is the output blocks of another: its blocks under scheme None are these. -/
theorem plainBlock_none_of_message {u : State} {bs : List Block} (hu : u.message = bytesOfBlocks bs) :
    blockNumber .none u = bs.length ∧ ∀ i (hi : i < bs.length), plainBlock .none u i = bs[i] := by
  have hpad : padMessage .none u.message = bytesOfBlocks bs := by
    rw [hu]
    exact padMessage_none_of_whole (by simp)
  refine ⟨?_, fun i hi => ?_⟩
  · rw [blockNumber, hpad, length_bytesOfBlocks, Nat.mul_div_cancel_left _ (by decide)]
  · rw [plainBlock, hpad, blockAt_bytesOfBlocks bs i hi]

/-- CTR over its own output gives the padded message (R183): the same keystream is added twice. -/
theorem output_of_exec_encmsg_ctr_twice {p : Scheme} {s t u v : State} (hcan : CanEncrypt .ctr s)
    (ht : exec (.encmsg .ctr p) s = .next t) (hlen : 16 * blockNumber p s < 2 ^ 32) (hkey : u.key = s.key)
    (hklen : u.klen = s.klen) (hiv : u.iv = s.iv) (hu : u.message = t.output) (hcanu : CanEncrypt .ctr u)
    (hv : exec (.encmsg .ctr .none) u = .next v) : v.output = padMessage p s.message := by
  have hE := encrypt_eq_of_exec_encmsg hkey hklen hcan ht hcanu hv
  rw [output_of_exec_encmsg hcan ht hlen] at hu
  obtain ⟨hn, hplain⟩ := plainBlock_none_of_message hu
  rw [List.length_map, List.length_range] at hn
  have hblock (i : Nat) (hi : i < blockNumber p s) : outBlock v i = plainBlock p s i := by
    have hin : plainBlock .none u i = outBlock t i := by rw [hplain i (by simpa using hi)]; simp
    rw [outBlock_of_exec_encmsg hcanu hv (by omega)]
    simp only [messageBlock, encryptOne, hin, outBlock_of_exec_encmsg hcan ht hi, hE, hiv, xorBytes_cancel]
  rw [output_of_exec_encmsg hcanu hv (by omega), hn,
    List.map_congr_left fun i hi => hblock i (List.mem_range.mp hi), ← blocksOf_padMessage]
  refine bytesOfBlocks_blocksOf _ ?_
  rw [length_padMessage_eq_blockNumber, Nat.mul_mod_right]

/-! ### The chain of CBC -/

theorem xorBytes_left_inj {a b k : Block} : xorBytes a k = xorBytes b k ↔ a = b :=
  (addRoundKey_bijective k).injective.eq_iff

theorem xorBytes_right_inj {a b k : Block} : xorBytes k a = xorBytes k b ↔ a = b := by
  rw [xorBytes_comm k a, xorBytes_comm k b, xorBytes_left_inj]

section
variable {p : Scheme} {s s' t t' : State}

/-- Under one key two CBC blocks are equal exactly if what is encrypted is, since encryption is a bijection (R135). -/
theorem cbc_outBlock_eq_iff (hkey : s'.key = s.key) (hklen : s'.klen = s.klen) (hcan : CanEncrypt .cbc s)
    (ht : exec (.encmsg .cbc p) s = .next t) (hcan' : CanEncrypt .cbc s') (ht' : exec (.encmsg .cbc p) s' = .next t')
    {j : Nat} (hj : j < blockNumber p s) (hj' : j < blockNumber p s') :
    outBlock t' j = outBlock t j
      ↔ xorBytes (plainBlock p s' j) (chainBlock s' t' j) = xorBytes (plainBlock p s j) (chainBlock s t j) := by
  rw [outBlock_of_exec_encmsg hcan ht hj, outBlock_of_exec_encmsg hcan' ht' hj']
  simp only [messageBlock, encryptOne, encrypt_eq_of_exec_encmsg hkey hklen hcan ht hcan' ht']
  exact (encryptBlock_bijective _ _).injective.eq_iff

theorem chainBlock_zero (hiv : s'.iv = s.iv) : chainBlock s' t' 0 = chainBlock s t 0 := hiv

theorem chainBlock_succ (s t : State) (j : Nat) : chainBlock s t (j + 1) = outBlock t j := rfl

end

end Sys2Proof.Machine

section
open Sys2Proof Sys2Proof.Machine

/-- Settles O33: the loop is addition of the numbers the blocks are read as, and these determine the blocks. -/
theorem ctrAddIsAdditionModuloTwoToThe128 : Obligations.CtrAddIsAdditionModuloTwoToThe128 := by
  intro v i
  have hsum := natOfBytes_ctrAdd v i
  refine ⟨?_, hsum, ctrAdd_zero v, ctrAdd_succ v i⟩
  rw [← hsum, bytesOfNat_natOfBytes_block]

/-- Settles O34: the two checks in their order. -/
theorem encmsgErrorsInOrder : Obligations.EncmsgErrorsInOrder :=
  ⟨fun _ _ _ hm hiv => exec_encmsg_of_missing_iv hm hiv,
    fun _ s hl => exec_encmsg_of_illegal_key (.inl rfl) (s.keyLengthLegal_eq_false_iff.mpr hl),
    fun _ _ s hiv hl => exec_encmsg_of_illegal_key (.inr hiv) (s.keyLengthLegal_eq_false_iff.mpr hl)⟩

/-- Settles O35: the output is the cipher blocks, and no command writes its inputs. -/
theorem encmsgCompletes : Obligations.EncmsgCompletes := by
  refine ⟨fun m p => decode_encode (i := .encmsg m p) rfl, fun m p s hcan => ?_⟩
  have ht := exec_encmsg m p s hcan
  obtain ⟨herr, -, -, holen, habove⟩ := frame_of_exec_encmsg hcan ht
  exact ⟨_, ht, herr, holen, blockNumber_le p s, habove, noCommandModifiesItsInputs _ s _ ht⟩

/-- Settles O36: a turn of the loop in ECB. -/
theorem ecbEncryptsEveryBlock : Obligations.EcbEncryptsEveryBlock := fun p s hcan =>
  have ht := exec_encmsg .ecb p s hcan
  ⟨_, ht, fun _ hi => outBlock_of_exec_encmsg hcan ht hi, st_eq_outBlock_of_exec_encmsg hcan ht fun _ => rfl⟩

/-- Settles O37: a turn of the loop in CBC. -/
theorem cbcChainsEveryBlock : Obligations.CbcChainsEveryBlock := fun p s hcan =>
  have ht := exec_encmsg .cbc p s hcan
  ⟨_, ht, fun _ hi => outBlock_of_exec_encmsg hcan ht hi, st_eq_outBlock_of_exec_encmsg hcan ht fun _ => rfl⟩

/-- Settles O38: a turn of the loop in CTR. -/
theorem ctrXorsTheKeystream : Obligations.CtrXorsTheKeystream := fun p s hcan =>
  have ht := exec_encmsg .ctr p s hcan
  ⟨_, ht, fun _ hi => outBlock_of_exec_encmsg hcan ht hi, st_of_exec_encmsg hcan ht⟩

/-- Settles O39: `ENCMSG` runs the key schedule first, and encrypts under nothing but what this writes. -/
theorem encmsgLeavesTheExpandkeySchedule : Obligations.EncmsgLeavesTheExpandkeySchedule := by
  refine ⟨fun m p s t u hcan ht hu => ?_, fun m p s t w n hcan ht => ⟨_, exec_encmsg_setSchedule w n hcan ht⟩⟩
  rw [exec_expandkey_of_legal hcan.2] at hu
  cases hu
  obtain ⟨-, hw, hnr, -⟩ := frame_of_exec_encmsg hcan ht
  exact ⟨hw, hnr⟩

/-- Settles O40: the padded message is one block, or none. -/
theorem encmsgOfTheEmptyMessage : Obligations.EncmsgOfTheEmptyMessage := by
  refine ⟨fun m p s hcan hilen => ?_, fun m p s hcan _ => ?_⟩
  · have ht := exec_encmsg m p s hcan
    obtain ⟨herr, hw, hnr, holen, habove⟩ := frame_of_exec_encmsg hcan ht
    have hst := st_of_exec_encmsg hcan ht
    have htrace := trace_of_exec_encmsg hcan ht
    have hnrNat := s.runKeySchedule_nr_toNat
    rw [← hnr] at hnrNat
    refine ⟨_, ht, herr, fun hp => ?_, ?_, hnrNat, _, exec_expandkey_of_legal hcan.2, hw⟩
    · rw [holen, blockNumber_of_empty_of_ne_none hp hilen]
    · rintro rfl
      rw [blockNumber_none_of_empty hilen] at holen hst htrace habove
      exact ⟨holen, hst, by simpa [Emitted] using htrace, fun a => habove a (Nat.zero_le a)⟩
  · obtain ⟨e, he, ht⟩ := exec_encmsg_of_not_canEncrypt hcan
    exact ⟨errorCode e, he, ht⟩

/-- Settles O41: ECB has no IV check, and its blocks do not read the IV. -/
theorem ecbIgnoresTheIv : Obligations.EcbIgnoresTheIv :=
  fun _ _ _ iv _ hc ht => exec_encmsg_ecb_withIv hc iv ht

/-- Settles O42: the keystream of the second message cancels that of the first, and `UNPAD` undoes the padding. -/
theorem ctrDecryptsByReencryption : Obligations.CtrDecryptsByReencryption := by
  intro p s t u hs hcan ht hkey hklen hiv hivv hu
  have hcanu : CanEncrypt .ctr u := ⟨.inr hivv, keyLengthLegal_of_klen_eq hklen hcan.2⟩
  have hv := exec_encmsg .ctr .none u hcanu
  have hout := output_of_exec_encmsg_ctr_twice hcan ht (hs.blockNumber_lt p) hkey hklen hiv hu hcanu hv
  obtain ⟨herr, -⟩ := frame_of_exec_encmsg hcanu hv
  exact ⟨_, hv, herr, hout, fun x hp hx => exec_unpad_of_message_eq_padMessage hp (hx.trans hout)⟩

/-- Settles O43: blocks with equal chaining values are equal exactly if their plain blocks are, and blocks with equal
plain blocks exactly if their chaining values are. -/
theorem cbcChangePropagatesForward : Obligations.CbcChangePropagatesForward := by
  intro p s s' t t' i hcan hkey hklen hiv hivv hn hi hplain ht ht'
  have hcan' : CanEncrypt .cbc s' := ⟨.inr hivv, keyLengthLegal_of_klen_eq hklen hcan.2⟩
  have hblock (j : Nat) (hj : j < blockNumber p s) :=
    cbc_outBlock_eq_iff hkey hklen hcan ht hcan' ht' hj (hn ▸ hj)
  have hbefore (j : Nat) (hj : j ≤ i) : chainBlock s' t' j = chainBlock s t j := by
    induction j with
    | zero => exact chainBlock_zero hiv
    | succ j ih =>
      rw [chainBlock_succ, chainBlock_succ, hblock j (by omega), (hplain j (by omega)).mpr (by omega), ih (by omega)]
  refine ⟨fun j hj => hbefore (j + 1) hj, fun j hij hj => ?_⟩
  induction j, hij using Nat.le_induction with
  | base =>
    rw [Ne, hblock i hi, hbefore i le_rfl, xorBytes_left_inj, hplain i hi]
    exact not_not.mpr rfl
  | succ j hij ih =>
    rw [Ne, hblock (j + 1) hj, (hplain (j + 1) hj).mpr (by omega), xorBytes_right_inj, chainBlock_succ, chainBlock_succ]
    exact ih (by omega)

/-- Settles O46: the entries of the blocks, each of one turn of the loop. -/
theorem messageTraceInOrder : Obligations.MessageTraceInOrder := by
  intro m p s t hcan ht
  refine (trace_of_exec_encmsg hcan ht).trans ?_
  congr 2
  refine List.flatMap_congr fun i hi => ?_
  cases m with
  | ecb | cbc => rfl
  | ctr => rw [outBlock_of_exec_encmsg hcan ht (List.mem_range.mp hi)]; rfl

end

end

section
/-! Proofs of the statements about the trace recorder (46_trace_recorder.md), and the lemmas they share: the entries of
a block encryption as operations run one after another, a command under another `CTRL`, and what each command emits. -/

namespace Sys2Proof.Machine

/-! ### Entries as operations run one after another -/

/-- The entry is that of one of the four operations on the value it consumed (R197, R200). -/
def TraceEntry.OfOperation (e : TraceEntry) : Prop :=
  (e.label = .addRoundKey ∧ ∃ k, e.key = some k ∧ e.state = addRoundKey e.prev k)
  ∨ (e.label = .subBytes ∧ e.key = none ∧ e.state = subBytes e.prev)
  ∨ (e.label = .shiftRows ∧ e.key = none ∧ e.state = shiftRows e.prev)
  ∨ (e.label = .mixColumns ∧ e.key = none ∧ e.state = mixColumns e.prev)

theorem addRoundKeyEntry_ofOperation (s k : Block) : (addRoundKeyEntry s k).OfOperation := .inl ⟨rfl, k, rfl, rfl⟩

theorem subBytesEntry_ofOperation (s : Block) : (subBytesEntry s).OfOperation := .inr (.inl ⟨rfl, rfl, rfl⟩)

theorem shiftRowsEntry_ofOperation (s : Block) : (shiftRowsEntry s).OfOperation := .inr (.inr (.inl ⟨rfl, rfl, rfl⟩))

theorem mixColumnsEntry_ofOperation (s : Block) : (mixColumnsEntry s).OfOperation :=
  .inr (.inr (.inr ⟨rfl, rfl, rfl⟩))

/-- The entries are those of operations that take block `x` to block `y`, each run on what the one before it gave
(R201, R204). -/
def IsRun : (x : Block) → List TraceEntry → (y : Block) → Prop
  | x, [], y => x = y
  | x, e :: es, y => e.prev = x ∧ e.OfOperation ∧ IsRun e.state es y

theorem IsRun.append {es fs : List TraceEntry} {x y z : Block} (he : IsRun x es y) (hf : IsRun y fs z) :
    IsRun x (es ++ fs) z := by
  induction es generalizing x with
  | nil => cases he; exact hf
  | cons e es ih =>
    obtain ⟨hprev, hop, htail⟩ := he
    exact ⟨hprev, hop, ih htail⟩

theorem IsRun.prev_of_head? {es : List TraceEntry} {x y : Block} (h : IsRun x es y) {e : TraceEntry}
    (he : es.head? = some e) : e.prev = x := by
  cases es with
  | nil => cases he
  | cons _ _ =>
    obtain ⟨hprev, -⟩ := h
    cases he
    exact hprev

theorem IsRun.state_of_getLast? {es : List TraceEntry} {x y : Block} (h : IsRun x es y) {e : TraceEntry}
    (he : es.getLast? = some e) : e.state = y := by
  induction es generalizing x with
  | nil => cases he
  | cons a es ih =>
    obtain ⟨-, -, htail⟩ := h
    cases es with
    | nil => cases he; exact htail
    | cons b es => exact ih htail (by rwa [List.getLast?_cons_cons] at he)

theorem IsRun.prev_of_getElem? {es : List TraceEntry} {x y : Block} (h : IsRun x es y) {i : Nat} {a b : TraceEntry}
    (ha : es[i]? = some a) (hb : es[i + 1]? = some b) : b.prev = a.state := by
  induction es generalizing x i with
  | nil => cases ha
  | cons e es ih =>
    obtain ⟨-, -, htail⟩ := h
    cases i with
    | zero =>
      cases ha
      exact htail.prev_of_head? (by simpa [List.head?_eq_getElem?] using hb)
    | succ i => exact ih htail (by simpa using ha) (by simpa using hb)

theorem IsRun.ofOperation {es : List TraceEntry} {x y : Block} (h : IsRun x es y) : ∀ e ∈ es, e.OfOperation := by
  induction es generalizing x with
  | nil => nofun
  | cons e es ih =>
    obtain ⟨-, hop, htail⟩ := h
    exact List.forall_mem_cons.mpr ⟨hop, ih htail⟩

theorem oneRound_isRun (last : Bool) (k s : Block) : IsRun s (oneRound last k s).entries (oneRound last k s).state := by
  have hsub := subBytesEntry_ofOperation s
  have hshift := shiftRowsEntry_ofOperation (subBytes s)
  cases last with
  | true => exact ⟨rfl, hsub, rfl, hshift, rfl, addRoundKeyEntry_ofOperation _ k, rfl⟩
  | false =>
    exact ⟨rfl, hsub, rfl, hshift, rfl, mixColumnsEntry_ofOperation _, rfl, addRoundKeyEntry_ofOperation _ k, rfl⟩

theorem rounds_isRun (rk : Nat → Block) (todo r : Nat) (s : Block) :
    IsRun s (rounds rk todo r s).entries (rounds rk todo r s).state := by
  induction todo generalizing r s with
  | zero => rfl
  | succ todo ih => exact (oneRound_isRun _ _ s).append (ih (r + 1) _)

theorem encryptBlock_isRun (rk : Nat → Block) (nr : Nat) (s : Block) :
    IsRun s (encryptBlock rk nr s).entries (encryptBlock rk nr s).state :=
  ⟨rfl, addRoundKeyEntry_ofOperation s (rk 0), rounds_isRun rk nr 1 _⟩

/-! ### A command under another `CTRL` -/

/-- The state with another `CTRL` and `TRACE`. -/
def State.withPort (s : State) (c : Byte) (tr : List TraceEntry) : State := { s with ctrl := c, trace := tr }

theorem State.applyTraced_withPort (s : State) (c : Byte) (tr : List TraceEntry) (x : Traced) :
    (s.withPort c tr).applyTraced x = (s.applyTraced x).withPort c ((s.withPort c tr).applyTraced x).trace := by
  simp only [State.applyTraced_eq]
  rfl

theorem State.finishMessage_withPort (s : State) (c : Byte) (tr : List TraceEntry) (rs : List BlockResult) :
    (s.withPort c tr).finishMessage rs = (s.finishMessage rs).withPort c ((s.withPort c tr).finishMessage rs).trace := by
  simp only [State.finishMessage_eq]
  rfl

section
variable {s t : State} {c : Byte} {tr : List TraceEntry}

theorem exec_encmsg_withPort {m : Mode} {p : Scheme} (hc : c.getLsbD 0 = s.ctrl.getLsbD 0)
    (h : exec (.encmsg m p) s = .next t) :
    ∃ tr', exec (.encmsg m p) (s.withPort c tr) = .next (t.withPort c tr') := by
  have hivv : (s.withPort c tr).ivv = s.ivv := hc
  by_cases hiv : m = .ecb ∨ s.ivv = true
  · have hiv' : m = .ecb ∨ (s.withPort c tr).ivv = true := by rwa [hivv]
    cases hl : s.keyLengthLegal with
    | true =>
      cases eq_of_exec_encmsg ⟨hiv, hl⟩ h
      rw [exec_encmsg m p (s.withPort c tr) ⟨hiv', hl⟩]
      exact ⟨_, congrArg _ (s.runKeySchedule.finishMessage_withPort c tr _)⟩
    | false =>
      cases (exec_encmsg_of_illegal_key hiv hl).symm.trans h
      exact ⟨tr, exec_encmsg_of_illegal_key (s := s.withPort c tr) hiv' hl⟩
  · obtain ⟨hm, hno⟩ := not_or.mp hiv
    rw [Bool.not_eq_true] at hno
    cases (exec_encmsg_of_missing_iv hm hno).symm.trans h
    exact ⟨tr, exec_encmsg_of_missing_iv hm (hivv.trans hno)⟩

/-- Every command commutes with a change of `CTRL` that keeps `IVV`, but for what it appends to `TRACE` (R202). -/
theorem exec_withPort {i : Instr} (hc : c.getLsbD 0 = s.ctrl.getLsbD 0) (h : exec i s = .next t) :
    ∃ tr', exec i (s.withPort c tr) = .next (t.withPort c tr') := by
  cases i with
  | gfmul2 | gfmul3 | pad => cases h; exact ⟨tr, rfl⟩
  | subbytes | shiftrows | mixcolumns => cases h; exact ⟨_, congrArg _ (s.applyTraced_withPort c tr (.ofEntry _))⟩
  | expandkey =>
    cases hl : s.keyLengthLegal with
    | true =>
      cases (exec_expandkey_of_legal hl).symm.trans h
      exact ⟨tr, exec_expandkey_of_legal (s := s.withPort c tr) hl⟩
    | false =>
      cases (exec_expandkey_of_illegal hl).symm.trans h
      exact ⟨tr, exec_expandkey_of_illegal (s := s.withPort c tr) hl⟩
  | encblock =>
    by_cases hnr : s.nr = 0#8
    · cases (exec_encblock_of_nr_eq_zero hnr).symm.trans h
      exact ⟨tr, exec_encblock_of_nr_eq_zero (s := s.withPort c tr) hnr⟩
    · cases (exec_encblock_of_schedule hnr).symm.trans h
      rw [exec_encblock_of_schedule (s := s.withPort c tr) hnr]
      exact ⟨_, congrArg _ (s.applyTraced_withPort c tr _)⟩
  | addroundkey k =>
    by_cases hno : s.nr = 0#8 ∨ s.nr.toNat < k
    · cases (exec_addroundkey_of_no_key hno).symm.trans h
      exact ⟨tr, exec_addroundkey_of_no_key (s := s.withPort c tr) hno⟩
    · obtain ⟨hnr, hk⟩ := not_or.mp hno
      cases (exec_addroundkey_of_key hnr (Nat.not_lt.mp hk)).symm.trans h
      rw [exec_addroundkey_of_key (s := s.withPort c tr) hnr (Nat.not_lt.mp hk)]
      exact ⟨_, congrArg _ (s.applyTraced_withPort c tr _)⟩
  | unpad p =>
    by_cases hp : p = .none
    · subst hp
      cases h
      exact ⟨tr, rfl⟩
    · cases hb : unpadMessage s.message with
      | none =>
        cases (exec_unpad_of_eq_none hp hb).symm.trans h
        exact ⟨tr, exec_unpad_of_eq_none (s := s.withPort c tr) hp hb⟩
      | some b =>
        cases (exec_unpad_of_eq_some hp hb).symm.trans h
        exact ⟨tr, exec_unpad_of_eq_some (s := s.withPort c tr) hp hb⟩
  | encmsg m p => exact exec_encmsg_withPort hc h

end

theorem trace_eq_of_not_tren {i : Instr} {s t : State} (htren : s.tren = false) (h : exec i s = .next t) :
    t.trace = s.trace := by
  obtain ⟨e, rfl⟩ | hs := exec_cases h
  · rfl
  · obtain ⟨es, htrace⟩ := hs.trace
    simpa [htren] using htrace

/-! ### How many entries a command emits -/

theorem encryptBlock_length_entries_of_ne_zero (rk : Nat → Block) {nr : Nat} (hnr : nr ≠ 0) (s : Block) :
    (encryptBlock rk nr s).entries.length = 4 * nr := by
  obtain ⟨n, rfl⟩ := Nat.exists_eq_succ_of_ne_zero hnr
  exact encryptBlock_length_entries rk n s

theorem errorCode_ne_zero (e : ErrorKind) : errorCode e ≠ 0#8 := by
  cases e <;> decide

/-- A command that ends with `ERR = 0` did not end in an error. -/
theorem exec_ne_raise {i : Instr} {s t : State} (h : exec i s = .next t) (herr : t.err = 0#8) (e : ErrorKind) :
    exec i s ≠ .next (s.raise e) := by
  intro he
  cases he.symm.trans h
  exact errorCode_ne_zero e herr

/-- The entries that a message emits, block by block (R203). -/
theorem length_messageBlock_entries {m : Mode} {p : Scheme} {s t : State} (hnr : t.nr.toNat ≠ 0) (i : Nat) :
    (messageBlock m p s t i).entries.length = 4 * t.nr.toNat + if m = .ecb then 0 else 1 := by
  have hblock (x : Block) : (t.encrypt x).entries.length = 4 * t.nr.toNat :=
    encryptBlock_length_entries_of_ne_zero _ hnr x
  cases m <;> simp [messageBlock, encryptOne, hblock]

theorem exec_encmsg_emits {m : Mode} {p : Scheme} {s t : State} (hcan : CanEncrypt m s)
    (h : exec (.encmsg m p) s = .next t) : ∃ es, Emitted s t es ∧ es.length = traceCount s t (.encmsg m p) := by
  refine ⟨_, trace_of_exec_encmsg hcan h, ?_⟩
  have hnr : t.nr.toNat ≠ 0 := by
    obtain ⟨-, -, hnr, -⟩ := frame_of_exec_encmsg hcan h
    rw [hnr, State.runKeySchedule_nr_toNat, roundsOf]
    exact Nat.succ_ne_zero _
  rw [List.length_flatMap, List.map_congr_left fun i _ => length_messageBlock_entries hnr i]
  cases m <;> simp [traceCount, Nat.mul_comm]

/-- What a command that succeeds emits, by number (R203). -/
theorem exec_emits {i : Instr} {s t : State} (h : exec i s = .next t) (herr : t.err = 0#8) :
    ∃ es, Emitted s t es ∧ es.length = traceCount s t i := by
  have hnone (ht : t.trace = s.trace) : Emitted s t [] := by simpa [Emitted] using ht
  have hround (x : Traced) (ht : exec i s = .next (s.applyTraced x)) : Emitted s t x.entries := by
    cases ht.symm.trans h
    obtain ⟨-, hemitted, -⟩ := s.applyTraced_frame x
    exact hemitted
  cases i with
  | gfmul2 | gfmul3 | expandkey | pad | unpad => exact ⟨[], hnone ((exec_effect h).trace_kept (by simp)), rfl⟩
  | subbytes => exact ⟨_, hround _ (exec_subbytes s), rfl⟩
  | shiftrows => exact ⟨_, hround _ (exec_shiftrows s), rfl⟩
  | mixcolumns => exact ⟨_, hround _ (exec_mixcolumns s), rfl⟩
  | encblock =>
    have hnr : s.nr ≠ 0#8 := fun hnr => exec_ne_raise h herr _ (exec_encblock_of_nr_eq_zero hnr)
    have ht := exec_encblock_of_schedule hnr
    refine ⟨_, hround _ ht, ?_⟩
    cases ht.symm.trans h
    rw [traceCount, State.applyTraced_nr]
    exact encryptBlock_length_entries_of_ne_zero _ (fun h0 => hnr (BitVec.eq_of_toNat_eq h0)) s.st
  | addroundkey k =>
    have hkey : ¬ (s.nr = 0#8 ∨ s.nr.toNat < k) := fun hno => exec_ne_raise h herr _ (exec_addroundkey_of_no_key hno)
    obtain ⟨hnr, hk⟩ := not_or.mp hkey
    exact ⟨_, hround _ (exec_addroundkey_of_key hnr (Nat.not_lt.mp hk)), rfl⟩
  | encmsg m p =>
    have hcan : CanEncrypt m s := by
      by_contra hcan
      obtain ⟨e, -, he⟩ := exec_encmsg_of_not_canEncrypt (p := p) hcan
      exact exec_ne_raise h herr e he
    exact exec_encmsg_emits hcan h

end Sys2Proof.Machine

section
open Sys2Proof Sys2Proof.Machine

/-- Settles O27: the entries are operations run one after another. -/
theorem blockTraceIsAChain : Obligations.BlockTraceIsAChain := by
  intro rk nr x es
  have hrun := encryptBlock_isRun rk nr x
  exact ⟨fun _ => hrun.prev_of_head?, fun _ => hrun.state_of_getLast?, List.cons_ne_nil _ _,
    fun _ _ _ => hrun.prev_of_getElem?, hrun.ofOperation⟩

/-- Settles O44: a command commutes with the change of `CTRL`, and what it appends without `TREN` is nothing. -/
theorem tracingDoesNotInterfere : Obligations.TracingDoesNotInterfere :=
  ⟨fun _ s _ _ hc h => exec_withPort (tr := s.trace) hc h, fun _ _ _ => trace_eq_of_not_tren⟩

/-- Settles O45: a command that fails only raises its error, and one that succeeds emits as many entries as R203 says. -/
theorem traceCountsPerCommand : Obligations.TraceCountsPerCommand := by
  intro i s t htren h
  split_ifs with herr
  · obtain ⟨es, hes, hlen⟩ := exec_emits h herr
    rw [hes, htren, if_pos rfl, List.length_append, hlen]
  · obtain ⟨e, rfl⟩ | hs := exec_cases h
    · rfl
    · exact absurd hs.err herr

end

end

section
/-! Proofs of the statements about errors (60_exceptions.md), and the lemmas they share: the rows of the error table
whose entries depend on an operand, and how each command ends against its row. -/

namespace Sys2Proof.Machine

/-! ### The rows of the error table -/

theorem possibleErrors_unpad_of_ne_none {p : Scheme} (hp : p ≠ .none) : possibleErrors (.unpad p) = [0#8, 3#8] := by
  cases p with
  | none => exact absurd rfl hp
  | pkcs | ansi => rfl

theorem possibleErrors_encmsg_of_ne_ecb {m : Mode} (hm : m ≠ .ecb) (p : Scheme) :
    possibleErrors (.encmsg m p) = [0#8, 1#8, 2#8] := by
  cases m with
  | ecb => exact absurd rfl hm
  | cbc | ctr => rfl

/-- Success and an illegal key length are in the row of `ENCMSG` in every mode. -/
theorem zero_and_one_mem_possibleErrors_encmsg (m : Mode) (p : Scheme) :
    0#8 ∈ possibleErrors (.encmsg m p) ∧ 1#8 ∈ possibleErrors (.encmsg m p) := by
  cases m <;> simp [possibleErrors]

/-! ### How each command ends -/

/-- `UNPAD` ends in success or `InvalidPaddingLength`, but for scheme None, which ends in `IllegalCommand` (R162). -/
theorem exec_unpad_err_mem (p : Scheme) (s : State) :
    ∃ t, exec (.unpad p) s = .next t ∧ t.err ∈ possibleErrors (.unpad p) := by
  by_cases hp : p = .none
  · subst hp
    exact ⟨_, exec_unpad_none s, by simp [possibleErrors, errorCode]⟩
  · rw [possibleErrors_unpad_of_ne_none hp]
    cases hb : unpadMessage s.message with
    | none => exact ⟨_, exec_unpad_of_eq_none hp hb, by simp [errorCode]⟩
    | some b => exact ⟨_, exec_unpad_of_eq_some hp hb, by simp⟩

/-- `ENCMSG` ends in success or `InvalidKeyLength`, and in `MissingRequiredIV` only in the modes with an IV (R184). -/
theorem exec_encmsg_err_mem (m : Mode) (p : Scheme) (s : State) :
    ∃ t, exec (.encmsg m p) s = .next t ∧ t.err ∈ possibleErrors (.encmsg m p) := by
  obtain ⟨hzero, hone⟩ := zero_and_one_mem_possibleErrors_encmsg m p
  by_cases hiv : m = .ecb ∨ s.ivv = true
  · cases hl : s.keyLengthLegal with
    | true => exact ⟨_, exec_encmsg m p s ⟨hiv, hl⟩, hzero⟩
    | false => exact ⟨_, exec_encmsg_of_illegal_key hiv hl, hone⟩
  · obtain ⟨hm, hno⟩ := not_or.mp hiv
    rw [possibleErrors_encmsg_of_ne_ecb hm]
    exact ⟨_, exec_encmsg_of_missing_iv hm (Bool.eq_false_iff.mpr hno), by simp [errorCode]⟩

/-- From every state every command ends in a next state, with an error of its row of the table (R218). -/
theorem exec_err_mem_possibleErrors (i : Instr) (s : State) : ∃ t, exec i s = .next t ∧ t.err ∈ possibleErrors i := by
  cases i with
  | gfmul2 | gfmul3 | subbytes | shiftrows | mixcolumns | pad => exact ⟨_, rfl, List.mem_singleton.mpr rfl⟩
  | expandkey =>
    cases hl : s.keyLengthLegal with
    | true => exact ⟨_, exec_expandkey_of_legal hl, by simp [possibleErrors]⟩
    | false => exact ⟨_, exec_expandkey_of_illegal hl, by simp [possibleErrors, errorCode]⟩
  | encblock =>
    by_cases hnr : s.nr = 0#8
    · exact ⟨_, exec_encblock_of_nr_eq_zero hnr, by simp [possibleErrors, errorCode]⟩
    · exact ⟨_, exec_encblock_of_schedule hnr, .head _⟩
  | addroundkey k =>
    by_cases hno : s.nr = 0#8 ∨ s.nr.toNat < k
    · exact ⟨_, exec_addroundkey_of_no_key hno, by simp [possibleErrors, errorCode]⟩
    · obtain ⟨hnr, hk⟩ := not_or.mp hno
      exact ⟨_, exec_addroundkey_of_key hnr (Nat.not_lt.mp hk), .head _⟩
  | unpad p => exact exec_unpad_err_mem p s
  | encmsg m p => exact exec_encmsg_err_mem m p s

end Sys2Proof.Machine

section
open Sys2Proof Sys2Proof.Machine

/-- Settles O48: a command that does not succeed has only raised its error. -/
theorem failedCommandChangesOnlyErr : Obligations.FailedCommandChangesOnlyErr := by
  intro i s t h herr
  obtain ⟨e, rfl⟩ | hs := exec_cases h
  · rfl
  · exact absurd hs.err herr

/-- Settles O49: how each command ends, against its row of the table. -/
theorem everyCommandEndsWithATableError : Obligations.EveryCommandEndsWithATableError :=
  exec_err_mem_possibleErrors

end

end

section
/-! Proofs of the statements about reset and hazards (70_reset_and_hazards.md), and the lemmas they share: the buffers
after a reset, what a host write to `KEY` or `KLEN` does, and the block commands under another key. -/

namespace Sys2Proof.Machine

/-! ### Reset -/

/-- A buffer filled by a reset holds the draw's bytes, up to its capacity. -/
theorem Memory.read_writeRange_nil_take {cap a : Nat} (ha : a < cap) (bs : List Byte) :
    (Memory.writeRange [] 0 (bs.take cap)).read a = bs.getD a 0#8 := by
  rw [Memory.read_writeRange, if_pos (Nat.zero_le a)]
  simp [List.getElem?_take_of_lt ha]

/-- The machine right after power-on is one that was reset, with a draw of zeros (log entry 4). -/
theorem State.reset_eq_resetWith_zeros :
    State.reset = State.reset.resetWith ⟨zeros _, zeros _, zeros _, zeros _, [], []⟩ := rfl

/-! ### Host writes to `KEY` and `KLEN` -/

/-- An access that starts below `CTRL` reaches `KEY` or `KLEN` (R51). -/
theorem regTarget_of_lt_ctrl {off n : Nat} {tg : RegTarget} (h : regTarget off n = .ok tg) (hoff : off < 0x021) :
    tg = .key off ∨ tg = .klen := by
  obtain ⟨-, ⟨rfl, -⟩ | ⟨rfl, -⟩ | hrest⟩ := regTarget_cases h
  · exact .inl rfl
  · exact .inr rfl
  · omega

/-- A host write that starts below `CTRL` writes `KEY` or `KLEN`, and nothing else. -/
theorem perform_write_of_lt_ctrl {off : Nat} {bs : List Byte} {s t : State} (hoff : off < 0x021)
    (h : perform (.write .reg off bs) s = .next t) : (∃ key, t = s.setKey key) ∨ ∃ klen, t = s.setKlen klen := by
  cases htg : regTarget off bs.length with
  | error r => cases (perform_write_reg_refused htg s).symm.trans h
  | ok tg =>
    rw [perform_write_reg htg] at h
    rcases regTarget_of_lt_ctrl htg hoff with rfl | rfl
    · cases h; exact .inl ⟨_, rfl⟩
    · cases h; exact .inr ⟨_, rfl⟩

/-! ### The block commands under another key -/

/-- The state with another `KEY` and `KLEN`, and the schedule of the old ones. -/
def State.withKey (s : State) (key : Bytes 32) (klen : Byte) : State := { s with key := key, klen := klen }

theorem State.applyTraced_withKey (s : State) (key : Bytes 32) (klen : Byte) (x : Traced) :
    (s.withKey key klen).applyTraced x = (s.applyTraced x).withKey key klen := by
  simp only [State.applyTraced_eq]
  rfl

section
variable {s t : State} {key : Bytes 32} {klen : Byte}

/-- `ENCBLOCK` commutes with a change of `KEY` and `KLEN`: it reads `W` and `NR` alone (R243). -/
theorem exec_encblock_withKey (h : exec .encblock s = .next t) :
    exec .encblock (s.withKey key klen) = .next (t.withKey key klen) := by
  by_cases hnr : s.nr = 0#8
  · cases (exec_encblock_of_nr_eq_zero hnr).symm.trans h
    exact exec_encblock_of_nr_eq_zero (s := s.withKey key klen) hnr
  · cases (exec_encblock_of_schedule hnr).symm.trans h
    rw [exec_encblock_of_schedule (s := s.withKey key klen) hnr]
    exact congrArg _ (s.applyTraced_withKey key klen _)

/-- `ADDROUNDKEY` commutes with a change of `KEY` and `KLEN`: it reads `W` and `NR` alone (R243). -/
theorem exec_addroundkey_withKey {k : Nat} (h : exec (.addroundkey k) s = .next t) :
    exec (.addroundkey k) (s.withKey key klen) = .next (t.withKey key klen) := by
  by_cases hno : s.nr = 0#8 ∨ s.nr.toNat < k
  · cases (exec_addroundkey_of_no_key hno).symm.trans h
    exact exec_addroundkey_of_no_key (s := s.withKey key klen) hno
  · obtain ⟨hnr, hk⟩ := not_or.mp hno
    cases (exec_addroundkey_of_key hnr (Nat.not_lt.mp hk)).symm.trans h
    rw [exec_addroundkey_of_key (s := s.withKey key klen) hnr (Nat.not_lt.mp hk)]
    exact congrArg _ (s.applyTraced_withKey key klen _)

end

end Sys2Proof.Machine

section
open Sys2Proof Sys2Proof.Machine

/-- Settles O59: writes below `CTRL` reach `KEY` or `KLEN` alone, and each block command commutes with another key. -/
theorem blockCommandsUseTheOldSchedule : Obligations.BlockCommandsUseTheOldSchedule := by
  refine ⟨fun s t off bs hoff h => ?_, fun i s t key klen hi h => ?_⟩
  · rcases perform_write_of_lt_ctrl hoff h with ⟨key, rfl⟩ | ⟨klen, rfl⟩
    · exact ⟨rfl, rfl⟩
    · exact ⟨rfl, rfl⟩
  · rcases hi with rfl | ⟨k, rfl⟩
    · exact exec_encblock_withKey h
    · exact exec_addroundkey_withKey h

/-- Settles O8: the invariant after any reset, power-on being one, and the buffers byte by byte. -/
theorem resetStatesMeetTheInvariant : Obligations.ResetStatesMeetTheInvariant := by
  refine ⟨?_, fun s d hcap => ⟨State.inv_resetWith hcap d, rfl, rfl, rfl, rfl, fun a ha => ?_, fun a ha => ?_,
    rfl, rfl, rfl⟩⟩
  · rw [State.reset_eq_resetWith_zeros]
    exact State.inv_resetWith (by decide) _
  · exact Memory.read_writeRange_nil_take ha d.ibuf
  · exact Memory.read_writeRange_nil_take ha d.obuf

end
end
